-- ==== Sys2Proof/Word.lean ====
section
/-! DEFINITION. The word types of the PFC-CORE codec engine (00_scope.md R11, R12). -/
namespace Sys2Proof

/-- A 64-bit word: every register, operand, result and codec value (R11), and a bus address (R12). -/
abbrev Word := BitVec 64

/-- One byte of platform memory (R19). -/
abbrev Byte := BitVec 8

end Sys2Proof
end

