-- ==== Sys2Proof/Syntax.lean ====
section
/-! DEFINITION. The commands of the engine: one constructor for each row of spec/opcode_table.json (30_encoding.md R113). -/
namespace Sys2Proof

/-- One command. `sgn` is the S bit (R110): apply zigzag. The number a Rice, Exp-Golomb or FixedWidth command carries is
its P field (R110, R112): K, Order or N as an unsigned number, seven bits wide (`Instr.wellFormed`). Every other operand is in
ARG0 or ARG1. -/
inductive Instr where
  -- the bit-stream family, 0x01 to 0x0F
  | sinkInit
  | writeBit
  | writeBits
  | align
  | hasSpace
  | bitsWritten
  | bytesWritten
  | srcInit
  | readBit
  | readBits
  | atEnd
  | remaining
  | skipBits
  | srcReset
  | srcAlign
  -- the codec family, 0x20 to 0x33
  | encUnary (sgn : Bool)
  | decUnary (sgn : Bool)
  | encGamma (sgn : Bool)
  | decGamma (sgn : Bool)
  | encDelta (sgn : Bool)
  | decDelta (sgn : Bool)
  | encOmega (sgn : Bool)
  | decOmega (sgn : Bool)
  | encFib (sgn : Bool)
  | decFib (sgn : Bool)
  | encRice (k : Nat) (sgn : Bool)
  | decRice (k : Nat) (sgn : Bool)
  | encGolomb (sgn : Bool)
  | decGolomb (sgn : Bool)
  | encVByte (sgn : Bool)
  | decVByte (sgn : Bool)
  | encExpG (order : Nat) (sgn : Bool)
  | decExpG (order : Nat) (sgn : Bool)
  | encFixed (n : Nat) (sgn : Bool)
  | decFixed (n : Nat) (sgn : Bool)
  -- the succinct bit-vector family, 0x40 to 0x49
  | svInit
  | svSet
  | svReset
  | svFlip
  | svGet
  | svBuild
  | svRank
  | svSelect
  | svEncode
  | svDecode
  deriving DecidableEq, Repr

end Sys2Proof
end

