-- ==== Sys2Proof/WellFormed.lean ====
section
/-! DEFINITION. Which terms of `Instr` a command word can carry (30_encoding.md R110). -/
namespace Sys2Proof

/-- R110, R112: the P field is seven bits, 0..127. (A P outside its codec's range, such as K = 64, is still a legal word:
R117. It ends with INVALID_PARAMETER when it runs.) -/
def Instr.wellFormed : Instr → Bool
  | .encRice k _ | .decRice k _ => decide (k < 128)
  | .encExpG order _ | .decExpG order _ => decide (order < 128)
  | .encFixed n _ | .decFixed n _ => decide (n < 128)
  | .sinkInit | .writeBit | .writeBits | .align | .hasSpace | .bitsWritten | .bytesWritten => true
  | .srcInit | .readBit | .readBits | .atEnd | .remaining | .skipBits | .srcReset | .srcAlign => true
  | .encUnary _ | .decUnary _ | .encGamma _ | .decGamma _ | .encDelta _ | .decDelta _ => true
  | .encOmega _ | .decOmega _ | .encFib _ | .decFib _ | .encGolomb _ | .decGolomb _ => true
  | .encVByte _ | .decVByte _ => true
  | .svInit | .svSet | .svReset | .svFlip | .svGet | .svBuild | .svRank | .svSelect => true
  | .svEncode | .svDecode => true

end Sys2Proof
end

