-- ==== Sys2Proof/Decode.lean ====
section
/-! DEFINITION. The 64-bit command word (30_encoding.md R110 to R118): the decoder, total on every word and rejecting by name,
and after it the encoder. -/
namespace Sys2Proof

/-- Why a command word is illegal: the four clauses of R115. -/
inductive Illegal where
  /-- w[63:16] ≠ 0. -/
  | reservedBits
  /-- w[7:0] is not an opcode of R113 (R114, R118). -/
  | reservedOpcode
  /-- w[15] = 1 on a command whose row has no S. -/
  | signedModifier
  /-- w[14:8] ≠ 0 on a command whose row has no P. -/
  | parameter
  deriving DecidableEq, Repr

/-- OP, bits 7:0 (R110). -/
def opField (w : Word) : Nat := w.toNat % 256

/-- P, bits 14:8, as an unsigned number 0..127 (R110, R112). -/
def paramField (w : Word) : Nat := w.toNat / 256 % 128

/-- S, bit 15 (R110). -/
def signField (w : Word) : Bool := w.toNat / 32768 % 2 == 1

/-- RES, bits 63:16 (R110). -/
def reservedField (w : Word) : Nat := w.toNat / 65536

/-- R115 for a codec row without P: bits 14:8 must be 0. -/
def unparameterised (w : Word) (i : Instr) : Except Illegal Instr :=
  if paramField w ≠ 0 then .error .parameter else .ok i

/-- R115 for a row without P and without S: bits 15:8 must be 0. -/
def plain (w : Word) (i : Instr) : Except Illegal Instr :=
  if signField w then .error .signedModifier else unparameterised w i

/-- The decoder (R111, R113, R115): the word alone decides. -/
def decode (w : Word) : Except Illegal Instr :=
  if reservedField w ≠ 0 then .error .reservedBits else
    match opField w with
    | 0x01 => plain w .sinkInit
    | 0x02 => plain w .writeBit
    | 0x03 => plain w .writeBits
    | 0x04 => plain w .align
    | 0x05 => plain w .hasSpace
    | 0x06 => plain w .bitsWritten
    | 0x07 => plain w .bytesWritten
    | 0x08 => plain w .srcInit
    | 0x09 => plain w .readBit
    | 0x0A => plain w .readBits
    | 0x0B => plain w .atEnd
    | 0x0C => plain w .remaining
    | 0x0D => plain w .skipBits
    | 0x0E => plain w .srcReset
    | 0x0F => plain w .srcAlign
    | 0x20 => unparameterised w (.encUnary (signField w))
    | 0x21 => unparameterised w (.decUnary (signField w))
    | 0x22 => unparameterised w (.encGamma (signField w))
    | 0x23 => unparameterised w (.decGamma (signField w))
    | 0x24 => unparameterised w (.encDelta (signField w))
    | 0x25 => unparameterised w (.decDelta (signField w))
    | 0x26 => unparameterised w (.encOmega (signField w))
    | 0x27 => unparameterised w (.decOmega (signField w))
    | 0x28 => unparameterised w (.encFib (signField w))
    | 0x29 => unparameterised w (.decFib (signField w))
    | 0x2A => .ok (.encRice (paramField w) (signField w))
    | 0x2B => .ok (.decRice (paramField w) (signField w))
    | 0x2C => unparameterised w (.encGolomb (signField w))
    | 0x2D => unparameterised w (.decGolomb (signField w))
    | 0x2E => unparameterised w (.encVByte (signField w))
    | 0x2F => unparameterised w (.decVByte (signField w))
    | 0x30 => .ok (.encExpG (paramField w) (signField w))
    | 0x31 => .ok (.decExpG (paramField w) (signField w))
    | 0x32 => .ok (.encFixed (paramField w) (signField w))
    | 0x33 => .ok (.decFixed (paramField w) (signField w))
    | 0x40 => plain w .svInit
    | 0x41 => plain w .svSet
    | 0x42 => plain w .svReset
    | 0x43 => plain w .svFlip
    | 0x44 => plain w .svGet
    | 0x45 => plain w .svBuild
    | 0x46 => plain w .svRank
    | 0x47 => plain w .svSelect
    | 0x48 => plain w .svEncode
    | 0x49 => plain w .svDecode
    | _ => .error .reservedOpcode

/-- R110, R120: `OP | (p << 8) | (S << 15)`, with RES = 0. -/
def commandWord (op p : Nat) (sgn : Bool) : Word :=
  BitVec.ofNat 64 (op + p * 256 + sgn.toNat * 32768)

/-- The command word of a command (R113, R120). -/
def encode : Instr → Word
  | .sinkInit => commandWord 0x01 0 false
  | .writeBit => commandWord 0x02 0 false
  | .writeBits => commandWord 0x03 0 false
  | .align => commandWord 0x04 0 false
  | .hasSpace => commandWord 0x05 0 false
  | .bitsWritten => commandWord 0x06 0 false
  | .bytesWritten => commandWord 0x07 0 false
  | .srcInit => commandWord 0x08 0 false
  | .readBit => commandWord 0x09 0 false
  | .readBits => commandWord 0x0A 0 false
  | .atEnd => commandWord 0x0B 0 false
  | .remaining => commandWord 0x0C 0 false
  | .skipBits => commandWord 0x0D 0 false
  | .srcReset => commandWord 0x0E 0 false
  | .srcAlign => commandWord 0x0F 0 false
  | .encUnary sgn => commandWord 0x20 0 sgn
  | .decUnary sgn => commandWord 0x21 0 sgn
  | .encGamma sgn => commandWord 0x22 0 sgn
  | .decGamma sgn => commandWord 0x23 0 sgn
  | .encDelta sgn => commandWord 0x24 0 sgn
  | .decDelta sgn => commandWord 0x25 0 sgn
  | .encOmega sgn => commandWord 0x26 0 sgn
  | .decOmega sgn => commandWord 0x27 0 sgn
  | .encFib sgn => commandWord 0x28 0 sgn
  | .decFib sgn => commandWord 0x29 0 sgn
  | .encRice p sgn => commandWord 0x2A p sgn
  | .decRice p sgn => commandWord 0x2B p sgn
  | .encGolomb sgn => commandWord 0x2C 0 sgn
  | .decGolomb sgn => commandWord 0x2D 0 sgn
  | .encVByte sgn => commandWord 0x2E 0 sgn
  | .decVByte sgn => commandWord 0x2F 0 sgn
  | .encExpG p sgn => commandWord 0x30 p sgn
  | .decExpG p sgn => commandWord 0x31 p sgn
  | .encFixed p sgn => commandWord 0x32 p sgn
  | .decFixed p sgn => commandWord 0x33 p sgn
  | .svInit => commandWord 0x40 0 false
  | .svSet => commandWord 0x41 0 false
  | .svReset => commandWord 0x42 0 false
  | .svFlip => commandWord 0x43 0 false
  | .svGet => commandWord 0x44 0 false
  | .svBuild => commandWord 0x45 0 false
  | .svRank => commandWord 0x46 0 false
  | .svSelect => commandWord 0x47 0 false
  | .svEncode => commandWord 0x48 0 false
  | .svDecode => commandWord 0x49 0 false

/-- The instruction the decoder reads from the `nbits` low bits of `w`, bit 0 the least significant bit of the command word.
A command is one 64-bit word (R111), so the bits above `nbits` are 0. -/
def decodeTableWord (nbits w : Nat) : Option Instr :=
  (decode (BitVec.ofNat 64 (w % 2 ^ nbits))).toOption

end Sys2Proof
end

