-- ==== Sys2Proof/Config.lean ====
section
/-! DEFINITION. What the spec leaves to the platform (R13, R14) and the free values the spec leaves open
(93_implementation_defined.md). The platform parameters are plain data that the state carries unchanged, so that every
statement about every state is a statement about every platform; the free values are opaque constants, so that no proof
can see what they are. -/
namespace Sys2Proof

/-- The three OPEN parameters of R13 and R14 (92_eei_decisions.md D46, D47, D48). -/
structure Platform where
  /-- `VMAX`, the bit-vector RAM's capacity in bits (R13: 1 ≤ VMAX ≤ 2^32−1). -/
  vmax : Nat
  /-- `MMIO_BASE / 256`: R14 makes `MMIO_BASE` a multiple of 256, so the low eight address bits are not stored. -/
  mmioPage : BitVec 56
  /-- `MemAdmits` (R14) as a list of windows `(first byte address, number of bytes)`: an address is admitted when some window
  holds it. Every set of addresses below 2^64 is a finite union of windows, so no predicate is lost. -/
  windows : List (Nat × Nat)
  deriving DecidableEq, Repr

/-- R13 and R14: `VMAX` is in its range. (The other two parameters are free.) -/
abbrev Platform.Valid (p : Platform) : Prop := 1 ≤ p.vmax ∧ p.vmax ≤ 2 ^ 32 - 1

/-- The platform `State.reset` stands on (DESIGN CHOICE, unsafe: notes/assumptions/2.md): VMAX = 131072 as in 95_test_vectors.md,
a flat memory that admits every address (D47), and a register block at 0xF0000000. -/
def Platform.standard : Platform :=
  { vmax := 131072, mmioPage := 0xF00000#56, windows := [(0, 18446744073709551616)] }

/-! ### Free values. The first argument is the number of the draw (`State.draws`), so each draw is free of every other. -/

/-- U4, U5, U6: the byte at an address after a BUS_ERROR inside a sink write, or in a race. -/
opaque Config.freeByte (draw addr : Nat) : Byte
/-- U7: what SV_SELECT returns on an inconsistent index; U6: RESULT after a race. -/
opaque Config.freeWord (draw : Nat) : Word
/-- U9: superblock count `s` after SV_INIT; U6: after a race with SV_DECODE. -/
opaque Config.freeSuper (draw s : Nat) : BitVec 32
/-- U9: block count `j` after SV_INIT; U6: after a race with SV_DECODE. -/
opaque Config.freeBlock (draw j : Nat) : BitVec 16
/-- U6: SV_BITS cell `i` after a race with SV_DECODE. -/
opaque Config.freeCell (draw i : Nat) : Bool
/-- U6: whether a raced SV_DECODE leaves the vector Indexed. -/
opaque Config.freeIndexed (draw : Nat) : Bool
/-- U6: the vector length a raced SV_DECODE leaves, before the bound `VMAX` of R54 is applied. -/
opaque Config.freeLength (draw : Nat) : Nat
/-- U6: SV_TOTAL after a race with SV_DECODE. -/
opaque Config.freeTotal (draw : Nat) : Word
/-- U6: how far a raced command moves its stream, before the bound of R49 or R53 is applied. -/
opaque Config.freeAdvance (draw : Nat) : Nat
/-- U6: PEND after a race, before the mask of R50 is applied. -/
opaque Config.freePend (draw : Nat) : Byte
/-- U6: the error code of a raced command; the ten codes of R360 are all there are. -/
opaque Config.freeCode (draw : Nat) : Fin 10

end Sys2Proof
end

