-- ==== Sys2Proof/Machine/State.lean ====
section
/-! DEFINITION. The state of the engine as plain data (10_state.md), the host agent's accesses still to come (R24), and the
reasons a step can stop. -/
namespace Sys2Proof.Machine

/-- The ten error codes of R360. Codes 10 to 255 are reserved: no command produces them. -/
inductive ErrCode where
  | ok
  | bufferOverflow
  | bufferUnderflow
  | invalidParameter
  | invalidInput
  | incompleteData
  | illegalCommand
  | staleIndex
  | faulted
  | busError
  deriving DecidableEq, Repr

/-- The two states of the bit vector's index (R59). -/
inductive IndexState where
  | unindexed
  | indexed
  deriving DecidableEq, Repr

/-- What comes to the engine from outside, one thing at a time (R24: the engine's "program" is the sequence of commands the
host issues). `engine` places the engine's step among the host's (R97, R412: any point after the CMD write). DESIGN CHOICE, safe:
notes/assumptions/4.md. -/
inductive HostEvent where
  /-- The host reads `size` bytes at a bus address. -/
  | read (addr : Word) (size : Nat)
  /-- The host writes bytes to a bus address and the addresses after it. -/
  | write (addr : Word) (bytes : List Byte)
  /-- The host polls STATUS until BUSY = 0 (R121, `wait`). -/
  | wait
  /-- The engine takes its step here, if a command is in flight (R97). -/
  | engine
  /-- A power-on reset, a platform signal (R400). -/
  | powerOn
  deriving DecidableEq, Repr

/-- Platform memory (R80): `(address, byte)` pairs in strictly rising order of address, none equal to what an unlisted address
reads as (`Memory.wf` in Machine/Memory.lean). -/
abbrev Memory := List Host.Cell

/-- Everything the spec gives the machine, then the model's own fields. -/
structure State where
  /-- The platform's parameters (R13, R14). No step changes them; CAPS (R33) reads `plat.vmax`. -/
  plat : Platform
  /-- CMD (R43): the last accepted command word. -/
  cmd : Word
  /-- ARG0 (R44). -/
  arg0 : Word
  /-- ARG1 (R45). -/
  arg1 : Word
  /-- RESULT (R46). -/
  result : Word
  /-- STATUS.BUSY (R36), which is also the in-flight flag of R60. -/
  busy : Bool
  /-- STATUS.FAULT (R37). -/
  fault : Bool
  /-- STATUS.NF (R38), cleared by the accepted CMD write (R36, R43). What an early read of it shows is `State.nfRead`. -/
  nf : Bool
  /-- The index state (R59); STATUS.IDX (R39) reads it. -/
  index : IndexState
  /-- STATUS.PROTO (R40). -/
  proto : Bool
  /-- STATUS.ERR (R41). -/
  err : ErrCode
  /-- STATUS.FCODE (R42); `ok` is its 0. -/
  fcode : ErrCode
  /-- SINK_BASE (R47). -/
  sinkBase : Word
  /-- SINK_CAP (R48). -/
  sinkCap : Word
  /-- SINK_CURSOR (R49). -/
  sinkCursor : Word
  /-- PEND (R50), hidden. -/
  pend : Byte
  /-- SRC_BASE (R51). -/
  srcBase : Word
  /-- SRC_SIZE (R52). -/
  srcSize : Word
  /-- SRC_POS (R53). -/
  srcPos : Word
  /-- SV_LEN (R54). -/
  svLen : Word
  /-- SV_TOTAL (R55). -/
  svTotal : Word
  /-- SV_BITS[0..n−1] (R56): the cells of the bit-vector RAM below SV_LEN, the only observable ones (DEDUCED, safe:
  notes/assumptions/5.md). -/
  svBits : List Bool
  /-- SB[0..S(n)−1] (R57). -/
  sb : List (BitVec 32)
  /-- BK[0..B(n)−1] (R58). -/
  bk : List (BitVec 16)
  /-- Platform memory (R80). -/
  mem : Memory
  /-- The model's own: what is still to come from outside, in order (R24, R97). -/
  host : List HostEvent
  /-- The model's own: the bytes the host's last read returned, in rising order of address (R32). -/
  hostData : List Byte
  /-- The model's own: the host has written, while the command in flight was busy, a byte that command may read or write (R99;
  notes/assumptions/7.md). -/
  raced : Bool
  /-- STATUS.NF from before the command in flight, which is what a read of STATUS shows while BUSY = 1 (R406); unread while BUSY = 0
  (DEDUCED: notes/assumptions/18.md). -/
  nfBefore : Bool
  /-- The model's own: the number of the next draw of free values (DESIGN CHOICE, safe: notes/assumptions/9.md). -/
  draws : Nat
  deriving DecidableEq, Repr

/-- Why the machine stops with a fault. The engine's own fault state (R364) is no such stop: it is a next state with
STATUS.FAULT = 1. -/
inductive Fault where
  /-- Raised by a host access that runs past byte address 2^64−1, where the spec says no address exists (R12;
  notes/assumptions/10.md). Safe: the engine never forms such an address (R105), and no command raises this. -/
  | addressSpace
  deriving DecidableEq, Repr

/-- Why a step has no meaning. -/
inductive Refusal where
  /-- Raised by `exec` alone, for an instruction whose meaning is not written. Safe: nothing is claimed of it. -/
  | notModelled (mnemonic : String)
  /-- Raised by a host access that touches the register block and is not a naturally aligned 8-byte access (R31, U11: `refuse`;
  notes/assumptions/11.md). Safe: the spec says a model refuses it. -/
  | registerAccess
  deriving DecidableEq, Repr

/-- The state right after reset on a platform (R65, R400): every register 0 but CAPS, which is `plat.vmax`; PEND 0; nothing in
flight; Unindexed; n = 0, so that no cell of SV_BITS, SB or BK is observable; nothing written to memory yet. -/
def State.resetOn (p : Platform) : State :=
  { plat := p
    cmd := 0, arg0 := 0, arg1 := 0, result := 0
    busy := false, fault := false, nf := false, index := .unindexed, proto := false, err := .ok, fcode := .ok
    sinkBase := 0, sinkCap := 0, sinkCursor := 0, pend := 0
    srcBase := 0, srcSize := 0, srcPos := 0
    svLen := 0, svTotal := 0, svBits := [], sb := [], bk := []
    mem := []
    host := [], hostData := [], raced := false, nfBefore := false, draws := 0 }

/-- The machine right after reset (R65), on the platform of notes/assumptions/2.md. -/
def State.reset : State := State.resetOn Platform.standard

end Sys2Proof.Machine
end

