-- ==== Sys2Proof/Machine/Memory.lean ====
section
/-! DEFINITION. Platform memory (20_memory.md §1): reading and writing one byte, the canonical form, and MemAdmits. -/
namespace Sys2Proof

/-- `MMIO_BASE` (R14): a multiple of 256 by construction. -/
def Platform.mmioBase (p : Platform) : Nat := p.mmioPage.toNat * 256

/-- `MemAdmits(addr)` (R14, R80): an address of the 64-bit space (R12; notes/assumptions/10.md) inside some window. -/
def Platform.admits (p : Platform) (addr : Nat) : Bool :=
  decide (addr < 2 ^ 64) && p.windows.any fun w => decide (w.1 ≤ addr ∧ addr < w.1 + w.2)

end Sys2Proof

namespace Sys2Proof.Machine

/-- What a byte of platform memory that nothing has written reads as (DESIGN CHOICE, unsafe: notes/assumptions/3.md). -/
def Memory.unwritten : Byte := 0

/-- `MemRead(addr, 1)` (R19). -/
def Memory.read : Memory → Nat → Byte
  | [], _ => Memory.unwritten
  | (k, b) :: rest, addr => if k = addr then b else Memory.read rest addr

/-- A cell in front of a memory, left out when it says what an unlisted address reads as. -/
def Memory.cons (addr : Nat) (v : Byte) (m : Memory) : Memory :=
  if v = Memory.unwritten then m else (addr, v) :: m

/-- `MemWrite(addr, 1, v)` (R19), keeping the canonical form. -/
def Memory.write : Memory → Nat → Byte → Memory
  | [], addr, v => Memory.cons addr v []
  | (k, b) :: rest, addr, v =>
    if addr < k then Memory.cons addr v ((k, b) :: rest)
    else if addr = k then Memory.cons addr v rest
    else (k, b) :: Memory.write rest addr v

/-- The canonical form: addresses strictly rising, and no cell equal to what an unlisted address reads as. -/
abbrev Memory.wf (m : Memory) : Prop :=
  m.Pairwise (fun c d => c.1 < d.1) ∧ ∀ c ∈ m, c.2 ≠ Memory.unwritten

/-- Bytes at an address and the addresses after it. -/
def Memory.readBytes (m : Memory) (addr n : Nat) : List Byte :=
  (List.range n).map fun i => m.read (addr + i)

/-- Writes bytes at an address and the addresses after it. -/
def Memory.writeBytes : Memory → Nat → List Byte → Memory
  | m, _, [] => m
  | m, addr, b :: rest => Memory.writeBytes (m.write addr b) (addr + 1) rest

/-- Gives those of the `n` bytes from `addr` that `free` picks a free value (U4, U6); the others stay. -/
def Memory.scramble (m : Memory) (draw : Nat) (free : Nat → Bool) (addr : Nat) : Nat → Memory
  | 0 => m
  | n + 1 =>
    if free (addr + n) then
      Memory.write (Memory.scramble m draw free addr n) (addr + n) (Config.freeByte draw (addr + n))
    else Memory.scramble m draw free addr n

end Sys2Proof.Machine
end

