-- ==== Sys2Proof/Machine/Bits.lean ====
section
/-! DEFINITION. Bit strings in stream order (00_scope.md R16, R17), and byte lanes (10_state.md R32). -/
namespace Sys2Proof.Machine

/-- A bit string: the first bit written or read stands first (R17). -/
abbrev Bits := List Bool

/-- `bitlen(v)` (R16): 0 for 0, else ⌊log2 v⌋ + 1. -/
def bitlen (v : Nat) : Nat := if v = 0 then 0 else Nat.log2 v + 1

/-- `ones(q)` (R17). -/
def ones (q : Nat) : Bits := List.replicate q true

/-- `zeros(q)` (R17). -/
def zeros (q : Nat) : Bits := List.replicate q false

/-- `msb(v, n)` (R17): v[n−1], …, v[0]. -/
def msb (v : Nat) : Nat → Bits
  | 0 => []
  | n + 1 => v.testBit n :: msb v n

/-- `lsb(v, n)` (R17): v[0], …, v[n−1]. -/
def lsb (v n : Nat) : Bits := (List.range n).map fun i => v.testBit i

/-- `⌈a / b⌉`. -/
def ceilDiv (a b : Nat) : Nat := (a + (b - 1)) / b

/-- The zero bits from stream position `c` to the next byte boundary: `(8 − (c mod 8)) mod 8` (R143, R154, R320). -/
def padTo8 (c : Nat) : Nat := (8 - c % 8) % 8

/-- `popcount` of a bit string (R16). -/
def popcount (s : Bits) : Nat := s.count true

/-- A byte with bit `i` set to `b`. -/
def setBit (p : Byte) (i : Nat) (b : Bool) : Byte :=
  if b then p ||| BitVec.twoPow 8 i else p &&& ~~~(BitVec.twoPow 8 i)

/-- The eight byte lanes of a register at rising addresses: lane j is bits 8j+7 to 8j (R32). -/
def lanes (w : Word) : List Byte := (List.range 8).map fun j => w.extractLsb' (8 * j) 8

/-- The register value that byte lanes at rising addresses carry (R32). -/
def ofLanes : List Byte → Nat
  | [] => 0
  | b :: rest => b.toNat + 256 * ofLanes rest

end Sys2Proof.Machine
end

