-- ==== Sys2Proof/Machine/Flags.lean ====
section
/-! DEFINITION. STATUS and its fields (10_state.md R35 to R42), the error codes (60_exceptions.md R360) and CAPS (R33). -/
namespace Sys2Proof.Machine

/-- The 8-bit code of R360. -/
def ErrCode.code : ErrCode → BitVec 8
  | .ok => 0
  | .bufferOverflow => 1
  | .bufferUnderflow => 2
  | .invalidParameter => 3
  | .invalidInput => 4
  | .incompleteData => 5
  | .illegalCommand => 6
  | .staleIndex => 7
  | .faulted => 8
  | .busError => 9

/-- The two fatal codes of R360. -/
def ErrCode.fatal : ErrCode → Bool
  | .staleIndex | .busError => true
  | .ok | .bufferOverflow | .bufferUnderflow | .invalidParameter | .invalidInput => false
  | .incompleteData | .illegalCommand | .faulted => false

/-- The code with a number of R360's table. -/
def ErrCode.ofFin (n : Fin 10) : ErrCode :=
  match n.val with
  | 0 => .ok
  | 1 => .bufferOverflow
  | 2 => .bufferUnderflow
  | 3 => .invalidParameter
  | 4 => .invalidInput
  | 5 => .incompleteData
  | 6 => .illegalCommand
  | 7 => .staleIndex
  | 8 => .faulted
  | _ => .busError

/-- STATUS.IDX (R39). -/
def IndexState.bit : IndexState → Bool
  | .indexed => true
  | .unindexed => false

/-- STATUS.NF as the host reads it: while BUSY = 1 its value from before the command (R406), afterwards the field (R38). That the field is
cleared at the CMD write (R36, R43) and the read shows it only from BUSY = 0 on is DEDUCED, unsafe: notes/assumptions/18.md. -/
def State.nfRead (s : State) : Bool := if s.busy then s.nfBefore else s.nf

/-- STATUS as the host reads it (R35): FCODE 23:16, ERR 15:8, PROTO 4, IDX 3, NF 2, FAULT 1, BUSY 0, all other bits 0. -/
def State.status (s : State) : Word :=
  BitVec.ofNat 64 (s.busy.toNat + 2 * s.fault.toNat + 4 * s.nfRead.toNat + 8 * s.index.bit.toNat + 16 * s.proto.toNat
    + 256 * s.err.code.toNat + 65536 * s.fcode.code.toNat)

/-- CAPS (R33): VMAX in bits 31:0, and bits 63:32 read 0. -/
def State.caps (s : State) : Word := BitVec.ofNat 64 (s.plat.vmax % 2 ^ 32)

end Sys2Proof.Machine
end

