-- ==== Sys2Proof/Machine/Ops.lean ====
section
/-! DEFINITION. The shared operations: completing a command, raising an error or a fault and leaving it by reset
(60_exceptions.md, 70_reset_and_hazards.md R400), writing the sink (20_memory.md R86) and reading the source (R90, R91). -/
namespace Sys2Proof.Machine

/-! ### Completing a command -/

/-- BUSY ← 0 and ERR ← the code (R36, R97). -/
def State.complete (s : State) (e : ErrCode) : State := { s with busy := false, err := e }

/-- The command ends with OK. -/
def succeed (s : State) : State := s.complete .ok

/-- The command ends with OK and returns a value (R46). -/
def returnValue (v : Word) (s : State) : State := succeed { s with result := v }

/-- `raise E` (R21, R362, R364): the command ends with code E and changes nothing else; a fatal code also sets FAULT and FCODE.
This is the engine's one way of taking an exception: no control transfer, no saved pc, no change of mode (R369). -/
def raise (e : ErrCode) (s : State) : State :=
  if e.fatal then { s.complete e with fault := true, fcode := e } else s.complete e

/-- An accepted CMD write (R36, R38, R43): ERR and NF are cleared here. NF's value from before is kept, because R406 says that a read
before BUSY = 0 returns it, ERR alone excepted: `State.nfRead` (DEDUCED, unsafe: notes/assumptions/18.md). -/
def State.accept (s : State) (w : Word) : State :=
  { s with cmd := w, busy := true, err := .ok, nf := false, nfBefore := s.nf, raced := false }

/-- Reset, the one way out of the fault state (R364, R370, R400): every piece of state takes its reset value, CAPS stays VMAX, and
platform memory is untouched (R402). What the host still does and has read is not the engine's (DEDUCED, safe:
notes/assumptions/12.md). -/
def State.engineReset (s : State) : State :=
  { State.resetOn s.plat with mem := s.mem, host := s.host, hostData := s.hostData, draws := s.draws }

/-! ### The sink -/

/-- `SINK_CAP − SINK_CURSOR`, the bits left in the sink (R16: over naturals). -/
def State.sinkRoom (s : State) : Nat := s.sinkCap.toNat - s.sinkCursor.toNat

/-- The loop of `PutBits` (R86) from cursor `c` and pending byte `p`: the cursor, pending byte and memory after it, or `none` when an
access is not admitted. -/
def putLoop (plat : Platform) (base : Nat) : Bits → Nat → Byte → Memory → Option (Nat × Byte × Memory)
  | [], c, p, m => some (c, p, m)
  | b :: rest, c, p, m =>
    let p' := setBit (if c % 8 = 0 then 0 else p) (c % 8) b
    if c % 8 = 7 ∨ rest = [] then
      if plat.admits (base + c / 8) then putLoop plat base rest (c + 1) p' (m.write (base + c / 8) p') else none
    else putLoop plat base rest (c + 1) p' m

/-- Who writes the sink. It matters only to what a BUS_ERROR leaves (notes/assumptions/8.md). -/
inductive SinkWriter where
  /-- WRITE_BIT, WRITE_BITS and ALIGN (41_bitstream.md). -/
  | stream
  /-- An encode: ENC_X (42_codec_common.md R184) and SV_ENCODE. -/
  | encode
  deriving DecidableEq, Repr

/-- A sink write of `len` bits may store this byte: one of the range R87 gives, from the byte at the cursor to the byte of the last bit.
In an encode that is every byte of the range (R184, U4); in a stream command only a byte the platform admits, since a rejected access
is not made (R366; L2.7; DEDUCED, notes/assumptions/8.md). A write of no bits stores none. -/
def State.storesByte (s : State) (w : SinkWriter) (len addr : Nat) : Bool :=
  decide (0 < len ∧ s.sinkBase.toNat + s.sinkCursor.toNat / 8 ≤ addr ∧
    addr < s.sinkBase.toNat + ceilDiv (s.sinkCursor.toNat + len) 8) && (w == .encode || s.plat.admits addr)

/-- Memory after a sink write of `len` bits whose bytes are unspecified (U4, U6): each byte it may store has a free value. -/
def State.scrambleSink (s : State) (w : SinkWriter) (len : Nat) : Memory :=
  let first := s.sinkCursor.toNat / 8
  s.mem.scramble s.draws (s.storesByte w len) (s.sinkBase.toNat + first) (ceilDiv (s.sinkCursor.toNat + len) 8 - first)

/-- A BUS_ERROR inside a sink write of `len` bits (R184, R366, U4): each byte it may have stored has a free value; the stream registers
and PEND stay (DEDUCED: notes/assumptions/8.md). -/
def sinkBusError (w : SinkWriter) (len : Nat) (s : State) : State :=
  raise .busError { s with mem := s.scrambleSink w len, draws := s.draws + 1 }

/-- `PutBits(s)` (R86) as the end of a command whose length check has passed: it appends the bits and succeeds, or ends with
BUS_ERROR. No bits change nothing. -/
def putBits (w : SinkWriter) (bits : Bits) (s : State) : State :=
  match bits with
  | [] => succeed s
  | b :: rest =>
    match putLoop s.plat s.sinkBase.toNat (b :: rest) s.sinkCursor.toNat s.pend s.mem with
    | some (c, p, m) =>
      succeed { s with sinkCursor := BitVec.ofNat 64 c, pend := if c % 8 = 0 then 0 else p, mem := m }
    | none => sinkBusError w (b :: rest).length s

/-! ### The source -/

/-- What ends a parser early. `out k` is `raise OUT` (R21, R90) after `k` bits of this command. -/
inductive ParseError where
  | out (consumed : Nat)
  | corrupt
  | bus
  deriving DecidableEq, Repr

/-- R182: running out before the first bit is BUFFER_UNDERFLOW, later INCOMPLETE_DATA. R21: CORRUPT is INVALID_INPUT. -/
def ParseError.errCode : ParseError → ErrCode
  | .out 0 => .bufferUnderflow
  | .out (_ + 1) => .incompleteData
  | .corrupt => .invalidInput
  | .bus => .busError

/-- A parser of one command: it threads `consumed`, the bits the command has taken so far (R90). -/
abbrev Parser := StateT Nat (Except ParseError)

/-- `SRC_SIZE − SRC_POS`, the unread bits (R16: over naturals). -/
def State.srcLeft (s : State) : Nat := s.srcSize.toNat - s.srcPos.toNat

/-- `raise OUT` here. -/
def outOfBits {α : Type} : Parser α := fun consumed => .error (.out consumed)

/-- `raise CORRUPT` here. -/
def corrupt {α : Type} : Parser α := fun _ => .error .corrupt

/-- `GetBit()` (R90), on the memory as it stands (R89). -/
def getBit (s : State) : Parser Bool := fun consumed =>
  let p := s.srcPos.toNat + consumed
  if s.srcSize.toNat ≤ p then .error (.out consumed)
  else if s.plat.admits (s.srcBase.toNat + p / 8) then
    .ok ((s.mem.read (s.srcBase.toNat + p / 8)).getLsbD (p % 8), consumed + 1)
  else .error .bus

/-- `GetBitsMSB(n)` (R91), from the value `v` of the bits already taken. -/
def getBitsMSBFrom (s : State) : Nat → Nat → Parser Nat
  | 0, v => pure v
  | n + 1, v => do
    let b ← getBit s
    getBitsMSBFrom s n (2 * v + b.toNat)

/-- `GetBitsMSB(n)` (R91): the first bit is the most significant. -/
def getBitsMSB (s : State) (n : Nat) : Parser Nat := getBitsMSBFrom s n 0

/-- `GetBitsLSB(n)` (R91): the first bit is bit 0. -/
def getBitsLSB (s : State) : Nat → Parser Nat
  | 0 => pure 0
  | n + 1 => do
    let b ← getBit s
    let v ← getBitsLSB s n
    pure (b.toNat + 2 * v)

/-- `n` bits in stream order (R322). -/
def getBools (s : State) : Nat → Parser Bits
  | 0 => pure []
  | n + 1 => do
    let b ← getBit s
    let rest ← getBools s n
    pure (b :: rest)

/-- The source's bits bound every parser's loop (R412): one more step than there are bits always meets the end. -/
def State.bitBudget (s : State) : Nat := s.srcSize.toNat + 1

/-- Advances SRC_POS by the bits a command took (R90, R183). -/
def State.advanceSource (s : State) (n : Nat) : State := { s with srcPos := s.srcPos + BitVec.ofNat 64 n }

end Sys2Proof.Machine
end

