-- ==== Sys2Proof/Machine/Operands.lean ====
section
/-! DEFINITION. The operand forms (30_encoding.md R112, R113): the words in ARG0 and ARG1, the signed modifier
(42_codec_common.md R185, R186), and the parameter ranges (R117). -/
namespace Sys2Proof.Machine

/-- `Zz(v)` (R22, R186). -/
def zz (v : Word) : Word := (v <<< 1) ^^^ (if v.msb then BitVec.allOnes 64 else 0)

/-- `Unzz(u)` (R22, R186). -/
def unzz (u : Word) : Word := (u >>> 1) ^^^ (if u.getLsbD 0 then BitVec.allOnes 64 else 0)

/-- The number an encode encodes: ARG0, or Zz(ARG0) with S = 1 (R180, R185). -/
def encodeOperand (sgn : Bool) (s : State) : Nat := (if sgn then zz s.arg0 else s.arg0).toNat

/-- The word a decode returns: u, or Unzz(u) with S = 1 (R181, R186). -/
def decodeResult (sgn : Bool) (u : Nat) : Word :=
  if sgn then unzz (BitVec.ofNat 64 u) else BitVec.ofNat 64 u

/-- A parameter check that never fails: the codecs without a parameter (R180). -/
def noParam : Bool := true

/-- Rice K and Exp-Golomb Order are in 0..63 (R117, R260, R267). -/
def shiftParam (k : Nat) : Bool := decide (k ≤ 63)

/-- FixedWidth N is in 1..64 (R117, R269). -/
def widthParam (n : Nat) : Bool := decide (1 ≤ n ∧ n ≤ 64)

/-- Golomb M is not 0 (R263). -/
def modulusParam (m : Nat) : Bool := decide (m ≠ 0)

/-- R140, R147: a buffer of `bits` bits at `base` does not reach past byte address 2^64−1. -/
def regionFits (base bits : Word) : Bool := decide (base.toNat + ceilDiv bits.toNat 8 ≤ 2 ^ 64)

end Sys2Proof.Machine
end

