-- ==== Sys2Proof/Machine/Codewords.lean ====
section
/-! DEFINITION. The codewords C_X(u) of the ten codecs (43_codec_universal.md, 44_codec_parametric.md), each with its domain and its
length, which an encode computes before it writes anything (42_codec_common.md R184). -/
namespace Sys2Proof.Machine

/-- A codec's encode side (42_codec_common.md): the domain, the codeword's length and the codeword. -/
structure Codec where
  dom : Nat → Bool
  len : Nat → Nat
  word : Nat → Bits

/-- Every 64-bit word is in the domain. -/
def anyValue (_ : Nat) : Bool := true

/-- 1 ≤ u (R212, R214, R216). -/
def positive (u : Nat) : Bool := decide (1 ≤ u)

/-- `γ(m)` (R189), m ≥ 1: bitlen(m)−1 zeros, then m, most significant bit first. -/
def gamma (m : Nat) : Bits := zeros (bitlen m - 1) ++ msb m (bitlen m)

/-- |γ(m)| = 2·bitlen(m) − 1 (R189). -/
def gammaLen (m : Nat) : Nat := 2 * bitlen m - 1

/-- R210: ones(u) ++ [0]. -/
def unaryCodec : Codec :=
  { dom := anyValue, len := fun u => u + 1, word := fun u => ones u ++ [false] }

/-- R212: γ(u). -/
def gammaCodec : Codec := { dom := positive, len := gammaLen, word := gamma }

/-- R214: γ(L+1) ++ msb(u mod 2^L, L), with L = bitlen(u) − 1. -/
def deltaCodec : Codec :=
  { dom := positive
    len := fun u => gammaLen (bitlen u) + (bitlen u - 1)
    word := fun u => gamma (bitlen u) ++ msb (u % 2 ^ (bitlen u - 1)) (bitlen u - 1) }

/-- The loop of C_Omega (R216): while n > 1, put n's binary form in front and go on with bitlen(n) − 1. The first argument bounds the
loop, which is over well before it is. -/
def omegaLoop : Nat → Nat → Bits → Bits
  | 0, _, s => s
  | bound + 1, n, s => if 1 < n then omegaLoop bound (bitlen n - 1) (msb n (bitlen n) ++ s) else s

/-- C_Omega(u) (R216). -/
def omegaWord (u : Nat) : Bits := omegaLoop u u [false]

/-- R216. -/
def omegaCodec : Codec := { dom := positive, len := fun u => (omegaWord u).length, word := omegaWord }

/-- `(f_i, f_(i+1))` of R218, from f_0 = f_1 = 1. -/
def fibPair : Nat → Nat × Nat
  | 0 => (1, 1)
  | i + 1 => ((fibPair i).2, (fibPair i).1 + (fibPair i).2)

/-- The weight f_i (R218): f_1 = 1, f_2 = 2, f_i = f_(i−1) + f_(i−2). -/
def fib (i : Nat) : Nat := (fibPair i).1

/-- The greatest i from `bound` down to 1 with f_i ≤ m, and 0 if there is none (R219). -/
def fibTop (m : Nat) : Nat → Nat
  | 0 => 0
  | i + 1 => if fib (i + 1) ≤ m then i + 1 else fibTop m i

/-- The digits [d_1, …, d_t] of `rem` (R219), found from d_t down. -/
def fibDigits : Nat → Nat → Bits
  | 0, _ => []
  | i + 1, rem =>
    if fib (i + 1) ≤ rem then fibDigits i (rem - fib (i + 1)) ++ [true] else fibDigits i rem ++ [false]

/-- C_Fib(u) (R219): the digits of u + 1, lowest weight first, then one 1. f_92 is the largest weight used (R218). -/
def fibWord (u : Nat) : Bits := fibDigits (fibTop (u + 1) 92) (u + 1) ++ [true]

/-- R219. -/
def fibCodec : Codec := { dom := anyValue, len := fun u => fibTop (u + 1) 92 + 1, word := fibWord }

/-- R260: ones(u >> K) ++ [0] ++ msb(u mod 2^K, K). -/
def riceCodec (k : Nat) : Codec :=
  { dom := anyValue
    len := fun u => u / 2 ^ k + 1 + k
    word := fun u => ones (u / 2 ^ k) ++ [false] ++ msb (u % 2 ^ k) k }

/-- b = bitlen(M − 1) (R262). -/
def tbWidth (m : Nat) : Nat := bitlen (m - 1)

/-- c = 2^b − M (R262). -/
def tbCut (m : Nat) : Nat := 2 ^ tbWidth m - m

/-- TB_M(r) (R262). -/
def tbWord (m r : Nat) : Bits :=
  if r < tbCut m then msb r (tbWidth m - 1) else msb (r + tbCut m) (tbWidth m)

/-- |TB_M(r)| (R262). -/
def tbLen (m r : Nat) : Nat := if r < tbCut m then tbWidth m - 1 else tbWidth m

/-- R263: ones(u div M) ++ [0] ++ TB_M(u mod M). -/
def golombCodec (m : Nat) : Codec :=
  { dom := anyValue
    len := fun u => u / m + 1 + tbLen m (u % m)
    word := fun u => ones (u / m) ++ [false] ++ tbWord m (u % m) }

/-- k = max(1, ⌈bitlen(u) / 7⌉), the bytes of a VByte codeword (R265). -/
def vbyteCount (u : Nat) : Nat := max 1 (ceilDiv (bitlen u) 7)

/-- Byte j of the k bytes of VByte(u): seven value bits, and the continuation flag but in the last (R265). -/
def vbyteByte (u k j : Nat) : Nat := u / 2 ^ (7 * j) % 128 + (if j < k - 1 then 128 else 0)

/-- C_VByte(u) (R265): the lowest seven bits go first, each byte least significant bit first. -/
def vbyteWord (u : Nat) : Bits :=
  (List.range (vbyteCount u)).flatMap fun j => lsb (vbyteByte u (vbyteCount u) j) 8

/-- R265. -/
def vbyteCodec : Codec := { dom := anyValue, len := fun u => 8 * vbyteCount u, word := vbyteWord }

/-- R267: γ((u >> k) + 1) ++ msb(u mod 2^k, k). -/
def expGolombCodec (k : Nat) : Codec :=
  { dom := anyValue
    len := fun u => gammaLen (u / 2 ^ k + 1) + k
    word := fun u => gamma (u / 2 ^ k + 1) ++ msb (u % 2 ^ k) k }

/-- R269: lsb(u, N), with u < 2^N. -/
def fixedCodec (n : Nat) : Codec :=
  { dom := fun u => decide (u < 2 ^ n), len := fun _ => n, word := fun u => lsb u n }

end Sys2Proof.Machine
end

