-- ==== Sys2Proof/Machine/Parsers.lean ====
section
/-! DEFINITION. The parsers Parse_X of the ten codecs (42_codec_common.md R188, R190; 43_codec_universal.md; 44_codec_parametric.md). -/
namespace Sys2Proof.Machine

/-- The loop of UnaryParse (R188) after `q` 1-bits; the first argument bounds it. -/
def unaryLoop (s : State) : Nat → Nat → Parser Nat
  | 0, _ => outOfBits
  | bound + 1, q => do
    let b ← getBit s
    if b then unaryLoop s bound (q + 1) else pure q

/-- `UnaryParse()` (R188). -/
def unaryParse (s : State) : Parser Nat := unaryLoop s s.bitBudget 0

/-- The zeros of GammaParse (R190): `L` read, `room` more allowed. One zero too many is CORRUPT at once. -/
def gammaZeros (s : State) : Nat → Nat → Parser Nat
  | 0, L => do
    let b ← getBit s
    if b then pure L else corrupt
  | room + 1, L => do
    let b ← getBit s
    if b then pure L else gammaZeros s room (L + 1)

/-- `GammaParse(Lmax)` (R190). -/
def gammaParse (lmax : Nat) (s : State) : Parser Nat := do
  let L ← gammaZeros s lmax 0
  let r ← getBitsMSB s L
  pure (2 ^ L + r)

/-- `Parse_Delta()` (R215). -/
def deltaParse (s : State) : Parser Nat := do
  let m ← gammaParse 63 s
  if 63 < m - 1 then corrupt
  else do
    let r ← getBitsMSB s (m - 1)
    pure (2 ^ (m - 1) + r)

/-- The loop of Parse_Omega (R217); the first argument bounds it. -/
def omegaParseLoop (s : State) : Nat → Nat → Parser Nat
  | 0, _ => outOfBits
  | bound + 1, acc => do
    let b ← getBit s
    if !b then pure acc
    else if 63 < acc then corrupt
    else do
      let r ← getBitsMSB s acc
      omegaParseLoop s bound (2 ^ acc + r)

/-- `Parse_Omega()` (R217). -/
def omegaParse (s : State) : Parser Nat := omegaParseLoop s s.bitBudget 1

/-- After the terminator of Parse_Fib (R220): the digit sum m gives m − 1. -/
def fibValue (m : Nat) : Parser Nat := if 2 ^ 64 < m then corrupt else pure (m - 1)

/-- The loop of Parse_Fib (R220): the next bit is bit `i`, and `room` more digits are allowed. -/
def fibLoop (s : State) : Nat → Nat → Nat → Bool → Parser Nat
  | 0, _, m, prev => do
    let b ← getBit s
    if b && prev then fibValue m else corrupt
  | room + 1, i, m, prev => do
    let b ← getBit s
    if b && prev then fibValue m
    else fibLoop s room (i + 1) (if b then m + fib i else m) b

/-- `Parse_Fib()` (R220): at most 92 digits, so the 93rd bit terminates or is CORRUPT. -/
def fibParse (s : State) : Parser Nat := fibLoop s 92 1 0 false

/-- `Parse_Rice(K)` (R261). -/
def riceParse (k : Nat) (s : State) : Parser Nat := do
  let q ← unaryParse s
  if (2 ^ 64 - 1) / 2 ^ k < q then corrupt
  else do
    let r ← getBitsMSB s k
    pure (q * 2 ^ k + r)

/-- `TBParse_M()` (R262). -/
def tbParse (m : Nat) (s : State) : Parser Nat :=
  if tbWidth m = 0 then pure 0
  else do
    let x ← getBitsMSB s (tbWidth m - 1)
    if x < tbCut m then pure x
    else do
      let y ← getBit s
      pure (2 * x + y.toNat - tbCut m)

/-- `Parse_Golomb(M)` (R264). -/
def golombParse (m : Nat) (s : State) : Parser Nat := do
  let q ← unaryParse s
  if (2 ^ 64 - 1) / m < q then corrupt
  else do
    let r ← tbParse m s
    if 2 ^ 64 - 1 < q * m + r then corrupt else pure (q * m + r)

/-- The loop of Parse_VByte (R266) at byte `j`, with `left` bytes still allowed after it: the last one holds only bit 63. -/
def vbyteLoop (s : State) : Nat → Nat → Nat → Parser Nat
  | 0, j, v => do
    let B ← getBitsLSB s 8
    if 128 ≤ B ∨ 1 < B % 128 then corrupt else pure (v + B % 128 * 2 ^ (7 * j))
  | left + 1, j, v => do
    let B ← getBitsLSB s 8
    if B < 128 then pure (v + B % 128 * 2 ^ (7 * j))
    else vbyteLoop s left (j + 1) (v + B % 128 * 2 ^ (7 * j))

/-- `Parse_VByte()` (R266): bytes 0 to 9. -/
def vbyteParse (s : State) : Parser Nat := vbyteLoop s 9 0 0

/-- `Parse_ExpG(k)` (R268). -/
def expGolombParse (k : Nat) (s : State) : Parser Nat := do
  let m ← gammaParse 64 s
  if (2 ^ 64 - 1) / 2 ^ k < m - 1 then corrupt
  else do
    let r ← getBitsMSB s k
    pure ((m - 1) * 2 ^ k + r)

/-- `Parse_Fixed(N)` (R270). -/
def fixedParse (n : Nat) (s : State) : Parser Nat := getBitsLSB s n

end Sys2Proof.Machine
end

