-- ==== Sys2Proof/Machine/Codec.lean ====
section
/-! DEFINITION. The two command templates every codec runs (42_codec_common.md R180, R181). -/
namespace Sys2Proof.Machine

/-- The encode template (R180), checks in the order of R187. -/
def encodeWith (paramOk : Bool) (codec : Codec) (sgn : Bool) (s : State) : State :=
  if !paramOk then raise .invalidParameter s
  else if !codec.dom (encodeOperand sgn s) then raise .invalidInput s
  else if s.sinkRoom < codec.len (encodeOperand sgn s) then raise .bufferOverflow s
  else putBits .encode (codec.word (encodeOperand sgn s)) s

/-- |C_X(u)|, the bits an encode appends when its operand is in range (R180), and 0 when it is not. -/
def codewordLength (paramOk : Bool) (codec : Codec) (sgn : Bool) (s : State) : Nat :=
  if paramOk && codec.dom (encodeOperand sgn s) then codec.len (encodeOperand sgn s) else 0

/-- The decode template (R181): SRC_POS and RESULT change only on success (R183). -/
def decodeWith (paramOk : Bool) (parse : State → Parser Nat) (sgn : Bool) (s : State) : State :=
  if !paramOk then raise .invalidParameter s
  else
    match parse s 0 with
    | .ok (u, consumed) => returnValue (decodeResult sgn u) (s.advanceSource consumed)
    | .error e => raise e.errCode s

end Sys2Proof.Machine
end

