-- ==== Sys2Proof/Machine/Vector.lean ====
section
/-! DEFINITION. The shared operations of the succinct bit vector (45_succinct.md §1, R317 to R323). -/
namespace Sys2Proof.Machine

/-- S(n), the number of superblocks (R310). -/
def superCount (n : Nat) : Nat := ceilDiv n 65536

/-- B(n), the number of blocks (R310). -/
def blockCount (n : Nat) : Nat := ceilDiv n 512

/-- `PC(a, b)` (R310): the 1-bits in cells a to b−1, and 0 when a ≥ b. -/
def pc (bits : Bits) (a b : Nat) : Nat := popcount ((bits.take b).drop a)

/-- The superblock counts SV_BUILD stores (R317). -/
def buildSuper (n : Nat) (bits : Bits) : List (BitVec 32) :=
  (List.range (superCount n)).map fun s => BitVec.ofNat 32 (pc bits 0 (65536 * s))

/-- The block counts SV_BUILD stores (R317). -/
def buildBlock (n : Nat) (bits : Bits) : List (BitVec 16) :=
  (List.range (blockCount n)).map fun j => BitVec.ofNat 16 (pc bits (65536 * (j / 128)) (512 * j))

/-- The stored counts at a position plus the scan of its block up to `upto`: what SV_RANK (R318) and TotalIdx (R323) share. -/
def indexedCount (sb : List (BitVec 32)) (bk : List (BitVec 16)) (bits : Bits) (pos upto : Nat) : Nat :=
  (sb.getD (pos / 65536) 0).toNat + (bk.getD (pos / 512) 0).toNat + pc bits (512 * (pos / 512)) upto

/-- The RESULT of SV_RANK on an Indexed vector (R318). -/
def rankOf (s : State) (pos : Nat) : Word :=
  if pos = 0 then 0
  else if s.svLen.toNat ≤ pos then s.svTotal
  else BitVec.ofNat 64 (indexedCount s.sb s.bk s.svBits pos pos)

/-- `TotalIdx()` (R323). -/
def totalIdx (n : Nat) (sb : List (BitVec 32)) (bk : List (BitVec 16)) (bits : Bits) : Nat :=
  if n = 0 then 0 else indexedCount sb bk bits (n - 1) n

/-- R59: the index is consistent when SB, BK and SV_TOTAL are what SV_BUILD would store for the current bits and n. -/
def consistent (s : State) : Bool :=
  s.sb == buildSuper s.svLen.toNat s.svBits && s.bk == buildBlock s.svLen.toNat s.svBits
    && s.svTotal.toNat == pc s.svBits 0 s.svLen.toNat

/-- The position of the k-th 1-bit, 0-indexed (R319). -/
def nthOne : Bits → Nat → Nat
  | [], _ => 0
  | true :: _, 0 => 0
  | true :: rest, k + 1 => nthOne rest k + 1
  | false :: rest, k => nthOne rest k + 1

/-- `Wire(c)` (R320). -/
def wire (c : Nat) (s : State) : Bits :=
  let count := vbyteWord s.svLen.toNat
  count ++ s.svBits ++ zeros (padTo8 (c + count.length + s.svLen.toNat))
    ++ s.sb.flatMap (fun x => lsb x.toNat 32) ++ s.bk.flatMap (fun x => lsb x.toNat 16)

/-- A vector as SV_DECODE reads it (R322), before it is committed. -/
structure WireVector where
  len : Nat
  bits : Bits
  super : List (BitVec 32)
  block : List (BitVec 16)
  deriving DecidableEq, Repr

/-- `n` fixed-width counts, each least significant bit first (R320, R322). -/
def getFields (w : Nat) (s : State) : Nat → Parser (List (BitVec w))
  | 0 => pure []
  | n + 1 => do
    let v ← getBitsLSB s w
    let rest ← getFields w s n
    pure (BitVec.ofNat w v :: rest)

/-- The pad of R322: skipped up to the next stream byte boundary, not read and not checked. -/
def skipPad (s : State) : Parser Unit := fun consumed =>
  let pad := padTo8 (s.srcPos.toNat + consumed)
  if s.srcSize.toNat - (s.srcPos.toNat + consumed) < pad then .error (.out consumed) else .ok ((), consumed + pad)

/-- The reading half of SV_DECODE (R322). -/
def wireParse (s : State) : Parser WireVector := do
  let n ← vbyteParse s
  if s.plat.vmax < n then corrupt
  else do
    let bits ← getBools s n
    let _ ← skipPad s
    let super ← getFields 32 s (superCount n)
    let block ← getFields 16 s (blockCount n)
    pure { len := n, bits := bits, super := super, block := block }

/-- The committing half of SV_DECODE (R322). -/
def State.commitVector (s : State) (v : WireVector) : State :=
  { s with
    svLen := BitVec.ofNat 64 v.len, svBits := v.bits, sb := v.super, bk := v.block
    svTotal := BitVec.ofNat 64 (totalIdx v.len v.super v.block v.bits), index := .indexed }

/-- SV_SET, SV_RESET and SV_FLIP share this (R313, R314, R315): cell i takes a value and the index goes stale. -/
def State.writeCell (s : State) (i : Nat) (b : Bool) : State :=
  { s with svBits := s.svBits.set i b, index := .unindexed }

end Sys2Proof.Machine
end

