-- ==== Sys2Proof/Machine/Race.lean ====
section
/-! DEFINITION. Races between the host's memory accesses and a command in flight (20_memory.md R99, 70_reset_and_hazards.md R408;
93_implementation_defined.md U5, U6). What counts as a race and what it leaves free is DEDUCED: notes/assumptions/7.md. -/
namespace Sys2Proof.Machine

/-- The commands that write platform memory: sink writes (R80). -/
def writesSink : Instr → Bool
  | .writeBit | .writeBits | .align => true
  | .encUnary _ | .encGamma _ | .encDelta _ | .encOmega _ | .encFib _ => true
  | .encRice _ _ | .encGolomb _ | .encVByte _ | .encExpG _ _ | .encFixed _ _ => true
  | .svEncode => true
  | .sinkInit | .hasSpace | .bitsWritten | .bytesWritten => false
  | .srcInit | .readBit | .readBits | .atEnd | .remaining | .skipBits | .srcReset | .srcAlign => false
  | .decUnary _ | .decGamma _ | .decDelta _ | .decOmega _ | .decFib _ => false
  | .decRice _ _ | .decGolomb _ | .decVByte _ | .decExpG _ _ | .decFixed _ _ => false
  | .svInit | .svSet | .svReset | .svFlip | .svGet | .svBuild | .svRank | .svSelect | .svDecode => false

/-- Which writer of the sink a command is; a command that writes none of it stores no byte either way. -/
def sinkWriter : Instr → SinkWriter
  | .writeBit | .writeBits | .align => .stream
  | .encUnary _ | .encGamma _ | .encDelta _ | .encOmega _ | .encFib _ => .encode
  | .encRice _ _ | .encGolomb _ | .encVByte _ | .encExpG _ _ | .encFixed _ _ => .encode
  | .svEncode => .encode
  | .sinkInit | .hasSpace | .bitsWritten | .bytesWritten => .stream
  | .srcInit | .readBit | .readBits | .atEnd | .remaining | .skipBits | .srcReset | .srcAlign => .stream
  | .decUnary _ | .decGamma _ | .decDelta _ | .decOmega _ | .decFib _ => .stream
  | .decRice _ _ | .decGolomb _ | .decVByte _ | .decExpG _ _ | .decFixed _ _ => .stream
  | .svInit | .svSet | .svReset | .svFlip | .svGet | .svBuild | .svRank | .svSelect | .svDecode => .stream

/-- The bits a command would append to an endless sink: 0 when a check before the length check ends it (R180, R141, R142, R321). -/
def wantedLength (i : Instr) (s : State) : Nat :=
  match i with
  | .writeBit => if s.arg0.toNat ≤ 1 then 1 else 0
  | .writeBits => if s.arg1.toNat ≤ 64 then s.arg1.toNat else 0
  | .align => padTo8 s.sinkCursor.toNat
  | .encUnary sgn => codewordLength noParam unaryCodec sgn s
  | .encGamma sgn => codewordLength noParam gammaCodec sgn s
  | .encDelta sgn => codewordLength noParam deltaCodec sgn s
  | .encOmega sgn => codewordLength noParam omegaCodec sgn s
  | .encFib sgn => codewordLength noParam fibCodec sgn s
  | .encRice k sgn => codewordLength (shiftParam k) (riceCodec k) sgn s
  | .encGolomb sgn => codewordLength (modulusParam s.arg1.toNat) (golombCodec s.arg1.toNat) sgn s
  | .encVByte sgn => codewordLength noParam vbyteCodec sgn s
  | .encExpG k sgn => codewordLength (shiftParam k) (expGolombCodec k) sgn s
  | .encFixed n sgn => codewordLength (widthParam n) (fixedCodec n) sgn s
  | .svEncode => if s.index = .indexed then (wire s.sinkCursor.toNat s).length else 0
  | .sinkInit | .hasSpace | .bitsWritten | .bytesWritten => 0
  | .srcInit | .readBit | .readBits | .atEnd | .remaining | .skipBits | .srcReset | .srcAlign => 0
  | .decUnary _ | .decGamma _ | .decDelta _ | .decOmega _ | .decFib _ => 0
  | .decRice _ _ | .decGolomb _ | .decVByte _ | .decExpG _ _ | .decFixed _ _ => 0
  | .svInit | .svSet | .svReset | .svFlip | .svGet | .svBuild | .svRank | .svSelect | .svDecode => 0

/-- The bits a command appends to the sink. No command that writes the sink reads memory, so this is known before it runs. -/
def sinkLength (i : Instr) (s : State) : Nat :=
  if wantedLength i s ≤ s.sinkRoom then wantedLength i s else 0

/-- The command stores this byte of memory, or may have when it ends with BUS_ERROR (R87, R99). -/
def State.stores (s : State) (i : Instr) (addr : Nat) : Bool := s.storesByte (sinkWriter i) (sinkLength i s) addr

/-- The commands that read platform memory and return a value (R80, R113). -/
def readsValue : Instr → Bool
  | .readBit | .readBits => true
  | .decUnary _ | .decGamma _ | .decDelta _ | .decOmega _ | .decFib _ => true
  | .decRice _ _ | .decGolomb _ | .decVByte _ | .decExpG _ _ | .decFixed _ _ => true
  | .sinkInit | .writeBit | .writeBits | .align | .hasSpace | .bitsWritten | .bytesWritten => false
  | .srcInit | .atEnd | .remaining | .skipBits | .srcReset | .srcAlign => false
  | .encUnary _ | .encGamma _ | .encDelta _ | .encOmega _ | .encFib _ => false
  | .encRice _ _ | .encGolomb _ | .encVByte _ | .encExpG _ _ | .encFixed _ _ => false
  | .svInit | .svSet | .svReset | .svFlip | .svGet | .svBuild | .svRank | .svSelect | .svEncode | .svDecode => false

/-- The commands that read platform memory: source reads (R80). -/
def readsSource (i : Instr) : Bool := readsValue i || i == .svDecode

/-- The command in flight, if it is one that will run (R367): busy, no fault, a legal word. -/
def State.inFlight (s : State) : Option Instr :=
  if s.busy && !s.fault then (decode s.cmd).toOption else none

/-- An address inside the buffer of `bits` bits at `base`. -/
def inBuffer (base bits : Word) (addr : Nat) : Bool :=
  decide (base.toNat ≤ addr ∧ addr < base.toNat + ceilDiv bits.toNat 8)

/-- A host write here races with the command in flight (R408): a sink byte of a command that writes the sink, or a source byte of a
command that reads the source. -/
def State.writeRaces (s : State) (addr : Nat) : Bool :=
  match s.inFlight with
  | some i => (writesSink i && inBuffer s.sinkBase s.sinkCap addr) || (readsSource i && inBuffer s.srcBase s.srcSize addr)
  | none => false

/-- A host read here races with the command in flight (R99, R408): a byte that command writes. -/
def State.readRaces (s : State) (addr : Nat) : Bool :=
  match s.inFlight with
  | some i => s.stores i addr
  | none => false

/-- Ends a raced command with a free code (U6); the effects R364 computes from the code follow the code drawn. -/
def raceEnd (s : State) : State :=
  raise (ErrCode.ofFin (Config.freeCode s.draws)) { s with raced := false, draws := s.draws + 1 }

/-- The free effects of a raced sink write of `len` bits (U6): each byte it stores, the cursor within R49's bound, and PEND within R50's
mask. A write of no bits writes none of them. -/
def raceSink (w : SinkWriter) (len : Nat) (s : State) : State :=
  if len = 0 then s
  else
    let c := s.sinkCursor.toNat + Config.freeAdvance s.draws % (s.sinkRoom + 1)
    { s with
      mem := s.scrambleSink w len
      sinkCursor := BitVec.ofNat 64 c
      pend := BitVec.ofNat 8 ((Config.freePend s.draws).toNat % 2 ^ (c % 8)) }

/-- The free source position of a raced source read (U6), within R53's bound. -/
def raceSource (s : State) : State :=
  s.advanceSource (Config.freeAdvance s.draws % (s.srcLeft + 1))

/-- The free vector a raced SV_DECODE leaves (U6), within R54's bound on its length. -/
def raceVector (s : State) : State :=
  let n := Config.freeLength s.draws % (s.plat.vmax + 1)
  { s with
    svLen := BitVec.ofNat 64 n
    svBits := (List.range n).map (Config.freeCell s.draws)
    sb := (List.range (superCount n)).map (Config.freeSuper s.draws)
    bk := (List.range (blockCount n)).map (Config.freeBlock s.draws)
    svTotal := Config.freeTotal s.draws
    index := if Config.freeIndexed s.draws then .indexed else .unindexed }

/-- How a raced command ends (R99, U6): its RESULT, its ERR and every byte and register it writes are free. -/
def raceOutcome (i : Instr) (s : State) : State :=
  let s₁ := raceSink (sinkWriter i) (sinkLength i s) s
  let s₂ := if readsSource i then raceSource s₁ else s₁
  let s₃ := if readsValue i then { s₂ with result := Config.freeWord s.draws } else s₂
  raceEnd (if i = .svDecode then raceVector s₃ else s₃)

end Sys2Proof.Machine
end

