-- ==== Sys2Proof/Machine/Bus.lean ====
section
/-! DEFINITION. The host's bus accesses: the register block (10_state.md R30 to R34, R40, R43 to R45) and platform memory (20_memory.md
R98, R99). -/
namespace Sys2Proof.Machine

/-- What a host read of the register at an offset of the block returns (R30, R31): CTRL and the reserved offsets read 0. -/
def State.readReg (s : State) (off : Nat) : Word :=
  match off with
  | 0x00 => s.caps
  | 0x10 => s.status
  | 0x18 => s.cmd
  | 0x20 => s.arg0
  | 0x28 => s.arg1
  | 0x30 => s.result
  | 0x40 => s.sinkBase
  | 0x48 => s.sinkCap
  | 0x50 => s.sinkCursor
  | 0x60 => s.srcBase
  | 0x68 => s.srcSize
  | 0x70 => s.srcPos
  | 0x80 => s.svLen
  | 0x88 => s.svTotal
  | _ => 0

/-- R40: the write is dropped and PROTO is set. -/
def State.dropWrite (s : State) : State := { s with proto := true }

/-- A host write of a word to the register at an offset of the block (R31, R34, R40, R43, R44, R45): a write to a read-only register
or a reserved offset is ignored. A CTRL write while BUSY = 1 sets PROTO whatever its bit 0 (DEDUCED, unsafe: notes/assumptions/6.md). -/
def State.writeReg (s : State) (off : Nat) (v : Word) : State :=
  match off with
  | 0x08 => if s.busy then s.dropWrite else if v.getLsbD 0 then s.engineReset else s
  | 0x18 => if s.busy then s.dropWrite else s.accept v
  | 0x20 => if s.busy then s.dropWrite else { s with arg0 := v }
  | 0x28 => if s.busy then s.dropWrite else { s with arg1 := v }
  | _ => s

/-- An access of `n` bytes at `addr` meets the 256-byte register block (R30). One of no bytes meets it where its address lies in the
block, at MMIO_BASE too (the model's choice: DEDUCED, notes/assumptions/11.md). -/
def touchesBlock (p : Platform) (addr n : Nat) : Bool :=
  decide (p.mmioBase < addr + max n 1 ∧ addr < p.mmioBase + 256)

/-- R31: the only defined register accesses are naturally aligned and eight bytes wide. -/
def wholeRegister (addr n : Nat) : Bool := decide (n = 8 ∧ addr % 8 = 0)

/-- One byte of a host read of platform memory: free where it races (R99, U5). -/
def State.hostByte (s : State) (addr : Nat) : Byte :=
  if s.readRaces addr then Config.freeByte s.draws addr else s.mem.read addr

/-- A host read (R31, R32, R99). A register read has no side effect on any register (R31). -/
def hostRead (addr n : Nat) (s : State) : Host.Outcome State Fault Refusal :=
  if touchesBlock s.plat addr n then
    if wholeRegister addr n then .next { s with hostData := lanes (s.readReg (addr - s.plat.mmioBase)) }
    else .refused .registerAccess
  else if 2 ^ 64 < addr + n then .fault .addressSpace
  else .next { s with hostData := (List.range n).map fun i => s.hostByte (addr + i), draws := s.draws + 1 }

/-- Some byte of a host write to platform memory races with the command in flight. -/
def State.anyRace (s : State) (addr n : Nat) : Bool := (List.range n).any fun i => s.writeRaces (addr + i)

/-- A host write (R31, R32, R99). -/
def hostWrite (addr : Nat) (bytes : List Byte) (s : State) : Host.Outcome State Fault Refusal :=
  if touchesBlock s.plat addr bytes.length then
    if wholeRegister addr bytes.length then .next (s.writeReg (addr - s.plat.mmioBase) (BitVec.ofNat 64 (ofLanes bytes)))
    else .refused .registerAccess
  else if 2 ^ 64 < addr + bytes.length then .fault .addressSpace
  else .next { s with mem := s.mem.writeBytes addr bytes, raced := s.raced || s.anyRace addr bytes.length }

end Sys2Proof.Machine
end

