-- ==== Sys2Proof/Machine/Parametric.lean ====
section
/-! DEFINITION. The parametric and byte codecs' commands (44_codec_parametric.md): each is its template (R180, R181) over its
parameter check, codeword or parser. -/
namespace Sys2Proof.Machine

/-- ENC_RICE #K (R260). -/
def execEncRice (k : Nat) (sgn : Bool) (s : State) : Host.Outcome State Fault Refusal :=
  .next (encodeWith (shiftParam k) (riceCodec k) sgn s)

/-- DEC_RICE #K (R261). -/
def execDecRice (k : Nat) (sgn : Bool) (s : State) : Host.Outcome State Fault Refusal :=
  .next (decodeWith (shiftParam k) (riceParse k) sgn s)

/-- ENC_GOLOMB (R263): M is ARG1. -/
def execEncGolomb (sgn : Bool) (s : State) : Host.Outcome State Fault Refusal :=
  .next (encodeWith (modulusParam s.arg1.toNat) (golombCodec s.arg1.toNat) sgn s)

/-- DEC_GOLOMB (R264): M is ARG1. -/
def execDecGolomb (sgn : Bool) (s : State) : Host.Outcome State Fault Refusal :=
  .next (decodeWith (modulusParam s.arg1.toNat) (golombParse s.arg1.toNat) sgn s)

/-- ENC_VBYTE (R265). -/
def execEncVByte (sgn : Bool) (s : State) : Host.Outcome State Fault Refusal :=
  .next (encodeWith noParam vbyteCodec sgn s)

/-- DEC_VBYTE (R266). -/
def execDecVByte (sgn : Bool) (s : State) : Host.Outcome State Fault Refusal :=
  .next (decodeWith noParam vbyteParse sgn s)

/-- ENC_EXPG #k (R267). -/
def execEncExpG (order : Nat) (sgn : Bool) (s : State) : Host.Outcome State Fault Refusal :=
  .next (encodeWith (shiftParam order) (expGolombCodec order) sgn s)

/-- DEC_EXPG #k (R268). -/
def execDecExpG (order : Nat) (sgn : Bool) (s : State) : Host.Outcome State Fault Refusal :=
  .next (decodeWith (shiftParam order) (expGolombParse order) sgn s)

/-- ENC_FIXED #N (R269). -/
def execEncFixed (n : Nat) (sgn : Bool) (s : State) : Host.Outcome State Fault Refusal :=
  .next (encodeWith (widthParam n) (fixedCodec n) sgn s)

/-- DEC_FIXED #N (R270). -/
def execDecFixed (n : Nat) (sgn : Bool) (s : State) : Host.Outcome State Fault Refusal :=
  .next (decodeWith (widthParam n) (fixedParse n) sgn s)

end Sys2Proof.Machine
end

