-- ==== Sys2Proof/Machine/Stream.lean ====
section
/-! DEFINITION. The bit-stream commands (41_bitstream.md), BitSink then BitSource. -/
namespace Sys2Proof.Machine

/-- SINK_INIT (R140). -/
def execSinkInit (s : State) : Host.Outcome State Fault Refusal :=
  .next <|
    if !regionFits s.arg0 s.arg1 then raise .invalidParameter s
    else succeed { s with sinkBase := s.arg0, sinkCap := s.arg1, sinkCursor := 0, pend := 0 }

/-- WRITE_BIT (R141). -/
def execWriteBit (s : State) : Host.Outcome State Fault Refusal :=
  .next <|
    if 1 < s.arg0.toNat then raise .invalidParameter s
    else if s.sinkRoom < 1 then raise .bufferOverflow s
    else putBits .stream [s.arg0.toNat == 1] s

/-- WRITE_BITS (R142): the low n bits of ARG0, bit 0 first. -/
def execWriteBits (s : State) : Host.Outcome State Fault Refusal :=
  .next <|
    if 64 < s.arg1.toNat then raise .invalidParameter s
    else if s.sinkRoom < s.arg1.toNat then raise .bufferOverflow s
    else putBits .stream (lsb (s.arg0.toNat % 2 ^ s.arg1.toNat) s.arg1.toNat) s

/-- ALIGN (R143). -/
def execAlign (s : State) : Host.Outcome State Fault Refusal :=
  .next <|
    if s.sinkRoom < padTo8 s.sinkCursor.toNat then raise .bufferOverflow s
    else putBits .stream (zeros (padTo8 s.sinkCursor.toNat)) s

/-- HAS_SPACE (R144). -/
def execHasSpace (s : State) : Host.Outcome State Fault Refusal :=
  .next (returnValue (if s.arg0.toNat ≤ s.sinkRoom then 1 else 0) s)

/-- BITS_WRITTEN (R145). -/
def execBitsWritten (s : State) : Host.Outcome State Fault Refusal :=
  .next (returnValue s.sinkCursor s)

/-- BYTES_WRITTEN (R146). -/
def execBytesWritten (s : State) : Host.Outcome State Fault Refusal :=
  .next (returnValue (BitVec.ofNat 64 (ceilDiv s.sinkCursor.toNat 8)) s)

/-- SRC_INIT (R147). -/
def execSrcInit (s : State) : Host.Outcome State Fault Refusal :=
  .next <|
    if !regionFits s.arg0 s.arg1 then raise .invalidParameter s
    else succeed { s with srcBase := s.arg0, srcSize := s.arg1, srcPos := 0 }

/-- READ_BIT (R148). Its length check comes first, so running out is always BUFFER_UNDERFLOW. -/
def execReadBit (s : State) : Host.Outcome State Fault Refusal :=
  .next <|
    if s.srcLeft < 1 then raise .bufferUnderflow s
    else
      match getBit s 0 with
      | .ok (b, _) => returnValue (if b then 1 else 0) (s.advanceSource 1)
      | .error e => raise e.errCode s

/-- READ_BITS (R149): the first bit read is bit 0. -/
def execReadBits (s : State) : Host.Outcome State Fault Refusal :=
  .next <|
    if 64 < s.arg0.toNat then raise .invalidParameter s
    else if s.srcLeft < s.arg0.toNat then raise .bufferUnderflow s
    else
      match getBitsLSB s s.arg0.toNat 0 with
      | .ok (v, _) => returnValue (BitVec.ofNat 64 v) (s.advanceSource s.arg0.toNat)
      | .error e => raise e.errCode s

/-- AT_END (R150). -/
def execAtEnd (s : State) : Host.Outcome State Fault Refusal :=
  .next (returnValue (if s.srcPos = s.srcSize then 1 else 0) s)

/-- REMAINING (R151). -/
def execRemaining (s : State) : Host.Outcome State Fault Refusal :=
  .next (returnValue (BitVec.ofNat 64 s.srcLeft) s)

/-- SKIP_BITS (R152): it reads no memory. -/
def execSkipBits (s : State) : Host.Outcome State Fault Refusal :=
  .next <|
    if s.srcLeft < s.arg0.toNat then raise .bufferUnderflow s
    else succeed (s.advanceSource s.arg0.toNat)

/-- SRC_RESET (R153). -/
def execSrcReset (s : State) : Host.Outcome State Fault Refusal :=
  .next (succeed { s with srcPos := 0 })

/-- SRC_ALIGN (R154): the pad bits are not read and not checked. -/
def execSrcAlign (s : State) : Host.Outcome State Fault Refusal :=
  .next <|
    if s.srcLeft < padTo8 s.srcPos.toNat then raise .bufferUnderflow s
    else succeed (s.advanceSource (padTo8 s.srcPos.toNat))

end Sys2Proof.Machine
end

