-- ==== Sys2Proof/Machine/Succinct.lean ====
section
/-! DEFINITION. The succinct bit-vector commands (45_succinct.md). -/
namespace Sys2Proof.Machine

/-- SV_INIT (R312). SB and BK then hold unspecified values (U9): free ones, S(n) and B(n) of them
(notes/assumptions/5.md). -/
def execSvInit (s : State) : Host.Outcome State Fault Refusal :=
  .next <|
    if s.plat.vmax < s.arg0.toNat then raise .invalidParameter s
    else if 1 < s.arg1.toNat then raise .invalidParameter s
    else
      succeed
        { s with
          svLen := s.arg0, svBits := List.replicate s.arg0.toNat (s.arg1.toNat == 1), index := .unindexed, svTotal := 0
          sb := (List.range (superCount s.arg0.toNat)).map (Config.freeSuper s.draws)
          bk := (List.range (blockCount s.arg0.toNat)).map (Config.freeBlock s.draws)
          draws := s.draws + 1 }

/-- SV_SET (R313). -/
def execSvSet (s : State) : Host.Outcome State Fault Refusal :=
  .next <|
    if s.svLen.toNat ≤ s.arg0.toNat then raise .invalidParameter s
    else succeed (s.writeCell s.arg0.toNat true)

/-- SV_RESET (R314). -/
def execSvReset (s : State) : Host.Outcome State Fault Refusal :=
  .next <|
    if s.svLen.toNat ≤ s.arg0.toNat then raise .invalidParameter s
    else succeed (s.writeCell s.arg0.toNat false)

/-- SV_FLIP (R315). -/
def execSvFlip (s : State) : Host.Outcome State Fault Refusal :=
  .next <|
    if s.svLen.toNat ≤ s.arg0.toNat then raise .invalidParameter s
    else succeed (s.writeCell s.arg0.toNat (!s.svBits.getD s.arg0.toNat false))

/-- SV_GET (R316). -/
def execSvGet (s : State) : Host.Outcome State Fault Refusal :=
  .next <|
    if s.svLen.toNat ≤ s.arg0.toNat then raise .invalidParameter s
    else returnValue (if s.svBits.getD s.arg0.toNat false then 1 else 0) s

/-- SV_BUILD (R317). -/
def execSvBuild (s : State) : Host.Outcome State Fault Refusal :=
  .next <|
    succeed
      { s with
        sb := buildSuper s.svLen.toNat s.svBits, bk := buildBlock s.svLen.toNat s.svBits
        svTotal := BitVec.ofNat 64 (pc s.svBits 0 s.svLen.toNat), index := .indexed }

/-- SV_RANK (R318). -/
def execSvRank (s : State) : Host.Outcome State Fault Refusal :=
  .next <|
    if s.index = .unindexed then raise .staleIndex s
    else returnValue (rankOf s s.arg0.toNat) s

/-- SV_SELECT (R319). On an inconsistent index SelectIdx(k) is a free value (R324, U7), with NF = 0. -/
def execSvSelect (s : State) : Host.Outcome State Fault Refusal :=
  .next <|
    if s.index = .unindexed then raise .staleIndex s
    else if s.svTotal.toNat ≤ s.arg0.toNat then returnValue (BitVec.allOnes 64) { s with nf := true }
    else if consistent s then returnValue (BitVec.ofNat 64 (nthOne s.svBits s.arg0.toNat)) { s with nf := false }
    else returnValue (Config.freeWord s.draws) { s with nf := false, draws := s.draws + 1 }

/-- SV_ENCODE (R321). -/
def execSvEncode (s : State) : Host.Outcome State Fault Refusal :=
  .next <|
    if s.index = .unindexed then raise .staleIndex s
    else if s.sinkRoom < (wire s.sinkCursor.toNat s).length then raise .bufferOverflow s
    else putBits .encode (wire s.sinkCursor.toNat s) s

/-- SV_DECODE (R322). -/
def execSvDecode (s : State) : Host.Outcome State Fault Refusal :=
  .next <|
    match wireParse s 0 with
    | .ok (v, consumed) => succeed ((s.commitVector v).advanceSource consumed)
    | .error e => raise e.errCode s

end Sys2Proof.Machine
end

