-- ==== Sys2Proof/Machine/Universal.lean ====
section
/-! DEFINITION. The universal codecs' commands (43_codec_universal.md): each is its template (R180, R181) over its codeword or parser. -/
namespace Sys2Proof.Machine

/-- ENC_UNARY (R210). -/
def execEncUnary (sgn : Bool) (s : State) : Host.Outcome State Fault Refusal :=
  .next (encodeWith noParam unaryCodec sgn s)

/-- DEC_UNARY (R211). -/
def execDecUnary (sgn : Bool) (s : State) : Host.Outcome State Fault Refusal :=
  .next (decodeWith noParam unaryParse sgn s)

/-- ENC_GAMMA (R212). -/
def execEncGamma (sgn : Bool) (s : State) : Host.Outcome State Fault Refusal :=
  .next (encodeWith noParam gammaCodec sgn s)

/-- DEC_GAMMA (R213). -/
def execDecGamma (sgn : Bool) (s : State) : Host.Outcome State Fault Refusal :=
  .next (decodeWith noParam (gammaParse 63) sgn s)

/-- ENC_DELTA (R214). -/
def execEncDelta (sgn : Bool) (s : State) : Host.Outcome State Fault Refusal :=
  .next (encodeWith noParam deltaCodec sgn s)

/-- DEC_DELTA (R215). -/
def execDecDelta (sgn : Bool) (s : State) : Host.Outcome State Fault Refusal :=
  .next (decodeWith noParam deltaParse sgn s)

/-- ENC_OMEGA (R216). -/
def execEncOmega (sgn : Bool) (s : State) : Host.Outcome State Fault Refusal :=
  .next (encodeWith noParam omegaCodec sgn s)

/-- DEC_OMEGA (R217). -/
def execDecOmega (sgn : Bool) (s : State) : Host.Outcome State Fault Refusal :=
  .next (decodeWith noParam omegaParse sgn s)

/-- ENC_FIB (R219). -/
def execEncFib (sgn : Bool) (s : State) : Host.Outcome State Fault Refusal :=
  .next (encodeWith noParam fibCodec sgn s)

/-- DEC_FIB (R220). -/
def execDecFib (sgn : Bool) (s : State) : Host.Outcome State Fault Refusal :=
  .next (decodeWith noParam fibParse sgn s)

end Sys2Proof.Machine
end

