-- ==== Sys2Proof/Machine/Dispatch.lean ====
section
/-! DEFINITION. What each command does when it runs: one arm per command, one meaning per arm. -/
namespace Sys2Proof.Machine

def exec (i : Instr) (s : State) : Host.Outcome State Fault Refusal :=
  match i with
  | .sinkInit => Sys2Proof.Machine.execSinkInit s
  | .writeBit => Sys2Proof.Machine.execWriteBit s
  | .writeBits => Sys2Proof.Machine.execWriteBits s
  | .align => Sys2Proof.Machine.execAlign s
  | .hasSpace => Sys2Proof.Machine.execHasSpace s
  | .bitsWritten => Sys2Proof.Machine.execBitsWritten s
  | .bytesWritten => Sys2Proof.Machine.execBytesWritten s
  | .srcInit => Sys2Proof.Machine.execSrcInit s
  | .readBit => Sys2Proof.Machine.execReadBit s
  | .readBits => Sys2Proof.Machine.execReadBits s
  | .atEnd => Sys2Proof.Machine.execAtEnd s
  | .remaining => Sys2Proof.Machine.execRemaining s
  | .skipBits => Sys2Proof.Machine.execSkipBits s
  | .srcReset => Sys2Proof.Machine.execSrcReset s
  | .srcAlign => Sys2Proof.Machine.execSrcAlign s
  | .encUnary sgn => Sys2Proof.Machine.execEncUnary sgn s
  | .decUnary sgn => Sys2Proof.Machine.execDecUnary sgn s
  | .encGamma sgn => Sys2Proof.Machine.execEncGamma sgn s
  | .decGamma sgn => Sys2Proof.Machine.execDecGamma sgn s
  | .encDelta sgn => Sys2Proof.Machine.execEncDelta sgn s
  | .decDelta sgn => Sys2Proof.Machine.execDecDelta sgn s
  | .encOmega sgn => Sys2Proof.Machine.execEncOmega sgn s
  | .decOmega sgn => Sys2Proof.Machine.execDecOmega sgn s
  | .encFib sgn => Sys2Proof.Machine.execEncFib sgn s
  | .decFib sgn => Sys2Proof.Machine.execDecFib sgn s
  | .encRice p sgn => Sys2Proof.Machine.execEncRice p sgn s
  | .decRice p sgn => Sys2Proof.Machine.execDecRice p sgn s
  | .encGolomb sgn => Sys2Proof.Machine.execEncGolomb sgn s
  | .decGolomb sgn => Sys2Proof.Machine.execDecGolomb sgn s
  | .encVByte sgn => Sys2Proof.Machine.execEncVByte sgn s
  | .decVByte sgn => Sys2Proof.Machine.execDecVByte sgn s
  | .encExpG p sgn => Sys2Proof.Machine.execEncExpG p sgn s
  | .decExpG p sgn => Sys2Proof.Machine.execDecExpG p sgn s
  | .encFixed p sgn => Sys2Proof.Machine.execEncFixed p sgn s
  | .decFixed p sgn => Sys2Proof.Machine.execDecFixed p sgn s
  | .svInit => Sys2Proof.Machine.execSvInit s
  | .svSet => Sys2Proof.Machine.execSvSet s
  | .svReset => Sys2Proof.Machine.execSvReset s
  | .svFlip => Sys2Proof.Machine.execSvFlip s
  | .svGet => Sys2Proof.Machine.execSvGet s
  | .svBuild => Sys2Proof.Machine.execSvBuild s
  | .svRank => Sys2Proof.Machine.execSvRank s
  | .svSelect => Sys2Proof.Machine.execSvSelect s
  | .svEncode => Sys2Proof.Machine.execSvEncode s
  | .svDecode => Sys2Proof.Machine.execSvDecode s

end Sys2Proof.Machine
end

