-- ==== Sys2Proof/Machine/Engine.lean ====
section
/-! DEFINITION. The engine's step (60_exceptions.md R367, 20_memory.md R97) and one thing from outside (R24). -/
namespace Sys2Proof.Machine

/-- `Complete(w)` of R367 for the command in flight: FAULTED, then ILLEGAL_COMMAND, then the command's own rule. A raced command ends
as U6 says. -/
def engineStep (s : State) : Host.Outcome State Fault Refusal :=
  if s.fault then .next (raise .faulted s)
  else
    match decode s.cmd with
    | .error _ => .next (raise .illegalCommand s)
    | .ok i => if s.raced then .next (raceOutcome i s) else exec i s

/-- One step with `e` the next thing from outside and `rest` what comes after it. `wait` stays while BUSY = 1, and the engine steps
(R412: it steps eventually); the poll that reads BUSY = 0 ends it (R121). -/
def eventStep (e : HostEvent) (rest : List HostEvent) (s : State) : Host.Outcome State Fault Refusal :=
  match e with
  | .read addr n => hostRead addr.toNat n { s with host := rest }
  | .write addr bytes => hostWrite addr.toNat bytes { s with host := rest }
  | .wait => if s.busy then engineStep s else .next { s with host := rest, hostData := lanes s.status }
  | .engine => if s.busy then engineStep { s with host := rest } else .next { s with host := rest }
  | .powerOn => .next { State.engineReset s with host := rest }

/-- One step: the next thing from outside; with nothing to come, the engine's step if a command is in flight (R97), and otherwise
the idle engine keeps all its state (R378). -/
def stepState (s : State) : Host.Outcome State Fault Refusal :=
  match s.host with
  | [] => if s.busy then engineStep s else .next s
  | e :: rest => eventStep e rest s

/-- The command in flight is `w`, and the engine's step comes next (DEDUCED, safe: notes/assumptions/1.md). -/
def State.inject (s : State) (w : Word) : State :=
  { s.accept w with host := if s.host.isEmpty then [] else .engine :: s.host }

end Sys2Proof.Machine
end

