-- ==== Sys2Proof/Machine/Step.lean ====
section
/-! DEFINITION. One step of the machine, and the placing of a command word as the command in flight. -/
namespace Sys2Proof.Machine

/-- One step (Machine/Engine.lean). -/
def step (s : State) : Host.Outcome State Fault Refusal := stepState s

/-- `s` after an accepted CMD write of the `nbits` low bits of `w`, the engine's step next: the engine fetches nothing (R61), so
this is where its next command stands (R60). -/
def State.withFetchWord (s : State) (nbits w : Nat) : State := s.inject (BitVec.ofNat 64 (w % 2 ^ nbits))

end Sys2Proof.Machine
end

