-- ==== Sys2Proof/Safety.lean ====
section
/-! DEFINITION. The terms claims are stated in: the invariants of the state, what appending to the sink and holding a bit string in the
source mean bit by bit, and how a command ends. -/
namespace Sys2Proof.Machine

/-! ### Invariants -/

/-- The stream invariants (10_state.md R49, R50, R53; 20_memory.md R105): cursor and position in their buffers, the buffers inside the
address space, and PEND zero from the cursor's bit up. -/
abbrev StreamInv (s : State) : Prop :=
  s.sinkCursor.toNat ≤ s.sinkCap.toNat ∧ s.srcPos.toNat ≤ s.srcSize.toNat ∧
  s.sinkBase.toNat + ceilDiv s.sinkCap.toNat 8 ≤ 2 ^ 64 ∧ s.srcBase.toNat + ceilDiv s.srcSize.toNat 8 ≤ 2 ^ 64 ∧
  s.pend.toNat < 2 ^ (s.sinkCursor.toNat % 8)

/-- The bit-vector invariants (R13, R54, R56, R57, R58): VMAX in its range, SV_LEN ≤ VMAX, and one cell for each i < n, one superblock count for
each s < S(n), one block count for each j < B(n). -/
abbrev VectorInv (s : State) : Prop :=
  s.plat.Valid ∧ s.svLen.toNat ≤ s.plat.vmax ∧ s.svBits.length = s.svLen.toNat ∧
  s.sb.length = superCount s.svLen.toNat ∧ s.bk.length = blockCount s.svLen.toNat

/-- The STATUS invariants (R36, R38, R41, R42): a command in flight has ERR = 0 and NF = 0; NF = 1 only with ERR = OK; FCODE is a fatal
code while FAULT = 1 and 0 otherwise; and (the model's own) only a command that will run can be raced. -/
abbrev StatusInv (s : State) : Prop :=
  (s.busy = true → s.err = .ok ∧ s.nf = false) ∧ (s.nf = true → s.err = .ok) ∧
  (s.fault = true → s.fcode.fatal = true) ∧ (s.fault = false → s.fcode = .ok) ∧
  (s.raced = true → s.inFlight.isSome = true)

/-! ### How a command ends -/

/-- The command ended with a code that is not fatal and changed nothing else (R362): BUSY ← 0 and ERR ← the code. -/
abbrev State.endedWith (s : State) (e : ErrCode) : State := { s with busy := false, err := e }

/-- The command ended with a fatal code and changed nothing else (R364). -/
abbrev State.faultedWith (s : State) (e : ErrCode) : State := { s with busy := false, err := e, fault := true, fcode := e }

/-- The next state of an outcome, if it is one. -/
def nextOf : Host.Outcome State Fault Refusal → Option State
  | .next t => some t
  | .fault _ => none
  | .refused _ => none

/-- The next thing from outside is a reset: a power-on, or an accepted soft reset (R34, R400). -/
def State.resetComing (s : State) : Bool :=
  match s.host with
  | .powerOn :: _ => true
  | .write addr bytes :: _ =>
    !s.busy && touchesBlock s.plat addr.toNat bytes.length && wholeRegister addr.toNat bytes.length
      && (addr.toNat == s.plat.mmioBase + 8) && (BitVec.ofNat 64 (ofLanes bytes)).getLsbD 0
  | _ => false

/-! ### Streams, bit by bit -/

/-- Stream bit k of the sink (R81). -/
def State.sinkBit (s : State) (k : Nat) : Bool := (s.mem.read (s.sinkBase.toNat + k / 8)).getLsbD (k % 8)

/-- Stream bit k of the source (R82). -/
def State.sourceBit (s : State) (k : Nat) : Bool := (s.mem.read (s.srcBase.toNat + k / 8)).getLsbD (k % 8)

/-- Every byte the next `n` bits of the sink go to is admitted. -/
abbrev SinkAdmits (s : State) (n : Nat) : Prop :=
  ∀ j < n, s.plat.admits (s.sinkBase.toNat + (s.sinkCursor.toNat + j) / 8) = true

/-- Every byte the next `n` bits of the source come from is admitted. -/
abbrev SourceAdmits (s : State) (n : Nat) : Prop :=
  ∀ j < n, s.plat.admits (s.srcBase.toNat + (s.srcPos.toNat + j) / 8) = true

/-- The source holds a bit string at SRC_POS, with whatever follows it. -/
abbrev SourceHolds (s : State) (bits : Bits) : Prop :=
  s.srcPos.toNat + bits.length ≤ s.srcSize.toNat ∧ SourceAdmits s bits.length ∧
  ∀ j < bits.length, s.sourceBit (s.srcPos.toNat + j) = bits.getD j false

/-- The source holds a bit string at SRC_POS, and the bit after it is there in a byte that is not admitted. -/
abbrev SourceRejects (s : State) (bits : Bits) : Prop :=
  SourceHolds s bits ∧ s.srcPos.toNat + bits.length < s.srcSize.toNat ∧
  s.plat.admits (s.srcBase.toNat + (s.srcPos.toNat + bits.length) / 8) = false

/-- `t` is `s` after a command that appended a bit string to the sink and ended with OK. -/
structure Appended (bits : Bits) (s t : State) : Prop where
  /-- Nothing but BUSY, ERR, SINK_CURSOR, PEND and memory changes. -/
  frame : t = { s with busy := false, err := .ok, sinkCursor := t.sinkCursor, pend := t.pend, mem := t.mem }
  /-- The cursor moves by the length (R86). -/
  cursor : t.sinkCursor.toNat = s.sinkCursor.toNat + bits.length
  /-- Bit j of the string is stream bit cursor + j (R81). -/
  written : ∀ j < bits.length, t.sinkBit (s.sinkCursor.toNat + j) = bits.getD j false
  /-- The bits PEND held stand below them in the first byte (R85, R410). -/
  kept : bits ≠ [] → ∀ j < s.sinkCursor.toNat % 8, t.sinkBit (8 * (s.sinkCursor.toNat / 8) + j) = s.pend.getLsbD j
  /-- The last byte is zero above the last bit (R85). -/
  cleared : bits ≠ [] → ∀ k < 8 * ceilDiv (s.sinkCursor.toNat + bits.length) 8,
    s.sinkCursor.toNat + bits.length ≤ k → t.sinkBit k = false
  /-- PEND holds the bits of the byte at the new cursor, zeros above them (R50, R85). -/
  pending : bits ≠ [] → ∀ j < 8,
    t.pend.getLsbD j = (decide (j < t.sinkCursor.toNat % 8) && t.sinkBit (8 * (t.sinkCursor.toNat / 8) + j))
  /-- No bits change nothing (R86). -/
  empty : bits = [] → t.pend = s.pend ∧ t.mem = s.mem
  /-- No other byte changes (R87). -/
  outside : ∀ a, a < s.sinkBase.toNat + s.sinkCursor.toNat / 8 ∨
    s.sinkBase.toNat + ceilDiv (s.sinkCursor.toNat + bits.length) 8 ≤ a → t.mem.read a = s.mem.read a
  /-- Memory keeps its canonical form. -/
  wf : t.mem.wf

/-! ### The codec family as one table -/

/-- For an encode: whether its parameter is in range, and its codec (R180). -/
def encoderOf (i : Instr) (s : State) : Option (Bool × Codec × Bool) :=
  match i with
  | .encUnary sgn => some (true, unaryCodec, sgn)
  | .encGamma sgn => some (true, gammaCodec, sgn)
  | .encDelta sgn => some (true, deltaCodec, sgn)
  | .encOmega sgn => some (true, omegaCodec, sgn)
  | .encFib sgn => some (true, fibCodec, sgn)
  | .encRice k sgn => some (decide (k ≤ 63), riceCodec k, sgn)
  | .encGolomb sgn => some (decide (s.arg1 ≠ 0), golombCodec s.arg1.toNat, sgn)
  | .encVByte sgn => some (true, vbyteCodec, sgn)
  | .encExpG k sgn => some (decide (k ≤ 63), expGolombCodec k, sgn)
  | .encFixed n sgn => some (decide (1 ≤ n ∧ n ≤ 64), fixedCodec n, sgn)
  | _ => none

/-- The decode that reads what an encode writes (R114: the odd opcode after the even one). -/
def decoderFor : Instr → Option Instr
  | .encUnary sgn => some (.decUnary sgn)
  | .encGamma sgn => some (.decGamma sgn)
  | .encDelta sgn => some (.decDelta sgn)
  | .encOmega sgn => some (.decOmega sgn)
  | .encFib sgn => some (.decFib sgn)
  | .encRice k sgn => some (.decRice k sgn)
  | .encGolomb sgn => some (.decGolomb sgn)
  | .encVByte sgn => some (.decVByte sgn)
  | .encExpG k sgn => some (.decExpG k sgn)
  | .encFixed n sgn => some (.decFixed n sgn)
  | _ => none

/-! ### Codewords as the spec's text gives them, apart from the definitions the machine runs -/

/-- zeros(L) ++ [1] ++ msb(m mod 2^L, L), with L = bitlen(m) − 1: γ(m) in the form of R212. -/
def gammaBits (m : Nat) : Bits :=
  zeros (bitlen m - 1) ++ [true] ++ msb (m % 2 ^ (bitlen m - 1)) (bitlen m - 1)

/-- `g` is the groups of Elias-Omega for `n`, without the stop bit (R216): none for 1, and otherwise those of bitlen(n) − 1 and then
n in binary. -/
inductive OmegaGroups : Nat → Bits → Prop where
  | one : OmegaGroups 1 []
  | group (n : Nat) (g : Bits) : 1 < n → OmegaGroups (bitlen n - 1) g → OmegaGroups n (g ++ msb n (bitlen n))

/-- `d` is the Zeckendorf digits of `m`, lowest weight first (R218, R219): the top digit is 1, no two consecutive digits are both 1, and the
weights f_(j+1) = F(j+2) of the 1-digits sum to m. -/
abbrev Zeckendorf (d : Bits) (m : Nat) : Prop :=
  d.getLast? = some true ∧ (∀ j < d.length, d.getD j false = true → d.getD (j + 1) false = false) ∧
  ((List.range d.length).map fun j => if d.getD j false then Nat.fib (j + 2) else 0).sum = m

/-- The bits of `v` in `k` bytes of seven value bits each, the eighth bit of a byte 1 but in the last (R265, R266). -/
def vbyteBits (v k : Nat) : Bits :=
  (List.range (8 * k)).map fun p => if p % 8 = 7 then decide (p / 8 + 1 < k) else v.testBit (7 * (p / 8) + p % 8)

/-- `t` is `s` after a decode that took `n` bits and returned `u` (R181): nothing else changes. -/
def State.decoded (s : State) (sgn : Bool) (u n : Nat) : State :=
  { s with
    busy := false, err := .ok, srcPos := BitVec.ofNat 64 (s.srcPos.toNat + n)
    result := if sgn then unzz (BitVec.ofNat 64 u) else BitVec.ofNat 64 u }

/-- The commands whose row in R113 has an R: they return a value. -/
def returnsValue : Instr → Bool
  | .hasSpace | .bitsWritten | .bytesWritten | .readBit | .readBits | .atEnd | .remaining => true
  | .decUnary _ | .decGamma _ | .decDelta _ | .decOmega _ | .decFib _ => true
  | .decRice _ _ | .decGolomb _ | .decVByte _ | .decExpG _ _ | .decFixed _ _ => true
  | .svGet | .svRank | .svSelect => true
  | _ => false

end Sys2Proof.Machine
end

