-- ==== Sys2Proof/Laws/Memory.lean ====
section
/-! SUPPORT. Platform memory: a read after a write, and every memory operation keeps the canonical form. -/
namespace Sys2Proof.Machine

@[simp] theorem Memory.read_nil (a : Nat) : Memory.read [] a = Memory.unwritten := rfl

/-- A cell in front reads as itself at its own address when the rest starts above it. -/
theorem Memory.read_cons_cell (m : Memory) (k : Nat) (v : Byte) (a : Nat) (h : ∀ c ∈ m, k < c.1) :
    Memory.read (Memory.cons k v m) a = if k = a then v else Memory.read m a := by
  unfold Memory.cons
  split
  · rename_i hv
    by_cases hka : k = a
    · subst hka hv
      simp only [if_true]
      induction m with
      | nil => rfl
      | cons c rest ih =>
        have := h c (by simp)
        simp only [Memory.read]
        rw [if_neg (by omega), ih (fun c hc => h c (by simp [hc]))]
    · simp [hka]
  · rfl

theorem Memory.wf_tail {c : Host.Cell} {m : Memory} (h : Memory.wf (c :: m)) : Memory.wf m :=
  ⟨(List.pairwise_cons.1 h.1).2, fun d hd => h.2 d (by simp [hd])⟩

theorem Memory.wf_head {c : Host.Cell} {m : Memory} (h : Memory.wf (c :: m)) : ∀ d ∈ m, c.1 < d.1 :=
  (List.pairwise_cons.1 h.1).1

/-- Writing one byte: the read of every address after it. -/
theorem Memory.read_write (m : Memory) (a b : Nat) (v : Byte) (h : m.wf) :
    (m.write a v).read b = if a = b then v else m.read b := by
  induction m with
  | nil => exact Memory.read_cons_cell [] a v b (by simp)
  | cons c rest ih =>
    obtain ⟨k, x⟩ := c
    have hk := Memory.wf_head h
    simp only [Memory.write]
    split
    · rename_i hlt
      rw [Memory.read_cons_cell _ _ _ _ (by
        intro d hd
        rcases List.mem_cons.1 hd with rfl | hd
        · exact hlt
        · have := hk d hd; simp at this; omega)]
    · split
      · rename_i _ heq
        subst heq
        rw [Memory.read_cons_cell _ _ _ _ (by simpa using hk)]
        by_cases hab : a = b <;> simp [hab, Memory.read]
      · rename_i hlt hne
        simp only [Memory.read, ih (Memory.wf_tail h)]
        by_cases hkb : k = b
        · subst hkb; simp [hne]
        · simp [hkb]

@[simp] theorem Memory.read_write_same (m : Memory) (a : Nat) (v : Byte) (h : m.wf) : (m.write a v).read a = v := by
  simp [Memory.read_write m a a v h]

theorem Memory.read_write_other (m : Memory) (a b : Nat) (v : Byte) (h : m.wf) (hab : a ≠ b) :
    (m.write a v).read b = m.read b := by
  simp [Memory.read_write m a b v h, hab]

theorem Memory.cons_wf (m : Memory) (k : Nat) (v : Byte) (h : m.wf) (hk : ∀ c ∈ m, k < c.1) :
    (Memory.cons k v m).wf := by
  unfold Memory.cons
  split
  · exact h
  · rename_i hv
    refine ⟨List.pairwise_cons.2 ⟨hk, h.1⟩, fun d hd => ?_⟩
    rcases List.mem_cons.1 hd with rfl | hd
    · exact hv
    · exact h.2 d hd

/-- The addresses a write leaves listed are the old ones and the written one. -/
theorem Memory.mem_write (m : Memory) (a : Nat) (v : Byte) (d : Host.Cell) (hd : d ∈ m.write a v) :
    d.1 = a ∨ d ∈ m := by
  induction m with
  | nil =>
    simp only [Memory.write, Memory.cons] at hd
    split at hd <;> simp_all
  | cons c rest ih =>
    obtain ⟨k, x⟩ := c
    simp only [Memory.write, Memory.cons] at hd
    split at hd
    · split at hd <;> simp_all
      rcases hd with rfl | hd <;> simp_all
    · split at hd
      · split at hd <;> simp_all
        rcases hd with rfl | hd <;> simp_all
      · rcases List.mem_cons.1 hd with rfl | hd
        · simp
        · rcases ih hd with h | h <;> simp_all

/-- A write keeps the canonical form. -/
theorem Memory.write_wf (m : Memory) (a : Nat) (v : Byte) (h : m.wf) : (m.write a v).wf := by
  induction m with
  | nil => exact Memory.cons_wf [] a v h (by simp)
  | cons c rest ih =>
    obtain ⟨k, x⟩ := c
    have hk := Memory.wf_head h
    simp only [Memory.write]
    split
    · rename_i hlt
      exact Memory.cons_wf _ a v h (by
        intro d hd
        rcases List.mem_cons.1 hd with rfl | hd
        · exact hlt
        · have := hk d hd; simp at this; omega)
    · split
      · rename_i _ heq
        subst heq
        exact Memory.cons_wf _ a v (Memory.wf_tail h) (by simpa using hk)
      · rename_i hlt hne
        have hw := ih (Memory.wf_tail h)
        refine ⟨List.pairwise_cons.2 ⟨fun d hd => ?_, hw.1⟩, fun d hd => ?_⟩
        · rcases Memory.mem_write rest a v d hd with hd | hd
          · simp only [hd]; omega
          · exact hk d hd
        · rcases List.mem_cons.1 hd with rfl | hd
          · exact h.2 (k, x) (by simp)
          · exact hw.2 d hd

theorem Memory.writeBytes_wf (m : Memory) (a : Nat) (bs : List Byte) (h : m.wf) : (m.writeBytes a bs).wf := by
  induction bs generalizing m a with
  | nil => exact h
  | cons b rest ih => exact ih _ _ (Memory.write_wf m a b h)

theorem Memory.scramble_wf (m : Memory) (d : Nat) (f : Nat → Bool) (a n : Nat) (h : m.wf) : (m.scramble d f a n).wf := by
  induction n with
  | zero => exact h
  | succ n ih =>
    simp only [Memory.scramble]
    split
    · exact Memory.write_wf _ _ _ ih
    · exact ih

/-- What a run of free bytes leaves: the free byte where it picks one, the old byte elsewhere. -/
theorem Memory.read_scramble (m : Memory) (d : Nat) (f : Nat → Bool) (a n b : Nat) (h : m.wf) :
    (m.scramble d f a n).read b = if a ≤ b ∧ b < a + n ∧ f b = true then Config.freeByte d b else m.read b := by
  induction n with
  | zero => rw [Memory.scramble, if_neg (by omega)]
  | succ n ih =>
    simp only [Memory.scramble]
    by_cases hf : f (a + n) = true
    · rw [if_pos hf, Memory.read_write _ _ _ _ (Memory.scramble_wf m d f a n h), ih]
      by_cases hb : a + n = b
      · subst hb; simp [hf]
      · rw [if_neg hb]
        congr 1
        simp only [eq_iff_iff]
        exact ⟨fun ⟨h1, h2, h3⟩ => ⟨h1, by omega, h3⟩, fun ⟨h1, h2, h3⟩ => ⟨h1, by omega, h3⟩⟩
    · rw [if_neg hf, ih]
      congr 1
      simp only [eq_iff_iff]
      refine ⟨fun ⟨h1, h2, h3⟩ => ⟨h1, by omega, h3⟩, fun ⟨h1, h2, h3⟩ => ⟨h1, ?_, h3⟩⟩
      by_cases hb : b = a + n
      · subst hb; exact absurd h3 hf
      · omega

/-- Where a run of free bytes picks none, memory stays as it is. -/
theorem Memory.scramble_none (m : Memory) (d : Nat) (f : Nat → Bool) (a n : Nat) (h : ∀ b, a ≤ b → b < a + n → f b = false) :
    m.scramble d f a n = m := by
  induction n with
  | zero => rfl
  | succ n ih =>
    rw [Memory.scramble, if_neg (by simp [h (a + n) (by omega) (by omega)])]
    exact ih fun b h1 h2 => h b h1 (by omega)

theorem Memory.read_writeBytes (m : Memory) (a b : Nat) (bs : List Byte) (h : m.wf) :
    (m.writeBytes a bs).read b = if a ≤ b ∧ b < a + bs.length then bs.getD (b - a) 0 else m.read b := by
  induction bs generalizing m a with
  | nil => simp [Memory.writeBytes]
  | cons x rest ih =>
    simp only [Memory.writeBytes, ih _ _ (Memory.write_wf m a x h), Memory.read_write m a b x h, List.length_cons]
    by_cases hab : a = b
    · subst hab; simp
    · rw [if_neg hab]
      by_cases hin : a + 1 ≤ b ∧ b < a + 1 + rest.length
      · rw [if_pos hin, if_pos (by omega), show b - a = (b - (a + 1)) + 1 by omega]
        simp
      · rw [if_neg hin, if_neg (by omega)]

end Sys2Proof.Machine
end

