-- ==== Sys2Proof/Laws/State.lean ====
section
/-! SUPPORT. One lemma per field per named update of the state, each true by rfl, and what `raise` leaves alone. -/
namespace Sys2Proof.Machine

/-! `State.complete` -/
@[simp] theorem State.complete_plat (s : State) (e : ErrCode) : (s.complete e).plat = s.plat := rfl
@[simp] theorem State.complete_cmd (s : State) (e : ErrCode) : (s.complete e).cmd = s.cmd := rfl
@[simp] theorem State.complete_arg0 (s : State) (e : ErrCode) : (s.complete e).arg0 = s.arg0 := rfl
@[simp] theorem State.complete_arg1 (s : State) (e : ErrCode) : (s.complete e).arg1 = s.arg1 := rfl
@[simp] theorem State.complete_result (s : State) (e : ErrCode) : (s.complete e).result = s.result := rfl
@[simp] theorem State.complete_busy (s : State) (e : ErrCode) : (s.complete e).busy = false := rfl
@[simp] theorem State.complete_fault (s : State) (e : ErrCode) : (s.complete e).fault = s.fault := rfl
@[simp] theorem State.complete_nf (s : State) (e : ErrCode) : (s.complete e).nf = s.nf := rfl
@[simp] theorem State.complete_index (s : State) (e : ErrCode) : (s.complete e).index = s.index := rfl
@[simp] theorem State.complete_proto (s : State) (e : ErrCode) : (s.complete e).proto = s.proto := rfl
@[simp] theorem State.complete_err (s : State) (e : ErrCode) : (s.complete e).err = e := rfl
@[simp] theorem State.complete_fcode (s : State) (e : ErrCode) : (s.complete e).fcode = s.fcode := rfl
@[simp] theorem State.complete_sinkBase (s : State) (e : ErrCode) : (s.complete e).sinkBase = s.sinkBase := rfl
@[simp] theorem State.complete_sinkCap (s : State) (e : ErrCode) : (s.complete e).sinkCap = s.sinkCap := rfl
@[simp] theorem State.complete_sinkCursor (s : State) (e : ErrCode) : (s.complete e).sinkCursor = s.sinkCursor := rfl
@[simp] theorem State.complete_pend (s : State) (e : ErrCode) : (s.complete e).pend = s.pend := rfl
@[simp] theorem State.complete_srcBase (s : State) (e : ErrCode) : (s.complete e).srcBase = s.srcBase := rfl
@[simp] theorem State.complete_srcSize (s : State) (e : ErrCode) : (s.complete e).srcSize = s.srcSize := rfl
@[simp] theorem State.complete_srcPos (s : State) (e : ErrCode) : (s.complete e).srcPos = s.srcPos := rfl
@[simp] theorem State.complete_svLen (s : State) (e : ErrCode) : (s.complete e).svLen = s.svLen := rfl
@[simp] theorem State.complete_svTotal (s : State) (e : ErrCode) : (s.complete e).svTotal = s.svTotal := rfl
@[simp] theorem State.complete_svBits (s : State) (e : ErrCode) : (s.complete e).svBits = s.svBits := rfl
@[simp] theorem State.complete_sb (s : State) (e : ErrCode) : (s.complete e).sb = s.sb := rfl
@[simp] theorem State.complete_bk (s : State) (e : ErrCode) : (s.complete e).bk = s.bk := rfl
@[simp] theorem State.complete_mem (s : State) (e : ErrCode) : (s.complete e).mem = s.mem := rfl
@[simp] theorem State.complete_host (s : State) (e : ErrCode) : (s.complete e).host = s.host := rfl
@[simp] theorem State.complete_hostData (s : State) (e : ErrCode) : (s.complete e).hostData = s.hostData := rfl
@[simp] theorem State.complete_raced (s : State) (e : ErrCode) : (s.complete e).raced = s.raced := rfl
@[simp] theorem State.complete_nfBefore (s : State) (e : ErrCode) : (s.complete e).nfBefore = s.nfBefore := rfl
@[simp] theorem State.complete_draws (s : State) (e : ErrCode) : (s.complete e).draws = s.draws := rfl

/-! `returnValue` -/
@[simp] theorem returnValue_plat (v : Word) (s : State) : (returnValue v s).plat = s.plat := rfl
@[simp] theorem returnValue_cmd (v : Word) (s : State) : (returnValue v s).cmd = s.cmd := rfl
@[simp] theorem returnValue_arg0 (v : Word) (s : State) : (returnValue v s).arg0 = s.arg0 := rfl
@[simp] theorem returnValue_arg1 (v : Word) (s : State) : (returnValue v s).arg1 = s.arg1 := rfl
@[simp] theorem returnValue_result (v : Word) (s : State) : (returnValue v s).result = v := rfl
@[simp] theorem returnValue_busy (v : Word) (s : State) : (returnValue v s).busy = false := rfl
@[simp] theorem returnValue_fault (v : Word) (s : State) : (returnValue v s).fault = s.fault := rfl
@[simp] theorem returnValue_nf (v : Word) (s : State) : (returnValue v s).nf = s.nf := rfl
@[simp] theorem returnValue_index (v : Word) (s : State) : (returnValue v s).index = s.index := rfl
@[simp] theorem returnValue_proto (v : Word) (s : State) : (returnValue v s).proto = s.proto := rfl
@[simp] theorem returnValue_err (v : Word) (s : State) : (returnValue v s).err = .ok := rfl
@[simp] theorem returnValue_fcode (v : Word) (s : State) : (returnValue v s).fcode = s.fcode := rfl
@[simp] theorem returnValue_sinkBase (v : Word) (s : State) : (returnValue v s).sinkBase = s.sinkBase := rfl
@[simp] theorem returnValue_sinkCap (v : Word) (s : State) : (returnValue v s).sinkCap = s.sinkCap := rfl
@[simp] theorem returnValue_sinkCursor (v : Word) (s : State) : (returnValue v s).sinkCursor = s.sinkCursor := rfl
@[simp] theorem returnValue_pend (v : Word) (s : State) : (returnValue v s).pend = s.pend := rfl
@[simp] theorem returnValue_srcBase (v : Word) (s : State) : (returnValue v s).srcBase = s.srcBase := rfl
@[simp] theorem returnValue_srcSize (v : Word) (s : State) : (returnValue v s).srcSize = s.srcSize := rfl
@[simp] theorem returnValue_srcPos (v : Word) (s : State) : (returnValue v s).srcPos = s.srcPos := rfl
@[simp] theorem returnValue_svLen (v : Word) (s : State) : (returnValue v s).svLen = s.svLen := rfl
@[simp] theorem returnValue_svTotal (v : Word) (s : State) : (returnValue v s).svTotal = s.svTotal := rfl
@[simp] theorem returnValue_svBits (v : Word) (s : State) : (returnValue v s).svBits = s.svBits := rfl
@[simp] theorem returnValue_sb (v : Word) (s : State) : (returnValue v s).sb = s.sb := rfl
@[simp] theorem returnValue_bk (v : Word) (s : State) : (returnValue v s).bk = s.bk := rfl
@[simp] theorem returnValue_mem (v : Word) (s : State) : (returnValue v s).mem = s.mem := rfl
@[simp] theorem returnValue_host (v : Word) (s : State) : (returnValue v s).host = s.host := rfl
@[simp] theorem returnValue_hostData (v : Word) (s : State) : (returnValue v s).hostData = s.hostData := rfl
@[simp] theorem returnValue_raced (v : Word) (s : State) : (returnValue v s).raced = s.raced := rfl
@[simp] theorem returnValue_nfBefore (v : Word) (s : State) : (returnValue v s).nfBefore = s.nfBefore := rfl
@[simp] theorem returnValue_draws (v : Word) (s : State) : (returnValue v s).draws = s.draws := rfl

/-! `State.accept` -/
@[simp] theorem State.accept_plat (s : State) (w : Word) : (s.accept w).plat = s.plat := rfl
@[simp] theorem State.accept_cmd (s : State) (w : Word) : (s.accept w).cmd = w := rfl
@[simp] theorem State.accept_arg0 (s : State) (w : Word) : (s.accept w).arg0 = s.arg0 := rfl
@[simp] theorem State.accept_arg1 (s : State) (w : Word) : (s.accept w).arg1 = s.arg1 := rfl
@[simp] theorem State.accept_result (s : State) (w : Word) : (s.accept w).result = s.result := rfl
@[simp] theorem State.accept_busy (s : State) (w : Word) : (s.accept w).busy = true := rfl
@[simp] theorem State.accept_fault (s : State) (w : Word) : (s.accept w).fault = s.fault := rfl
@[simp] theorem State.accept_nf (s : State) (w : Word) : (s.accept w).nf = false := rfl
@[simp] theorem State.accept_index (s : State) (w : Word) : (s.accept w).index = s.index := rfl
@[simp] theorem State.accept_proto (s : State) (w : Word) : (s.accept w).proto = s.proto := rfl
@[simp] theorem State.accept_err (s : State) (w : Word) : (s.accept w).err = .ok := rfl
@[simp] theorem State.accept_fcode (s : State) (w : Word) : (s.accept w).fcode = s.fcode := rfl
@[simp] theorem State.accept_sinkBase (s : State) (w : Word) : (s.accept w).sinkBase = s.sinkBase := rfl
@[simp] theorem State.accept_sinkCap (s : State) (w : Word) : (s.accept w).sinkCap = s.sinkCap := rfl
@[simp] theorem State.accept_sinkCursor (s : State) (w : Word) : (s.accept w).sinkCursor = s.sinkCursor := rfl
@[simp] theorem State.accept_pend (s : State) (w : Word) : (s.accept w).pend = s.pend := rfl
@[simp] theorem State.accept_srcBase (s : State) (w : Word) : (s.accept w).srcBase = s.srcBase := rfl
@[simp] theorem State.accept_srcSize (s : State) (w : Word) : (s.accept w).srcSize = s.srcSize := rfl
@[simp] theorem State.accept_srcPos (s : State) (w : Word) : (s.accept w).srcPos = s.srcPos := rfl
@[simp] theorem State.accept_svLen (s : State) (w : Word) : (s.accept w).svLen = s.svLen := rfl
@[simp] theorem State.accept_svTotal (s : State) (w : Word) : (s.accept w).svTotal = s.svTotal := rfl
@[simp] theorem State.accept_svBits (s : State) (w : Word) : (s.accept w).svBits = s.svBits := rfl
@[simp] theorem State.accept_sb (s : State) (w : Word) : (s.accept w).sb = s.sb := rfl
@[simp] theorem State.accept_bk (s : State) (w : Word) : (s.accept w).bk = s.bk := rfl
@[simp] theorem State.accept_mem (s : State) (w : Word) : (s.accept w).mem = s.mem := rfl
@[simp] theorem State.accept_host (s : State) (w : Word) : (s.accept w).host = s.host := rfl
@[simp] theorem State.accept_hostData (s : State) (w : Word) : (s.accept w).hostData = s.hostData := rfl
@[simp] theorem State.accept_raced (s : State) (w : Word) : (s.accept w).raced = false := rfl
@[simp] theorem State.accept_nfBefore (s : State) (w : Word) : (s.accept w).nfBefore = s.nf := rfl
@[simp] theorem State.accept_draws (s : State) (w : Word) : (s.accept w).draws = s.draws := rfl

/-! `State.dropWrite` -/
@[simp] theorem State.dropWrite_plat (s : State) : (s.dropWrite).plat = s.plat := rfl
@[simp] theorem State.dropWrite_cmd (s : State) : (s.dropWrite).cmd = s.cmd := rfl
@[simp] theorem State.dropWrite_arg0 (s : State) : (s.dropWrite).arg0 = s.arg0 := rfl
@[simp] theorem State.dropWrite_arg1 (s : State) : (s.dropWrite).arg1 = s.arg1 := rfl
@[simp] theorem State.dropWrite_result (s : State) : (s.dropWrite).result = s.result := rfl
@[simp] theorem State.dropWrite_busy (s : State) : (s.dropWrite).busy = s.busy := rfl
@[simp] theorem State.dropWrite_fault (s : State) : (s.dropWrite).fault = s.fault := rfl
@[simp] theorem State.dropWrite_nf (s : State) : (s.dropWrite).nf = s.nf := rfl
@[simp] theorem State.dropWrite_index (s : State) : (s.dropWrite).index = s.index := rfl
@[simp] theorem State.dropWrite_proto (s : State) : (s.dropWrite).proto = true := rfl
@[simp] theorem State.dropWrite_err (s : State) : (s.dropWrite).err = s.err := rfl
@[simp] theorem State.dropWrite_fcode (s : State) : (s.dropWrite).fcode = s.fcode := rfl
@[simp] theorem State.dropWrite_sinkBase (s : State) : (s.dropWrite).sinkBase = s.sinkBase := rfl
@[simp] theorem State.dropWrite_sinkCap (s : State) : (s.dropWrite).sinkCap = s.sinkCap := rfl
@[simp] theorem State.dropWrite_sinkCursor (s : State) : (s.dropWrite).sinkCursor = s.sinkCursor := rfl
@[simp] theorem State.dropWrite_pend (s : State) : (s.dropWrite).pend = s.pend := rfl
@[simp] theorem State.dropWrite_srcBase (s : State) : (s.dropWrite).srcBase = s.srcBase := rfl
@[simp] theorem State.dropWrite_srcSize (s : State) : (s.dropWrite).srcSize = s.srcSize := rfl
@[simp] theorem State.dropWrite_srcPos (s : State) : (s.dropWrite).srcPos = s.srcPos := rfl
@[simp] theorem State.dropWrite_svLen (s : State) : (s.dropWrite).svLen = s.svLen := rfl
@[simp] theorem State.dropWrite_svTotal (s : State) : (s.dropWrite).svTotal = s.svTotal := rfl
@[simp] theorem State.dropWrite_svBits (s : State) : (s.dropWrite).svBits = s.svBits := rfl
@[simp] theorem State.dropWrite_sb (s : State) : (s.dropWrite).sb = s.sb := rfl
@[simp] theorem State.dropWrite_bk (s : State) : (s.dropWrite).bk = s.bk := rfl
@[simp] theorem State.dropWrite_mem (s : State) : (s.dropWrite).mem = s.mem := rfl
@[simp] theorem State.dropWrite_host (s : State) : (s.dropWrite).host = s.host := rfl
@[simp] theorem State.dropWrite_hostData (s : State) : (s.dropWrite).hostData = s.hostData := rfl
@[simp] theorem State.dropWrite_raced (s : State) : (s.dropWrite).raced = s.raced := rfl
@[simp] theorem State.dropWrite_nfBefore (s : State) : (s.dropWrite).nfBefore = s.nfBefore := rfl
@[simp] theorem State.dropWrite_draws (s : State) : (s.dropWrite).draws = s.draws := rfl

/-! `State.advanceSource` -/
@[simp] theorem State.advanceSource_plat (s : State) (n : Nat) : (s.advanceSource n).plat = s.plat := rfl
@[simp] theorem State.advanceSource_cmd (s : State) (n : Nat) : (s.advanceSource n).cmd = s.cmd := rfl
@[simp] theorem State.advanceSource_arg0 (s : State) (n : Nat) : (s.advanceSource n).arg0 = s.arg0 := rfl
@[simp] theorem State.advanceSource_arg1 (s : State) (n : Nat) : (s.advanceSource n).arg1 = s.arg1 := rfl
@[simp] theorem State.advanceSource_result (s : State) (n : Nat) : (s.advanceSource n).result = s.result := rfl
@[simp] theorem State.advanceSource_busy (s : State) (n : Nat) : (s.advanceSource n).busy = s.busy := rfl
@[simp] theorem State.advanceSource_fault (s : State) (n : Nat) : (s.advanceSource n).fault = s.fault := rfl
@[simp] theorem State.advanceSource_nf (s : State) (n : Nat) : (s.advanceSource n).nf = s.nf := rfl
@[simp] theorem State.advanceSource_index (s : State) (n : Nat) : (s.advanceSource n).index = s.index := rfl
@[simp] theorem State.advanceSource_proto (s : State) (n : Nat) : (s.advanceSource n).proto = s.proto := rfl
@[simp] theorem State.advanceSource_err (s : State) (n : Nat) : (s.advanceSource n).err = s.err := rfl
@[simp] theorem State.advanceSource_fcode (s : State) (n : Nat) : (s.advanceSource n).fcode = s.fcode := rfl
@[simp] theorem State.advanceSource_sinkBase (s : State) (n : Nat) : (s.advanceSource n).sinkBase = s.sinkBase := rfl
@[simp] theorem State.advanceSource_sinkCap (s : State) (n : Nat) : (s.advanceSource n).sinkCap = s.sinkCap := rfl
@[simp] theorem State.advanceSource_sinkCursor (s : State) (n : Nat) : (s.advanceSource n).sinkCursor = s.sinkCursor := rfl
@[simp] theorem State.advanceSource_pend (s : State) (n : Nat) : (s.advanceSource n).pend = s.pend := rfl
@[simp] theorem State.advanceSource_srcBase (s : State) (n : Nat) : (s.advanceSource n).srcBase = s.srcBase := rfl
@[simp] theorem State.advanceSource_srcSize (s : State) (n : Nat) : (s.advanceSource n).srcSize = s.srcSize := rfl
@[simp] theorem State.advanceSource_srcPos (s : State) (n : Nat) : (s.advanceSource n).srcPos = s.srcPos + BitVec.ofNat 64 n := rfl
@[simp] theorem State.advanceSource_svLen (s : State) (n : Nat) : (s.advanceSource n).svLen = s.svLen := rfl
@[simp] theorem State.advanceSource_svTotal (s : State) (n : Nat) : (s.advanceSource n).svTotal = s.svTotal := rfl
@[simp] theorem State.advanceSource_svBits (s : State) (n : Nat) : (s.advanceSource n).svBits = s.svBits := rfl
@[simp] theorem State.advanceSource_sb (s : State) (n : Nat) : (s.advanceSource n).sb = s.sb := rfl
@[simp] theorem State.advanceSource_bk (s : State) (n : Nat) : (s.advanceSource n).bk = s.bk := rfl
@[simp] theorem State.advanceSource_mem (s : State) (n : Nat) : (s.advanceSource n).mem = s.mem := rfl
@[simp] theorem State.advanceSource_host (s : State) (n : Nat) : (s.advanceSource n).host = s.host := rfl
@[simp] theorem State.advanceSource_hostData (s : State) (n : Nat) : (s.advanceSource n).hostData = s.hostData := rfl
@[simp] theorem State.advanceSource_raced (s : State) (n : Nat) : (s.advanceSource n).raced = s.raced := rfl
@[simp] theorem State.advanceSource_nfBefore (s : State) (n : Nat) : (s.advanceSource n).nfBefore = s.nfBefore := rfl
@[simp] theorem State.advanceSource_draws (s : State) (n : Nat) : (s.advanceSource n).draws = s.draws := rfl

/-! `State.writeCell` -/
@[simp] theorem State.writeCell_plat (s : State) (i : Nat) (b : Bool) : (s.writeCell i b).plat = s.plat := rfl
@[simp] theorem State.writeCell_cmd (s : State) (i : Nat) (b : Bool) : (s.writeCell i b).cmd = s.cmd := rfl
@[simp] theorem State.writeCell_arg0 (s : State) (i : Nat) (b : Bool) : (s.writeCell i b).arg0 = s.arg0 := rfl
@[simp] theorem State.writeCell_arg1 (s : State) (i : Nat) (b : Bool) : (s.writeCell i b).arg1 = s.arg1 := rfl
@[simp] theorem State.writeCell_result (s : State) (i : Nat) (b : Bool) : (s.writeCell i b).result = s.result := rfl
@[simp] theorem State.writeCell_busy (s : State) (i : Nat) (b : Bool) : (s.writeCell i b).busy = s.busy := rfl
@[simp] theorem State.writeCell_fault (s : State) (i : Nat) (b : Bool) : (s.writeCell i b).fault = s.fault := rfl
@[simp] theorem State.writeCell_nf (s : State) (i : Nat) (b : Bool) : (s.writeCell i b).nf = s.nf := rfl
@[simp] theorem State.writeCell_index (s : State) (i : Nat) (b : Bool) : (s.writeCell i b).index = .unindexed := rfl
@[simp] theorem State.writeCell_proto (s : State) (i : Nat) (b : Bool) : (s.writeCell i b).proto = s.proto := rfl
@[simp] theorem State.writeCell_err (s : State) (i : Nat) (b : Bool) : (s.writeCell i b).err = s.err := rfl
@[simp] theorem State.writeCell_fcode (s : State) (i : Nat) (b : Bool) : (s.writeCell i b).fcode = s.fcode := rfl
@[simp] theorem State.writeCell_sinkBase (s : State) (i : Nat) (b : Bool) : (s.writeCell i b).sinkBase = s.sinkBase := rfl
@[simp] theorem State.writeCell_sinkCap (s : State) (i : Nat) (b : Bool) : (s.writeCell i b).sinkCap = s.sinkCap := rfl
@[simp] theorem State.writeCell_sinkCursor (s : State) (i : Nat) (b : Bool) : (s.writeCell i b).sinkCursor = s.sinkCursor := rfl
@[simp] theorem State.writeCell_pend (s : State) (i : Nat) (b : Bool) : (s.writeCell i b).pend = s.pend := rfl
@[simp] theorem State.writeCell_srcBase (s : State) (i : Nat) (b : Bool) : (s.writeCell i b).srcBase = s.srcBase := rfl
@[simp] theorem State.writeCell_srcSize (s : State) (i : Nat) (b : Bool) : (s.writeCell i b).srcSize = s.srcSize := rfl
@[simp] theorem State.writeCell_srcPos (s : State) (i : Nat) (b : Bool) : (s.writeCell i b).srcPos = s.srcPos := rfl
@[simp] theorem State.writeCell_svLen (s : State) (i : Nat) (b : Bool) : (s.writeCell i b).svLen = s.svLen := rfl
@[simp] theorem State.writeCell_svTotal (s : State) (i : Nat) (b : Bool) : (s.writeCell i b).svTotal = s.svTotal := rfl
@[simp] theorem State.writeCell_svBits (s : State) (i : Nat) (b : Bool) : (s.writeCell i b).svBits = s.svBits.set i b := rfl
@[simp] theorem State.writeCell_sb (s : State) (i : Nat) (b : Bool) : (s.writeCell i b).sb = s.sb := rfl
@[simp] theorem State.writeCell_bk (s : State) (i : Nat) (b : Bool) : (s.writeCell i b).bk = s.bk := rfl
@[simp] theorem State.writeCell_mem (s : State) (i : Nat) (b : Bool) : (s.writeCell i b).mem = s.mem := rfl
@[simp] theorem State.writeCell_host (s : State) (i : Nat) (b : Bool) : (s.writeCell i b).host = s.host := rfl
@[simp] theorem State.writeCell_hostData (s : State) (i : Nat) (b : Bool) : (s.writeCell i b).hostData = s.hostData := rfl
@[simp] theorem State.writeCell_raced (s : State) (i : Nat) (b : Bool) : (s.writeCell i b).raced = s.raced := rfl
@[simp] theorem State.writeCell_nfBefore (s : State) (i : Nat) (b : Bool) : (s.writeCell i b).nfBefore = s.nfBefore := rfl
@[simp] theorem State.writeCell_draws (s : State) (i : Nat) (b : Bool) : (s.writeCell i b).draws = s.draws := rfl

/-! `State.commitVector` -/
@[simp] theorem State.commitVector_plat (s : State) (v : WireVector) : (s.commitVector v).plat = s.plat := rfl
@[simp] theorem State.commitVector_cmd (s : State) (v : WireVector) : (s.commitVector v).cmd = s.cmd := rfl
@[simp] theorem State.commitVector_arg0 (s : State) (v : WireVector) : (s.commitVector v).arg0 = s.arg0 := rfl
@[simp] theorem State.commitVector_arg1 (s : State) (v : WireVector) : (s.commitVector v).arg1 = s.arg1 := rfl
@[simp] theorem State.commitVector_result (s : State) (v : WireVector) : (s.commitVector v).result = s.result := rfl
@[simp] theorem State.commitVector_busy (s : State) (v : WireVector) : (s.commitVector v).busy = s.busy := rfl
@[simp] theorem State.commitVector_fault (s : State) (v : WireVector) : (s.commitVector v).fault = s.fault := rfl
@[simp] theorem State.commitVector_nf (s : State) (v : WireVector) : (s.commitVector v).nf = s.nf := rfl
@[simp] theorem State.commitVector_index (s : State) (v : WireVector) : (s.commitVector v).index = .indexed := rfl
@[simp] theorem State.commitVector_proto (s : State) (v : WireVector) : (s.commitVector v).proto = s.proto := rfl
@[simp] theorem State.commitVector_err (s : State) (v : WireVector) : (s.commitVector v).err = s.err := rfl
@[simp] theorem State.commitVector_fcode (s : State) (v : WireVector) : (s.commitVector v).fcode = s.fcode := rfl
@[simp] theorem State.commitVector_sinkBase (s : State) (v : WireVector) : (s.commitVector v).sinkBase = s.sinkBase := rfl
@[simp] theorem State.commitVector_sinkCap (s : State) (v : WireVector) : (s.commitVector v).sinkCap = s.sinkCap := rfl
@[simp] theorem State.commitVector_sinkCursor (s : State) (v : WireVector) : (s.commitVector v).sinkCursor = s.sinkCursor := rfl
@[simp] theorem State.commitVector_pend (s : State) (v : WireVector) : (s.commitVector v).pend = s.pend := rfl
@[simp] theorem State.commitVector_srcBase (s : State) (v : WireVector) : (s.commitVector v).srcBase = s.srcBase := rfl
@[simp] theorem State.commitVector_srcSize (s : State) (v : WireVector) : (s.commitVector v).srcSize = s.srcSize := rfl
@[simp] theorem State.commitVector_srcPos (s : State) (v : WireVector) : (s.commitVector v).srcPos = s.srcPos := rfl
@[simp] theorem State.commitVector_svLen (s : State) (v : WireVector) : (s.commitVector v).svLen = BitVec.ofNat 64 v.len := rfl
@[simp] theorem State.commitVector_svTotal (s : State) (v : WireVector) : (s.commitVector v).svTotal = BitVec.ofNat 64 (totalIdx v.len v.super v.block v.bits) := rfl
@[simp] theorem State.commitVector_svBits (s : State) (v : WireVector) : (s.commitVector v).svBits = v.bits := rfl
@[simp] theorem State.commitVector_sb (s : State) (v : WireVector) : (s.commitVector v).sb = v.super := rfl
@[simp] theorem State.commitVector_bk (s : State) (v : WireVector) : (s.commitVector v).bk = v.block := rfl
@[simp] theorem State.commitVector_mem (s : State) (v : WireVector) : (s.commitVector v).mem = s.mem := rfl
@[simp] theorem State.commitVector_host (s : State) (v : WireVector) : (s.commitVector v).host = s.host := rfl
@[simp] theorem State.commitVector_hostData (s : State) (v : WireVector) : (s.commitVector v).hostData = s.hostData := rfl
@[simp] theorem State.commitVector_raced (s : State) (v : WireVector) : (s.commitVector v).raced = s.raced := rfl
@[simp] theorem State.commitVector_nfBefore (s : State) (v : WireVector) : (s.commitVector v).nfBefore = s.nfBefore := rfl
@[simp] theorem State.commitVector_draws (s : State) (v : WireVector) : (s.commitVector v).draws = s.draws := rfl

/-! `State.engineReset` -/
@[simp] theorem State.engineReset_plat (s : State) : (s.engineReset).plat = s.plat := rfl
@[simp] theorem State.engineReset_cmd (s : State) : (s.engineReset).cmd = 0 := rfl
@[simp] theorem State.engineReset_arg0 (s : State) : (s.engineReset).arg0 = 0 := rfl
@[simp] theorem State.engineReset_arg1 (s : State) : (s.engineReset).arg1 = 0 := rfl
@[simp] theorem State.engineReset_result (s : State) : (s.engineReset).result = 0 := rfl
@[simp] theorem State.engineReset_busy (s : State) : (s.engineReset).busy = false := rfl
@[simp] theorem State.engineReset_fault (s : State) : (s.engineReset).fault = false := rfl
@[simp] theorem State.engineReset_nf (s : State) : (s.engineReset).nf = false := rfl
@[simp] theorem State.engineReset_index (s : State) : (s.engineReset).index = .unindexed := rfl
@[simp] theorem State.engineReset_proto (s : State) : (s.engineReset).proto = false := rfl
@[simp] theorem State.engineReset_err (s : State) : (s.engineReset).err = .ok := rfl
@[simp] theorem State.engineReset_fcode (s : State) : (s.engineReset).fcode = .ok := rfl
@[simp] theorem State.engineReset_sinkBase (s : State) : (s.engineReset).sinkBase = 0 := rfl
@[simp] theorem State.engineReset_sinkCap (s : State) : (s.engineReset).sinkCap = 0 := rfl
@[simp] theorem State.engineReset_sinkCursor (s : State) : (s.engineReset).sinkCursor = 0 := rfl
@[simp] theorem State.engineReset_pend (s : State) : (s.engineReset).pend = 0 := rfl
@[simp] theorem State.engineReset_srcBase (s : State) : (s.engineReset).srcBase = 0 := rfl
@[simp] theorem State.engineReset_srcSize (s : State) : (s.engineReset).srcSize = 0 := rfl
@[simp] theorem State.engineReset_srcPos (s : State) : (s.engineReset).srcPos = 0 := rfl
@[simp] theorem State.engineReset_svLen (s : State) : (s.engineReset).svLen = 0 := rfl
@[simp] theorem State.engineReset_svTotal (s : State) : (s.engineReset).svTotal = 0 := rfl
@[simp] theorem State.engineReset_svBits (s : State) : (s.engineReset).svBits = [] := rfl
@[simp] theorem State.engineReset_sb (s : State) : (s.engineReset).sb = [] := rfl
@[simp] theorem State.engineReset_bk (s : State) : (s.engineReset).bk = [] := rfl
@[simp] theorem State.engineReset_mem (s : State) : (s.engineReset).mem = s.mem := rfl
@[simp] theorem State.engineReset_host (s : State) : (s.engineReset).host = s.host := rfl
@[simp] theorem State.engineReset_hostData (s : State) : (s.engineReset).hostData = s.hostData := rfl
@[simp] theorem State.engineReset_raced (s : State) : (s.engineReset).raced = false := rfl
@[simp] theorem State.engineReset_nfBefore (s : State) : (s.engineReset).nfBefore = false := rfl
@[simp] theorem State.engineReset_draws (s : State) : (s.engineReset).draws = s.draws := rfl

/-! `raise` -/
@[simp] theorem succeed_eq (s : State) : succeed s = s.complete .ok := rfl

/-- All `raise` can do (R362, R364). -/
theorem raise_eq (e : ErrCode) (s : State) :
    raise e s = { s with busy := false, err := e, fault := s.fault || e.fatal, fcode := if e.fatal then e else s.fcode } := by
  unfold raise State.complete
  cases e.fatal <;> simp

theorem raise_nonfatal (e : ErrCode) (s : State) (h : e.fatal = false) : raise e s = s.complete e := by simp [raise, h]

theorem raise_fatal (e : ErrCode) (s : State) (h : e.fatal = true) : raise e s = s.faultedWith e := by
  simp [raise, h, State.complete]

@[simp] theorem raise_plat (e : ErrCode) (s : State) : (raise e s).plat = s.plat := by rw [raise_eq]
@[simp] theorem raise_cmd (e : ErrCode) (s : State) : (raise e s).cmd = s.cmd := by rw [raise_eq]
@[simp] theorem raise_arg0 (e : ErrCode) (s : State) : (raise e s).arg0 = s.arg0 := by rw [raise_eq]
@[simp] theorem raise_arg1 (e : ErrCode) (s : State) : (raise e s).arg1 = s.arg1 := by rw [raise_eq]
@[simp] theorem raise_result (e : ErrCode) (s : State) : (raise e s).result = s.result := by rw [raise_eq]
@[simp] theorem raise_nf (e : ErrCode) (s : State) : (raise e s).nf = s.nf := by rw [raise_eq]
@[simp] theorem raise_index (e : ErrCode) (s : State) : (raise e s).index = s.index := by rw [raise_eq]
@[simp] theorem raise_proto (e : ErrCode) (s : State) : (raise e s).proto = s.proto := by rw [raise_eq]
@[simp] theorem raise_sinkBase (e : ErrCode) (s : State) : (raise e s).sinkBase = s.sinkBase := by rw [raise_eq]
@[simp] theorem raise_sinkCap (e : ErrCode) (s : State) : (raise e s).sinkCap = s.sinkCap := by rw [raise_eq]
@[simp] theorem raise_sinkCursor (e : ErrCode) (s : State) : (raise e s).sinkCursor = s.sinkCursor := by rw [raise_eq]
@[simp] theorem raise_pend (e : ErrCode) (s : State) : (raise e s).pend = s.pend := by rw [raise_eq]
@[simp] theorem raise_srcBase (e : ErrCode) (s : State) : (raise e s).srcBase = s.srcBase := by rw [raise_eq]
@[simp] theorem raise_srcSize (e : ErrCode) (s : State) : (raise e s).srcSize = s.srcSize := by rw [raise_eq]
@[simp] theorem raise_srcPos (e : ErrCode) (s : State) : (raise e s).srcPos = s.srcPos := by rw [raise_eq]
@[simp] theorem raise_svLen (e : ErrCode) (s : State) : (raise e s).svLen = s.svLen := by rw [raise_eq]
@[simp] theorem raise_svTotal (e : ErrCode) (s : State) : (raise e s).svTotal = s.svTotal := by rw [raise_eq]
@[simp] theorem raise_svBits (e : ErrCode) (s : State) : (raise e s).svBits = s.svBits := by rw [raise_eq]
@[simp] theorem raise_sb (e : ErrCode) (s : State) : (raise e s).sb = s.sb := by rw [raise_eq]
@[simp] theorem raise_bk (e : ErrCode) (s : State) : (raise e s).bk = s.bk := by rw [raise_eq]
@[simp] theorem raise_mem (e : ErrCode) (s : State) : (raise e s).mem = s.mem := by rw [raise_eq]
@[simp] theorem raise_host (e : ErrCode) (s : State) : (raise e s).host = s.host := by rw [raise_eq]
@[simp] theorem raise_hostData (e : ErrCode) (s : State) : (raise e s).hostData = s.hostData := by rw [raise_eq]
@[simp] theorem raise_raced (e : ErrCode) (s : State) : (raise e s).raced = s.raced := by rw [raise_eq]
@[simp] theorem raise_nfBefore (e : ErrCode) (s : State) : (raise e s).nfBefore = s.nfBefore := by rw [raise_eq]
@[simp] theorem raise_draws (e : ErrCode) (s : State) : (raise e s).draws = s.draws := by rw [raise_eq]
@[simp] theorem raise_busy (e : ErrCode) (s : State) : (raise e s).busy = false := by rw [raise_eq]
@[simp] theorem raise_err (e : ErrCode) (s : State) : (raise e s).err = e := by rw [raise_eq]
@[simp] theorem raise_fault (e : ErrCode) (s : State) : (raise e s).fault = (s.fault || e.fatal) := by rw [raise_eq]
@[simp] theorem raise_fcode (e : ErrCode) (s : State) : (raise e s).fcode = if e.fatal then e else s.fcode := by rw [raise_eq]

/-! `State.nfRead` -/
@[simp] theorem State.nfRead_idle (s : State) (h : s.busy = false) : s.nfRead = s.nf := by simp [State.nfRead, h]
@[simp] theorem State.nfRead_busy (s : State) (h : s.busy = true) : s.nfRead = s.nfBefore := by simp [State.nfRead, h]
@[simp] theorem State.accept_nfRead (s : State) (w : Word) : (s.accept w).nfRead = s.nf := rfl

end Sys2Proof.Machine
end

