-- ==== Sys2Proof/Laws/Sink.lean ====
section
/-! SUPPORT. What a sink write can do, said once: `putLoop`, then `putBits` (20_memory.md R85, R86, R87). -/
namespace Sys2Proof.Machine

theorem getLsbD_setBit (p : Byte) (i j : Nat) (b : Bool) (hi : i < 8) :
    (setBit p i b).getLsbD j = if j = i then b else p.getLsbD j := by
  unfold setBit
  split
  · rename_i hb
    subst hb
    by_cases hj : j = i
    · subst hj; simp [hi]
    · have : ¬ i = j := fun h => hj h.symm
      simp [hj, this]
  · rename_i hb
    have hb : b = false := by simpa using hb
    subst hb
    by_cases hj : j = i
    · subst hj; simp [hi]
    · have : ¬ i = j := fun h => hj h.symm
      by_cases hj8 : j < 8
      · simp [hj, hj8]
      · simp [hj, BitVec.getLsbD_of_ge p j (by omega)]

theorem ceilDiv_eight (n : Nat) : ceilDiv n 8 = (n + 7) / 8 := rfl

/-- Stream bit `k` of a memory at a base (R81). -/
def Memory.bit (m : Memory) (base k : Nat) : Bool := (m.read (base + k / 8)).getLsbD (k % 8)

/-- The stream a sink write leaves from the byte at cursor `c` on: the pending bits, then the string, then zeros. -/
def streamFrom (c : Nat) (p : Byte) (bits : Bits) (k : Nat) : Bool :=
  if k < c then p.getLsbD (k % 8) else bits.getD (k - c) false

/-- What `putLoop` has done when it answers. -/
structure PutDone (base : Nat) (bits : Bits) (c : Nat) (p : Byte) (m : Memory) (c' : Nat) (p' : Byte) (m' : Memory) : Prop where
  cursor : c' = c + bits.length
  wf : m'.wf
  bit : bits ≠ [] → ∀ k, 8 * (c / 8) ≤ k → k < 8 * ceilDiv (c + bits.length) 8 → m'.bit base k = streamFrom c p bits k
  pend : bits ≠ [] → m'.read (base + (c + bits.length - 1) / 8) = p'
  outside : ∀ a, a < base + c / 8 ∨ base + ceilDiv (c + bits.length) 8 ≤ a → m'.read a = m.read a

/-- The bits of the byte at the cursor after one more bit. -/
theorem pending_step (c : Nat) (p : Byte) (b : Bool) (hp : c % 8 ≠ 0 → ∀ i, c % 8 ≤ i → p.getLsbD i = false) (i : Nat) :
    (setBit (if c % 8 = 0 then 0 else p) (c % 8) b).getLsbD i =
      if i = c % 8 then b else if i < c % 8 then p.getLsbD i else false := by
  rw [getLsbD_setBit _ _ _ _ (by omega)]
  by_cases hi : i = c % 8
  · simp [hi]
  · rw [if_neg hi, if_neg hi]
    by_cases h0 : c % 8 = 0
    · simp [h0]
    · rw [if_neg h0]
      by_cases hlt : i < c % 8
      · simp [hlt]
      · rw [if_neg hlt, hp h0 i (by omega)]

/-- What `putLoop` does when it answers (R86). -/
theorem putLoop_some (plat : Platform) (base : Nat) (bits : Bits) (c : Nat) (p : Byte) (m : Memory) (c' : Nat) (p' : Byte)
    (m' : Memory) (hm : m.wf) (hp : c % 8 ≠ 0 → ∀ i, c % 8 ≤ i → p.getLsbD i = false)
    (h : putLoop plat base bits c p m = some (c', p', m')) : PutDone base bits c p m c' p' m' := by
  induction bits generalizing c p m with
  | nil =>
    simp only [putLoop, Option.some.injEq, Prod.mk.injEq] at h
    obtain ⟨rfl, rfl, rfl⟩ := h
    exact ⟨by simp, hm, by simp, by simp, fun _ _ => rfl⟩
  | cons b rest ih =>
    have hstep := pending_step c p b hp
    simp only [putLoop] at h
    generalize hp1 : setBit (if c % 8 = 0 then 0 else p) (c % 8) b = p₁ at h hstep
    have hnext : (c + 1) % 8 ≠ 0 → ∀ i, (c + 1) % 8 ≤ i → p₁.getLsbD i = false := by
      intro h0 i hi
      rw [hstep, if_neg (by omega), if_neg (by omega)]
    -- the byte at `c`, once it has been stored
    have hbyte : ∀ k, 8 * (c / 8) ≤ k → k < 8 * (c / 8) + 8 → (k ≤ c ∨ rest = []) →
        p₁.getLsbD (k % 8) = streamFrom c p (b :: rest) k := by
      intro k h1 h2 h3
      rw [hstep]
      unfold streamFrom
      by_cases hk : k < c
      · rw [if_pos hk, if_neg (by omega), if_pos (by omega)]
      · rw [if_neg hk]
        by_cases hkc : k = c
        · subst hkc; simp
        · rcases h3 with h3 | h3
          · omega
          · subst h3
            rw [if_neg (by omega), if_neg (by omega)]
            obtain ⟨d, hd⟩ : ∃ d, k - c = d + 1 := ⟨k - c - 1, by omega⟩
            simp [hd]
    have hw := Memory.write_wf m (base + c / 8) p₁ hm
    by_cases hrest : rest = []
    · subst hrest
      simp only [or_true, if_true] at h
      split at h
      · simp only [putLoop, Option.some.injEq, Prod.mk.injEq] at h
        obtain ⟨rfl, rfl, rfl⟩ := h
        refine ⟨by simp, hw, fun _ k h1 h2 => ?_, fun _ => ?_, fun a ha => ?_⟩
        · simp only [List.length_cons, List.length_nil, ceilDiv_eight] at h2
          have hk : k / 8 = c / 8 := by omega
          rw [← hbyte k h1 (by omega) (Or.inr rfl)]
          simp [Memory.bit, hk, Memory.read_write_same _ _ _ hm]
        · simp [Memory.read_write_same _ _ _ hm]
        · simp only [List.length_cons, List.length_nil, ceilDiv_eight] at ha
          exact Memory.read_write_other _ _ _ _ hm (by omega)
      · exact absurd h (by simp)
    · -- the loop goes on
      have key : ∀ m₁ : Memory, m₁.wf → (∀ a, a ≠ base + c / 8 → m₁.read a = m.read a) →
          (c % 8 = 7 → m₁.read (base + c / 8) = p₁) →
          putLoop plat base rest (c + 1) p₁ m₁ = some (c', p', m') → PutDone base (b :: rest) c p m c' p' m' := by
        intro m₁ hm₁ hother hflush h
        have d := ih (c + 1) p₁ m₁ hm₁ hnext h
        have hlen : 0 < rest.length := List.length_pos_iff.2 hrest
        refine ⟨by rw [d.cursor]; simp; omega, d.wf, fun _ k h1 h2 => ?_, fun _ => ?_, fun a ha => ?_⟩
        · simp only [List.length_cons, ceilDiv_eight] at h2
          by_cases hin : 8 * ((c + 1) / 8) ≤ k
          · rw [d.bit hrest k hin (by simp only [ceilDiv_eight]; omega)]
            by_cases hkc : k ≤ c
            · rw [← hbyte k h1 (by omega) (Or.inl hkc)]
              simp [streamFrom, show k < c + 1 by omega]
            · obtain ⟨e, he⟩ : ∃ e, k - c = e + 1 := ⟨k - c - 1, by omega⟩
              have : k - (c + 1) = e := by omega
              simp [streamFrom, show ¬ k < c + 1 by omega, show ¬ k < c by omega, he, this]
          · have hk : k / 8 = c / 8 := by omega
            have h7 : c % 8 = 7 := by omega
            rw [← hbyte k h1 (by omega) (Or.inl (by omega))]
            simp only [Memory.bit, hk]
            rw [d.outside _ (Or.inl (by omega)), hflush h7]
        · rw [← d.pend hrest]
          simp only [List.length_cons]
          congr 3
          omega
        · simp only [List.length_cons, ceilDiv_eight] at ha
          rw [d.outside a (by simp only [ceilDiv_eight]; omega)]
          exact hother a (by omega)
      by_cases h7 : c % 8 = 7
      · simp only [h7, true_or, if_true] at h
        split at h
        · exact key _ hw (fun a ha => Memory.read_write_other _ _ _ _ hm (by omega))
            (fun _ => Memory.read_write_same _ _ _ hm) h
        · exact absurd h (by simp)
      · simp only [h7, hrest, or_self, if_false] at h
        exact key m hm (fun _ _ => rfl) (fun h => absurd h h7) h

/-- `putLoop` keeps memory's canonical form, from any pending byte. -/
theorem putLoop_wf (plat : Platform) (base : Nat) (bits : Bits) (c : Nat) (p : Byte) (m : Memory) (c' : Nat) (p' : Byte)
    (m' : Memory) (hm : m.wf) (h : putLoop plat base bits c p m = some (c', p', m')) : m'.wf := by
  induction bits generalizing c p m with
  | nil =>
    simp only [putLoop, Option.some.injEq, Prod.mk.injEq] at h
    exact h.2.2 ▸ hm
  | cons b rest ih =>
    simp only [putLoop] at h
    split at h
    · split at h
      · exact ih _ _ _ (Memory.write_wf _ _ _ hm) h
      · cases h
    · exact ih _ _ _ hm h

/-- `putLoop` answers exactly when every byte it stores to is admitted (R86). -/
theorem putLoop_isSome (plat : Platform) (base : Nat) (bits : Bits) (c : Nat) (p : Byte) (m : Memory) :
    (putLoop plat base bits c p m).isSome = true ↔ ∀ j < bits.length, plat.admits (base + (c + j) / 8) = true := by
  induction bits generalizing c p m with
  | nil => simp [putLoop]
  | cons b rest ih =>
    have shift : (∀ j < (b :: rest).length, plat.admits (base + (c + j) / 8) = true) ↔
        plat.admits (base + c / 8) = true ∧ ∀ j < rest.length, plat.admits (base + (c + 1 + j) / 8) = true := by
      constructor
      · intro h
        refine ⟨by simpa using h 0 (by simp), fun j hj => ?_⟩
        have := h (j + 1) (by simp; omega)
        rwa [show c + (j + 1) = c + 1 + j by omega] at this
      · rintro ⟨h0, h1⟩ j hj
        cases j with
        | zero => simpa using h0
        | succ j =>
          have := h1 j (by simp at hj; omega)
          rwa [show c + 1 + j = c + (j + 1) by omega] at this
    rw [shift]
    simp only [putLoop]
    by_cases hflush : c % 8 = 7 ∨ rest = []
    · rw [if_pos hflush]
      by_cases ha : plat.admits (base + c / 8) = true
      · rw [if_pos ha, ih]; simp [ha]
      · rw [if_neg ha]; simp [ha]
    · rw [if_neg hflush, ih]
      refine ⟨fun h => ⟨?_, h⟩, fun h => h.2⟩
      have hr : rest ≠ [] := fun h => hflush (Or.inr h)
      have := h 0 (List.length_pos_iff.2 hr)
      rwa [show (c + 1 + 0) / 8 = c / 8 by omega] at this

theorem pend_high (s : State) (h : StreamInv s) : s.sinkCursor.toNat % 8 ≠ 0 →
    ∀ i, s.sinkCursor.toNat % 8 ≤ i → s.pend.getLsbD i = false := by
  intro _ i hi
  have h5 := h.2.2.2.2
  rw [BitVec.getLsbD, Nat.testBit_lt_two_pow]
  exact Nat.lt_of_lt_of_le h5 (Nat.pow_le_pow_right (by omega) hi)

/-- All `putBits` can do (R86, R184): with every byte admitted it appends the bits; otherwise it ends with BUS_ERROR. -/
theorem putBits_appends (w : SinkWriter) (bits : Bits) (s : State) (hm : s.mem.wf) (hs : StreamInv s) (hroom : bits.length ≤ s.sinkRoom)
    (ha : SinkAdmits s bits.length) : Appended bits s (putBits w bits s) := by
  obtain ⟨hc, _, _, _, _⟩ := id hs
  cases bits with
  | nil =>
    refine ⟨rfl, by simp [putBits], by simp, by simp, by simp, by simp, fun _ => ⟨rfl, rfl⟩, fun _ _ => rfl, hm⟩
  | cons b rest =>
    have hsome := (putLoop_isSome s.plat s.sinkBase.toNat (b :: rest) s.sinkCursor.toNat s.pend s.mem).2 ha
    obtain ⟨⟨c, p, m⟩, hput⟩ := Option.isSome_iff_exists.1 hsome
    have d := putLoop_some _ _ _ _ _ _ _ _ _ hm (pend_high s hs) hput
    have hlt : c < 2 ^ 64 := by
      have := d.cursor
      have := s.sinkCap.isLt
      unfold State.sinkRoom at hroom
      omega
    have ht : putBits w (b :: rest) s =
        { s with busy := false, err := .ok, sinkCursor := BitVec.ofNat 64 c, pend := if c % 8 = 0 then 0 else p, mem := m } := by
      simp [putBits, hput, State.complete]
    rw [ht]
    have hcur : (BitVec.ofNat 64 c).toNat = c := by rw [BitVec.toNat_ofNat]; exact Nat.mod_eq_of_lt hlt
    have hcl : c = s.sinkCursor.toNat + (b :: rest).length := d.cursor
    have hbit : ∀ k, 8 * (s.sinkCursor.toNat / 8) ≤ k → k < 8 * ceilDiv (s.sinkCursor.toNat + (b :: rest).length) 8 →
        (m.read (s.sinkBase.toNat + k / 8)).getLsbD (k % 8) = streamFrom s.sinkCursor.toNat s.pend (b :: rest) k :=
      d.bit (by simp)
    have hlen : 0 < (b :: rest).length := by simp
    refine ⟨rfl, hcur.trans hcl, fun j hj => ?_, fun _ j hj => ?_, fun _ k hk hk' => ?_, fun _ j hj => ?_, by simp,
      d.outside, d.wf⟩
    · simp only [State.sinkBit]
      rw [hbit _ (by omega) (by simp only [ceilDiv_eight]; omega)]
      simp [streamFrom]
    · simp only [State.sinkBit]
      rw [hbit _ (by omega) (by simp only [ceilDiv_eight]; omega)]
      simp only [streamFrom]
      rw [if_pos (by omega), show (8 * (s.sinkCursor.toNat / 8) + j) % 8 = j by omega]
    · simp only [State.sinkBit]
      rw [hbit _ (by omega) hk]
      simp only [streamFrom]
      rw [if_neg (by omega), List.getD_eq_default _ _ (by omega)]
    · simp only [State.sinkBit, hcur]
      by_cases h0 : c % 8 = 0
      · simp [h0]
      · rw [if_neg h0]
        have hlast : (s.sinkCursor.toNat + (b :: rest).length - 1) / 8 = c / 8 := by omega
        have hp := d.pend (by simp)
        rw [hlast] at hp
        have hk := hbit (8 * (c / 8) + j) (by omega) (by simp only [ceilDiv_eight]; omega)
        have hdiv : (8 * (c / 8) + j) / 8 = c / 8 := by omega
        have hmod : (8 * (c / 8) + j) % 8 = j := by omega
        rw [hdiv, hmod, hp] at hk
        rw [hdiv, hmod, hp]
        by_cases hjc : j < c % 8
        · simp [hjc]
        · rw [hk]
          simp only [streamFrom, hjc, decide_false, Bool.false_and]
          rw [if_neg (by omega), List.getD_eq_default _ _ (by omega)]

/-- With a byte that is not admitted, a sink write ends with BUS_ERROR (R366). -/
theorem putBits_busError (w : SinkWriter) (bits : Bits) (s : State) (ha : ¬ SinkAdmits s bits.length) :
    putBits w bits s = sinkBusError w bits.length s := by
  cases bits with
  | nil => exact absurd (fun j hj => absurd hj (by simp)) ha
  | cons b rest =>
    have hnone : putLoop s.plat s.sinkBase.toNat (b :: rest) s.sinkCursor.toNat s.pend s.mem = none := by
      rw [← Option.not_isSome_iff_eq_none, putLoop_isSome]
      exact ha
    simp [putBits, hnone]

theorem State.scrambleSink_wf (s : State) (w : SinkWriter) (len : Nat) (hm : s.mem.wf) : (s.scrambleSink w len).wf :=
  Memory.scramble_wf _ _ _ _ _ hm

/-- What unspecified sink bytes leave: a free value where the write may store, and memory elsewhere (U4, U6). -/
theorem State.scrambleSink_read (s : State) (w : SinkWriter) (len a : Nat) (hm : s.mem.wf) :
    (s.scrambleSink w len).read a = if s.storesByte w len a = true then Config.freeByte s.draws a else s.mem.read a := by
  simp only [State.scrambleSink, Memory.read_scramble _ _ _ _ _ _ hm]
  congr 1
  simp only [eq_iff_iff]
  refine ⟨fun h => h.2.2, fun h => ⟨?_, ?_, h⟩⟩ <;>
    simp only [State.storesByte, Bool.and_eq_true, decide_eq_true_eq] at h <;> omega

/-- One byte that is not admitted: a stream command's write of it leaves memory as it is (R366). -/
theorem State.scrambleSink_rejected (s : State) (len : Nat)
    (h : ∀ a, s.sinkBase.toNat + s.sinkCursor.toNat / 8 ≤ a → a < s.sinkBase.toNat + ceilDiv (s.sinkCursor.toNat + len) 8 →
      s.plat.admits a = false) : s.scrambleSink .stream len = s.mem := by
  refine Memory.scramble_none _ _ _ _ _ fun b h1 h2 => ?_
  simp [State.storesByte, h b (by omega) (by omega)]

end Sys2Proof.Machine
end

