-- ==== Sys2Proof/Laws/Source.lean ====
section
/-! SUPPORT. What the source primitives do, said once: on bits that are there they read them (20_memory.md R90, R91; 42_codec_common.md
R188, R190), and no parser runs past the end of the source. -/
namespace Sys2Proof.Machine

/-- The source holds a bit string `k` bits after SRC_POS, each bit's byte admitted. -/
def HoldsAt (s : State) (k : Nat) (bits : Bits) : Prop :=
  ∀ j < bits.length, s.srcPos.toNat + (k + j) < s.srcSize.toNat ∧
    s.plat.admits (s.srcBase.toNat + (s.srcPos.toNat + (k + j)) / 8) = true ∧
    s.sourceBit (s.srcPos.toNat + (k + j)) = bits.getD j false

theorem SourceHolds.holdsAt {s : State} {bits : Bits} (h : SourceHolds s bits) : HoldsAt s 0 bits := by
  obtain ⟨hlen, hadm, hbit⟩ := h
  intro j hj
  simp only [Nat.zero_add]
  exact ⟨by omega, hadm j hj, hbit j hj⟩

theorem HoldsAt.nil (s : State) (k : Nat) : HoldsAt s k [] := fun j hj => absurd hj (by simp)

theorem holdsAt_append (s : State) (k : Nat) (a b : Bits) : HoldsAt s k (a ++ b) ↔ HoldsAt s k a ∧ HoldsAt s (k + a.length) b := by
  constructor
  · intro h
    refine ⟨fun j hj => ?_, fun j hj => ?_⟩
    · have := h j (by simp; omega)
      rwa [List.getD_append _ _ _ _ hj] at this
    · have := h (a.length + j) (by simp; omega)
      rw [List.getD_append_right _ _ _ _ (by omega), Nat.add_sub_cancel_left, show k + (a.length + j) = k + a.length + j by omega] at this
      exact this
  · rintro ⟨ha, hb⟩ j hj
    by_cases hja : j < a.length
    · have := ha j hja
      rwa [List.getD_append _ _ _ _ hja]
    · have := hb (j - a.length) (by simp at hj; omega)
      rw [List.getD_append_right _ _ _ _ (by omega)]
      rwa [show k + a.length + (j - a.length) = k + j by omega] at this

theorem holdsAt_cons (s : State) (k : Nat) (b : Bool) (rest : Bits) :
    HoldsAt s k (b :: rest) ↔ HoldsAt s k [b] ∧ HoldsAt s (k + 1) rest :=
  holdsAt_append s k [b] rest

/-- `GetBit` on a bit that is there (R90). -/
theorem getBit_holds {s : State} {k : Nat} {b : Bool} (h : HoldsAt s k [b]) : getBit s k = .ok (b, k + 1) := by
  obtain ⟨h1, h2, h3⟩ := h 0 (by simp)
  simp only [Nat.add_zero, State.sourceBit, List.getD_cons_zero] at h1 h2 h3
  simp only [getBit]
  rw [if_neg (by omega), if_pos h2, h3]

/-- All `GetBit` can do (R90). -/
theorem getBit_cases (s : State) (k : Nat) :
    (s.srcSize.toNat ≤ s.srcPos.toNat + k ∧ getBit s k = .error (.out k)) ∨
    (s.srcPos.toNat + k < s.srcSize.toNat ∧ s.plat.admits (s.srcBase.toNat + (s.srcPos.toNat + k) / 8) = false ∧
      getBit s k = .error .bus) ∨
    (s.srcPos.toNat + k < s.srcSize.toNat ∧ s.plat.admits (s.srcBase.toNat + (s.srcPos.toNat + k) / 8) = true ∧
      getBit s k = .ok (s.sourceBit (s.srcPos.toNat + k), k + 1)) := by
  simp only [getBit, State.sourceBit]
  by_cases h1 : s.srcSize.toNat ≤ s.srcPos.toNat + k
  · simp [h1]
  · cases h2 : s.plat.admits (s.srcBase.toNat + (s.srcPos.toNat + k) / 8) <;> simp [h1] <;> omega

/-- One parser step after another, when the first answers. -/
theorem bind_ok {α β : Type} {p : Parser α} {f : α → Parser β} {k k' : Nat} {a : α} (h : p k = .ok (a, k')) :
    (p >>= f) k = f a k' := by
  simp [bind, StateT.bind, Except.bind, h]

/-- One parser step after another, when the first raises. -/
theorem bind_error {α β : Type} {p : Parser α} {f : α → Parser β} {k : Nat} {e : ParseError} (h : p k = .error e) :
    (p >>= f) k = .error e := by
  simp [bind, StateT.bind, Except.bind, h]

/-- Two parser steps that answer: each answered. -/
theorem bind_inv {α β : Type} {p : Parser α} {f : α → Parser β} {k k' : Nat} {b : β} (h : (p >>= f) k = .ok (b, k')) :
    ∃ a k₁, p k = .ok (a, k₁) ∧ f a k₁ = .ok (b, k') := by
  cases hp : p k with
  | error e => rw [bind_error hp] at h; cases h
  | ok r => exact ⟨r.1, r.2, rfl, by rwa [bind_ok (a := r.1) (k' := r.2) hp] at h⟩

@[simp] theorem pure_run {α : Type} (a : α) (k : Nat) : (pure a : Parser α) k = .ok (a, k) := rfl
@[simp] theorem corrupt_run {α : Type} (k : Nat) : (corrupt : Parser α) k = .error .corrupt := rfl
@[simp] theorem outOfBits_run {α : Type} (k : Nat) : (outOfBits : Parser α) k = .error (.out k) := rfl

theorem lsb_succ (v n : Nat) : lsb v (n + 1) = v.testBit 0 :: lsb (v / 2) n := by
  simp [lsb, List.range_succ_eq_map, List.map_map, Function.comp_def, Nat.testBit_succ]

@[simp] theorem length_lsb (v n : Nat) : (lsb v n).length = n := by simp [lsb]

@[simp] theorem length_msb (v n : Nat) : (msb v n).length = n := by
  induction n with
  | zero => rfl
  | succ n ih => simp [msb, ih]

/-- `GetBitsLSB` reads back what `lsb` wrote (R91). -/
theorem getBitsLSB_holds {s : State} {n v k : Nat} (h : HoldsAt s k (lsb v n)) :
    getBitsLSB s n k = .ok (v % 2 ^ n, k + n) := by
  induction n generalizing v k with
  | zero => simp [getBitsLSB, Nat.mod_one]
  | succ n ih =>
    rw [lsb_succ, holdsAt_cons] at h
    simp only [getBitsLSB]
    rw [bind_ok (getBit_holds h.1), bind_ok (ih h.2), pure_run]
    congr 2
    · have : (v.testBit 0).toNat = v % 2 := by simp [Nat.testBit_zero]; rcases Nat.mod_two_eq_zero_or_one v with h | h <;> simp [h]
      rw [this, Nat.pow_succ, Nat.mul_comm (2 ^ n) 2, Nat.mod_mul]
    · omega

/-- `GetBitsMSB` reads back what `msb` wrote (R91). -/
theorem getBitsMSBFrom_holds {s : State} {n v a k : Nat} (h : HoldsAt s k (msb v n)) :
    getBitsMSBFrom s n a k = .ok (a * 2 ^ n + v % 2 ^ n, k + n) := by
  induction n generalizing a k with
  | zero => simp [getBitsMSBFrom, Nat.mod_one]
  | succ n ih =>
    rw [msb, holdsAt_cons] at h
    simp only [getBitsMSBFrom]
    rw [bind_ok (getBit_holds h.1), ih h.2]
    congr 2
    · have hb : (v.testBit n).toNat = v / 2 ^ n % 2 := by
        rw [Nat.testBit_eq_decide_div_mod_eq]; rcases Nat.mod_two_eq_zero_or_one (v / 2 ^ n) with h | h <;> simp [h]
      rw [hb, Nat.pow_succ, Nat.mod_mul (a := 2 ^ n) (b := 2)]
      ring
    · omega

theorem getBitsMSB_holds {s : State} {n v k : Nat} (h : HoldsAt s k (msb v n)) :
    getBitsMSB s n k = .ok (v % 2 ^ n, k + n) := by
  simpa [getBitsMSB] using getBitsMSBFrom_holds (a := 0) h

/-- `GetBits` of a whole bit string. -/
theorem getBools_holds {s : State} {bits : Bits} {k : Nat} (h : HoldsAt s k bits) :
    getBools s bits.length k = .ok (bits, k + bits.length) := by
  induction bits generalizing k with
  | nil => simp [getBools]
  | cons b rest ih =>
    rw [holdsAt_cons] at h
    simp only [List.length_cons, getBools]
    rw [bind_ok (getBit_holds h.1), bind_ok (ih h.2), pure_run]
    congr 2
    omega

theorem unaryLoop_holds {s : State} {q bound q₀ k : Nat} (hb : q < bound) (h : HoldsAt s k (ones q ++ [false])) :
    unaryLoop s bound q₀ k = .ok (q₀ + q, k + q + 1) := by
  induction q generalizing bound q₀ k with
  | zero =>
    obtain ⟨bound, rfl⟩ : ∃ n, bound = n + 1 := ⟨bound - 1, by omega⟩
    simp only [unaryLoop]
    rw [bind_ok (getBit_holds (by simpa [ones] using h))]
    simp
  | succ q ih =>
    obtain ⟨bound, rfl⟩ : ∃ n, bound = n + 1 := ⟨bound - 1, by omega⟩
    rw [ones, List.replicate_succ, List.cons_append, holdsAt_cons] at h
    simp only [unaryLoop]
    rw [bind_ok (getBit_holds h.1)]
    simp only [if_true]
    rw [ih (by omega) h.2]
    congr 2 <;> omega

/-- `UnaryParse` on a unary codeword (R188). -/
theorem unaryParse_holds {s : State} {q k : Nat} (h : HoldsAt s k (ones q ++ [false])) :
    unaryParse s k = .ok (q, k + q + 1) := by
  have hlast := (h q (by simp [ones])).1
  rw [unaryParse, unaryLoop_holds (by unfold State.bitBudget; omega) h, Nat.zero_add]

theorem gammaZeros_holds {s : State} {n room L₀ k : Nat} (hr : n ≤ room) (h : HoldsAt s k (zeros n ++ [true])) :
    gammaZeros s room L₀ k = .ok (L₀ + n, k + n + 1) := by
  induction n generalizing room L₀ k with
  | zero =>
    have hb := getBit_holds (b := true) (by simpa [zeros] using h)
    cases room <;> · simp only [gammaZeros]; rw [bind_ok hb]; simp
  | succ n ih =>
    obtain ⟨room, rfl⟩ : ∃ m, room = m + 1 := ⟨room - 1, by omega⟩
    rw [zeros, List.replicate_succ, List.cons_append, holdsAt_cons] at h
    simp only [gammaZeros]
    rw [bind_ok (getBit_holds h.1)]
    simp only [Bool.false_eq_true, if_false]
    rw [ih (by omega) h.2]
    congr 2 <;> omega

/-! ### No parser runs past the end -/

/-- A parser that answers has taken bits the source holds, and given none back. -/
def Bounded {α : Type} (s : State) (p : Parser α) : Prop :=
  ∀ k a k', s.srcPos.toNat + k ≤ s.srcSize.toNat → p k = .ok (a, k') → k ≤ k' ∧ s.srcPos.toNat + k' ≤ s.srcSize.toNat

theorem Bounded.pure {α : Type} (s : State) (a : α) : Bounded s (pure a) := by
  intro k b k' hk h
  rw [pure_run, Except.ok.injEq, Prod.mk.injEq] at h
  omega

theorem Bounded.corrupt {α : Type} (s : State) : Bounded s (corrupt : Parser α) := by
  intro k b k' _ h
  rw [corrupt_run] at h
  cases h

theorem Bounded.outOfBits {α : Type} (s : State) : Bounded s (outOfBits : Parser α) := by
  intro k b k' _ h
  rw [outOfBits_run] at h
  cases h

theorem Bounded.bind {α β : Type} {s : State} {p : Parser α} {f : α → Parser β} (hp : Bounded s p) (hf : ∀ a, Bounded s (f a)) :
    Bounded s (p >>= f) := by
  intro k b k' hk h
  obtain ⟨a, k₁, h1, h2⟩ := bind_inv h
  obtain ⟨h3, h4⟩ := hp k a k₁ hk h1
  obtain ⟨h5, h6⟩ := hf a k₁ b k' h4 h2
  omega

theorem Bounded.ite {α : Type} {s : State} {c : Prop} [Decidable c] {p q : Parser α} (hp : Bounded s p) (hq : Bounded s q) :
    Bounded s (if c then p else q) := by
  split <;> assumption

theorem Bounded.getBit (s : State) : Bounded s (getBit s) := by
  intro k b k' _ h
  rcases getBit_cases s k with ⟨_, h'⟩ | ⟨_, _, h'⟩ | ⟨_, _, h'⟩ <;> rw [h'] at h <;> cases h
  omega

theorem Bounded.getBitsMSBFrom (s : State) (n v : Nat) : Bounded s (getBitsMSBFrom s n v) := by
  induction n generalizing v with
  | zero => exact .pure s v
  | succ n ih => exact (Bounded.getBit s).bind fun _ => ih _

theorem Bounded.getBitsMSB (s : State) (n : Nat) : Bounded s (getBitsMSB s n) := Bounded.getBitsMSBFrom s n 0

theorem Bounded.getBitsLSB (s : State) (n : Nat) : Bounded s (getBitsLSB s n) := by
  induction n with
  | zero => exact .pure s 0
  | succ n ih => exact (Bounded.getBit s).bind fun _ => ih.bind fun _ => .pure s _

theorem Bounded.getBools (s : State) (n : Nat) : Bounded s (getBools s n) := by
  induction n with
  | zero => exact .pure s []
  | succ n ih => exact (Bounded.getBit s).bind fun _ => ih.bind fun _ => .pure s _

theorem Bounded.unaryLoop (s : State) (n q : Nat) : Bounded s (unaryLoop s n q) := by
  induction n generalizing q with
  | zero => exact .outOfBits s
  | succ n ih => exact (Bounded.getBit s).bind fun _ => .ite (ih _) (.pure s _)

theorem Bounded.unaryParse (s : State) : Bounded s (unaryParse s) := Bounded.unaryLoop s _ _

theorem Bounded.gammaZeros (s : State) (n L : Nat) : Bounded s (gammaZeros s n L) := by
  induction n generalizing L with
  | zero => exact (Bounded.getBit s).bind fun _ => .ite (.pure s _) (.corrupt s)
  | succ n ih => exact (Bounded.getBit s).bind fun _ => .ite (.pure s _) (ih _)

theorem Bounded.gammaParse (s : State) (n : Nat) : Bounded s (gammaParse n s) :=
  (Bounded.gammaZeros s _ _).bind fun _ => (Bounded.getBitsMSB s _).bind fun _ => .pure s _

theorem Bounded.deltaParse (s : State) : Bounded s (deltaParse s) :=
  (Bounded.gammaParse s _).bind fun _ => .ite (.corrupt s) ((Bounded.getBitsMSB s _).bind fun _ => .pure s _)

theorem Bounded.omegaParseLoop (s : State) (n acc : Nat) : Bounded s (omegaParseLoop s n acc) := by
  induction n generalizing acc with
  | zero => exact .outOfBits s
  | succ n ih =>
    exact (Bounded.getBit s).bind fun _ =>
      .ite (.pure s _) (.ite (.corrupt s) ((Bounded.getBitsMSB s _).bind fun _ => ih _))

theorem Bounded.omegaParse (s : State) : Bounded s (omegaParse s) := Bounded.omegaParseLoop s _ _

theorem Bounded.fibValue (s : State) (m : Nat) : Bounded s (fibValue m) := .ite (.corrupt s) (.pure s _)

theorem Bounded.fibLoop (s : State) (n i m : Nat) (prev : Bool) : Bounded s (fibLoop s n i m prev) := by
  induction n generalizing i m prev with
  | zero => exact (Bounded.getBit s).bind fun _ => .ite (.fibValue s _) (.corrupt s)
  | succ n ih => exact (Bounded.getBit s).bind fun _ => .ite (.fibValue s _) (ih _ _ _)

theorem Bounded.fibParse (s : State) : Bounded s (fibParse s) := Bounded.fibLoop s _ _ _ _

theorem Bounded.riceParse (s : State) (k : Nat) : Bounded s (riceParse k s) :=
  (Bounded.unaryParse s).bind fun _ => .ite (.corrupt s) ((Bounded.getBitsMSB s _).bind fun _ => .pure s _)

theorem Bounded.tbParse (s : State) (m : Nat) : Bounded s (tbParse m s) :=
  .ite (.pure s _) ((Bounded.getBitsMSB s _).bind fun _ => .ite (.pure s _) ((Bounded.getBit s).bind fun _ => .pure s _))

theorem Bounded.golombParse (s : State) (m : Nat) : Bounded s (golombParse m s) :=
  (Bounded.unaryParse s).bind fun _ => .ite (.corrupt s) ((Bounded.tbParse s m).bind fun _ => .ite (.corrupt s) (.pure s _))

theorem Bounded.vbyteLoop (s : State) (n j v : Nat) : Bounded s (vbyteLoop s n j v) := by
  induction n generalizing j v with
  | zero => exact (Bounded.getBitsLSB s 8).bind fun _ => .ite (.corrupt s) (.pure s _)
  | succ n ih => exact (Bounded.getBitsLSB s 8).bind fun _ => .ite (.pure s _) (ih _ _)

theorem Bounded.vbyteParse (s : State) : Bounded s (vbyteParse s) := Bounded.vbyteLoop s _ _ _

theorem Bounded.expGolombParse (s : State) (k : Nat) : Bounded s (expGolombParse k s) :=
  (Bounded.gammaParse s _).bind fun _ => .ite (.corrupt s) ((Bounded.getBitsMSB s _).bind fun _ => .pure s _)

theorem Bounded.fixedParse (s : State) (n : Nat) : Bounded s (fixedParse n s) := Bounded.getBitsLSB s n

theorem Bounded.getFields (w : Nat) (s : State) (n : Nat) : Bounded s (getFields w s n) := by
  induction n with
  | zero => exact .pure s []
  | succ n ih => exact (Bounded.getBitsLSB s w).bind fun _ => ih.bind fun _ => .pure s _

theorem Bounded.skipPad (s : State) : Bounded s (skipPad s) := by
  intro k u k' hk h
  simp only [Machine.skipPad] at h
  split at h
  · cases h
  · rw [Except.ok.injEq, Prod.mk.injEq] at h
    omega

theorem Bounded.wireParse (s : State) : Bounded s (wireParse s) :=
  (Bounded.vbyteParse s).bind fun _ => .ite (.corrupt s)
    ((Bounded.getBools s _).bind fun _ => (Bounded.skipPad s).bind fun _ => (Bounded.getFields 32 s _).bind fun _ =>
      (Bounded.getFields 16 s _).bind fun _ => .pure s _)

end Sys2Proof.Machine
end

