-- ==== Sys2Proof/Laws/Codec.lean ====
section
/-! SUPPORT. All the command templates and the vector's shared operations can do (42_codec_common.md R180, R181; 45_succinct.md). -/
namespace Sys2Proof.Machine

/-- All `encodeWith` can do (R180, R187), in check order. -/
theorem encodeWith_cases (ok : Bool) (codec : Codec) (sgn : Bool) (s : State) :
    (ok = false ∧ encodeWith ok codec sgn s = raise .invalidParameter s) ∨
    (ok = true ∧ codec.dom (encodeOperand sgn s) = false ∧ encodeWith ok codec sgn s = raise .invalidInput s) ∨
    (ok = true ∧ codec.dom (encodeOperand sgn s) = true ∧ s.sinkRoom < codec.len (encodeOperand sgn s) ∧
      encodeWith ok codec sgn s = raise .bufferOverflow s) ∨
    (ok = true ∧ codec.dom (encodeOperand sgn s) = true ∧ codec.len (encodeOperand sgn s) ≤ s.sinkRoom ∧
      encodeWith ok codec sgn s = putBits .encode (codec.word (encodeOperand sgn s)) s) := by
  unfold encodeWith
  cases ok
  · simp
  · cases codec.dom (encodeOperand sgn s)
    · simp
    · by_cases h : s.sinkRoom < codec.len (encodeOperand sgn s)
      · simp [h]
      · simp [h, Nat.le_of_not_lt h]

/-- All `decodeWith` can do (R181, R182, R183). -/
theorem decodeWith_cases (ok : Bool) (parse : State → Parser Nat) (sgn : Bool) (s : State) :
    (ok = false ∧ decodeWith ok parse sgn s = raise .invalidParameter s) ∨
    (ok = true ∧ ∃ e, parse s 0 = .error e ∧ decodeWith ok parse sgn s = raise e.errCode s) ∨
    (ok = true ∧ ∃ u n, parse s 0 = .ok (u, n) ∧
      decodeWith ok parse sgn s = returnValue (decodeResult sgn u) (s.advanceSource n)) := by
  unfold decodeWith
  cases ok
  · simp
  · cases h : parse s 0 with
    | error e => simp
    | ok r => exact Or.inr (Or.inr ⟨rfl, r.1, r.2, rfl, rfl⟩)

/-- A decode whose parser answers (R181). -/
theorem decodeWith_ok {parse : State → Parser Nat} {sgn : Bool} {s : State} {u n : Nat} (h : parse s 0 = .ok (u, n)) :
    decodeWith true parse sgn s =
      { s with busy := false, err := .ok, result := decodeResult sgn u, srcPos := s.srcPos + BitVec.ofNat 64 n } := by
  simp [decodeWith, h, returnValue, State.complete, State.advanceSource]

/-- All a sink write can change (R86, R366): the cursor, PEND and memory when it succeeds; memory, FAULT and FCODE when it ends with
BUS_ERROR. -/
theorem putBits_frame (w : SinkWriter) (bits : Bits) (s : State) :
    (∃ c p m, putBits w bits s = { s.endedWith .ok with sinkCursor := c, pend := p, mem := m }) ∨
    (∃ m, putBits w bits s = { s.faultedWith .busError with mem := m, draws := s.draws + 1 }) := by
  cases bits with
  | nil => exact Or.inl ⟨_, _, _, rfl⟩
  | cons b rest =>
    simp only [putBits]
    split
    · exact Or.inl ⟨_, _, _, rfl⟩
    · exact Or.inr ⟨_, rfl⟩

/-- A sink write keeps memory's canonical form. -/
theorem putBits_wf (w : SinkWriter) (bits : Bits) (s : State) (hm : s.mem.wf) : (putBits w bits s).mem.wf := by
  cases bits with
  | nil => exact hm
  | cons b rest =>
    simp only [putBits]
    split
    · rename_i h
      exact putLoop_wf _ _ _ _ _ _ _ _ _ hm h
    · simpa [sinkBusError] using s.scrambleSink_wf w _ hm

/-! ### The vector -/

@[simp] theorem pc_self (bits : Bits) (a : Nat) : pc bits a a = 0 := by simp [pc, popcount]

/-- PC over a split range (R310). -/
theorem pc_split (bits : Bits) (a b c : Nat) (hab : a ≤ b) (hbc : b ≤ c) : pc bits a c = pc bits a b + pc bits b c := by
  unfold pc popcount
  rw [← List.count_append]
  congr 1
  rw [List.drop_take, List.drop_take, List.drop_take,
    show c - a = (b - a) + (c - b) by omega, List.take_add, List.drop_drop, show a + (b - a) = b by omega]

/-- PC counts at most the cells of its range (R310). -/
theorem pc_le (bits : Bits) (a b : Nat) : pc bits a b ≤ b - a := by
  unfold pc popcount
  refine Nat.le_trans List.count_le_length ?_
  simp
  omega

/-- On a long enough vector, all `rankOf` can answer (R318). -/
theorem rankOf_cases (s : State) (pos : Nat) :
    (pos = 0 ∧ rankOf s pos = 0) ∨ (0 < pos ∧ s.svLen.toNat ≤ pos ∧ rankOf s pos = s.svTotal) ∨
    (0 < pos ∧ pos < s.svLen.toNat ∧ rankOf s pos = BitVec.ofNat 64 (indexedCount s.sb s.bk s.svBits pos pos)) := by
  unfold rankOf
  by_cases h0 : pos = 0
  · simp [h0]
  · by_cases h1 : s.svLen.toNat ≤ pos
    · simp [h0, h1, Nat.pos_of_ne_zero h0]
    · simp [h0, h1, Nat.pos_of_ne_zero h0, Nat.lt_of_not_le h1]

/-- What `nthOne` finds: the k-th 1-bit, with k 1-bits below it (R319). -/
theorem nthOne_spec (bits : Bits) (k : Nat) (h : k < popcount bits) :
    bits.getD (nthOne bits k) false = true ∧ popcount (bits.take (nthOne bits k)) = k ∧ nthOne bits k < bits.length := by
  induction bits generalizing k with
  | nil => simp [popcount] at h
  | cons b rest ih =>
    cases b with
    | true =>
      cases k with
      | zero => simp [nthOne, popcount]
      | succ k =>
        obtain ⟨h1, h2, h3⟩ := ih k (by simpa [popcount] using h)
        simp only [popcount] at h2
        exact ⟨by simpa [nthOne] using h1, by simp [nthOne, popcount, h2], by simpa [nthOne] using h3⟩
    | false =>
      obtain ⟨h1, h2, h3⟩ := ih k (by simpa [popcount] using h)
      simp only [popcount] at h2
      exact ⟨by simpa [nthOne] using h1, by simp [nthOne, popcount, h2], by simpa [nthOne] using h3⟩

/-- All `skipPad` can do (R322). -/
theorem skipPad_cases (s : State) (k : Nat) :
    (s.srcSize.toNat - (s.srcPos.toNat + k) < padTo8 (s.srcPos.toNat + k) ∧ skipPad s k = .error (.out k)) ∨
    (padTo8 (s.srcPos.toNat + k) ≤ s.srcSize.toNat - (s.srcPos.toNat + k) ∧
      skipPad s k = .ok ((), k + padTo8 (s.srcPos.toNat + k))) := by
  simp only [skipPad]
  by_cases h : s.srcSize.toNat - (s.srcPos.toNat + k) < padTo8 (s.srcPos.toNat + k)
  · simp [h]
  · simp [h, Nat.le_of_not_lt h]

/-- `getFields` reads back counts written LSB-first (R320, R322). -/
theorem getFields_holds {w : Nat} {s : State} {xs : List (BitVec w)} {k : Nat}
    (h : HoldsAt s k (xs.flatMap fun x => lsb x.toNat w)) : getFields w s xs.length k = .ok (xs, k + w * xs.length) := by
  induction xs generalizing k with
  | nil => simp [getFields]
  | cons x rest ih =>
    rw [List.flatMap_cons, holdsAt_append, length_lsb] at h
    simp only [List.length_cons, getFields]
    rw [bind_ok (getBitsLSB_holds h.1), bind_ok (ih h.2), pure_run, Nat.mod_eq_of_lt x.isLt]
    simp only [BitVec.ofNat_toNat, BitVec.setWidth_eq, Except.ok.injEq, Prod.mk.injEq, true_and]
    ring

/-- `getFields` answers as many counts as it is asked for. -/
theorem getFields_length {w : Nat} {s : State} {n k k' : Nat} {xs : List (BitVec w)} (h : getFields w s n k = .ok (xs, k')) :
    xs.length = n := by
  induction n generalizing xs k k' with
  | zero =>
    rw [getFields, pure_run, Except.ok.injEq, Prod.mk.injEq] at h
    simp [← h.1]
  | succ n ih =>
    rw [getFields] at h
    obtain ⟨v, k₁, _, h⟩ := bind_inv h
    obtain ⟨rest, k₂, h2, h⟩ := bind_inv h
    rw [pure_run, Except.ok.injEq, Prod.mk.injEq] at h
    simp [← h.1, ih h2]

/-- `getBools` answers as many bits as it is asked for. -/
theorem getBools_length {s : State} {n k k' : Nat} {bits : Bits} (h : getBools s n k = .ok (bits, k')) : bits.length = n := by
  induction n generalizing bits k k' with
  | zero =>
    rw [getBools, pure_run, Except.ok.injEq, Prod.mk.injEq] at h
    simp [← h.1]
  | succ n ih =>
    rw [getBools] at h
    obtain ⟨v, k₁, _, h⟩ := bind_inv h
    obtain ⟨rest, k₂, h2, h⟩ := bind_inv h
    rw [pure_run, Except.ok.injEq, Prod.mk.injEq] at h
    simp [← h.1, ih h2]

/-- What `wireParse` answers: a vector no longer than VMAX, with a cell for each bit and a count for each block and superblock. -/
theorem wireParse_shape {s : State} {k k' : Nat} {v : WireVector} (h : wireParse s k = .ok (v, k')) :
    v.len ≤ s.plat.vmax ∧ v.bits.length = v.len ∧ v.super.length = superCount v.len ∧ v.block.length = blockCount v.len := by
  unfold wireParse at h
  obtain ⟨n, k₁, _, h⟩ := bind_inv h
  split at h
  · cases h
  · rename_i hn
    obtain ⟨bits, k₂, h2, h⟩ := bind_inv h
    obtain ⟨_, k₃, _, h⟩ := bind_inv h
    obtain ⟨sup, k₄, h4, h⟩ := bind_inv h
    obtain ⟨blk, k₅, h5, h⟩ := bind_inv h
    rw [pure_run, Except.ok.injEq, Prod.mk.injEq] at h
    rw [← h.1]
    exact ⟨by simpa using hn, getBools_length h2, getFields_length h4, getFields_length h5⟩

end Sys2Proof.Machine
end

