-- ==== Sys2Proof/Laws/Step.lean ====
section
/-! SUPPORT. What one step can do, said once: the step by what comes next from outside, the engine's step by R367's order, and what
every command leaves alone. -/
namespace Sys2Proof.Machine

theorem step_idle {s : State} (h : s.host = []) (hb : s.busy = false) : step s = .next s := by
  simp [step, stepState, h, hb]

theorem step_busy {s : State} (h : s.host = []) (hb : s.busy = true) : step s = engineStep s := by
  simp [step, stepState, h, hb]

theorem step_event {s : State} {e : HostEvent} {rest : List HostEvent} (h : s.host = e :: rest) :
    step s = eventStep e rest s := by
  simp [step, stepState, h]

/-- All one step can do: idle, the engine's step, or one thing from outside. -/
theorem step_cases {s t : State} (h : step s = .next t) :
    (s.host = [] ∧ s.busy = false ∧ t = s) ∨ (s.host = [] ∧ s.busy = true ∧ engineStep s = .next t) ∨
    (∃ e rest, s.host = e :: rest ∧ eventStep e rest s = .next t) := by
  cases hh : s.host with
  | nil =>
    cases hb : s.busy with
    | false => rw [step_idle hh hb] at h; exact Or.inl ⟨rfl, rfl, (by injection h with h; exact h.symm)⟩
    | true => rw [step_busy hh hb] at h; exact Or.inr (Or.inl ⟨rfl, rfl, h⟩)
  | cons e rest => rw [step_event hh] at h; exact Or.inr (Or.inr ⟨e, rest, rfl, h⟩)

/-- All the engine's step can do (R367). -/
theorem engineStep_cases (s : State) :
    (s.fault = true ∧ engineStep s = .next (raise .faulted s)) ∨
    (s.fault = false ∧ (∃ e, decode s.cmd = .error e) ∧ engineStep s = .next (raise .illegalCommand s)) ∨
    (s.fault = false ∧ ∃ i, decode s.cmd = .ok i ∧ s.raced = true ∧ engineStep s = .next (raceOutcome i s)) ∨
    (s.fault = false ∧ ∃ i, decode s.cmd = .ok i ∧ s.raced = false ∧ engineStep s = exec i s) := by
  unfold engineStep
  cases s.fault
  · cases decode s.cmd with
    | error e => simp
    | ok i => cases s.raced <;> simp
  · simp

/-- All a host read can do (R31, R99). -/
theorem hostRead_cases (addr n : Nat) (s : State) :
    (∃ d k, hostRead addr n s = .next { s with hostData := d, draws := k }) ∨
    hostRead addr n s = .refused .registerAccess ∨ hostRead addr n s = .fault .addressSpace := by
  unfold hostRead
  split
  · split
    · exact Or.inl ⟨_, s.draws, rfl⟩
    · exact Or.inr (Or.inl rfl)
  · split
    · exact Or.inr (Or.inr rfl)
    · exact Or.inl ⟨_, _, rfl⟩

/-- All a register write can do (R31, R34, R40, R43, R44, R45). -/
theorem writeReg_cases (s : State) (off : Nat) (v : Word) :
    s.writeReg off v = s ∨
    (s.busy = true ∧ s.writeReg off v = s.dropWrite) ∨
    (s.busy = false ∧ off = 8 ∧ v.getLsbD 0 = true ∧ s.writeReg off v = s.engineReset) ∨
    (s.busy = false ∧ off = 0x18 ∧ s.writeReg off v = s.accept v) ∨
    (s.busy = false ∧ off = 0x20 ∧ s.writeReg off v = { s with arg0 := v }) ∨
    (s.busy = false ∧ off = 0x28 ∧ s.writeReg off v = { s with arg1 := v }) := by
  unfold State.writeReg
  split
  · cases s.busy <;> cases v.getLsbD 0 <;> simp
  · cases s.busy <;> simp
  · cases s.busy <;> simp
  · cases s.busy <;> simp
  · exact Or.inl rfl

/-- All a host write can do (R31, R99). -/
theorem hostWrite_cases (addr : Nat) (bytes : List Byte) (s : State) :
    (hostWrite addr bytes s = .next (s.writeReg (addr - s.plat.mmioBase) (BitVec.ofNat 64 (ofLanes bytes)))) ∨
    (hostWrite addr bytes s =
      .next { s with mem := s.mem.writeBytes addr bytes, raced := s.raced || s.anyRace addr bytes.length }) ∨
    hostWrite addr bytes s = .refused .registerAccess ∨ hostWrite addr bytes s = .fault .addressSpace := by
  unfold hostWrite
  split
  · split
    · exact Or.inl rfl
    · exact Or.inr (Or.inr (Or.inl rfl))
  · split
    · exact Or.inr (Or.inr (Or.inr rfl))
    · exact Or.inr (Or.inl rfl)

/-- The fields no command ever changes, and BUSY, which every command clears. -/
structure Untouched (s t : State) : Prop where
  plat : t.plat = s.plat
  cmd : t.cmd = s.cmd
  arg0 : t.arg0 = s.arg0
  arg1 : t.arg1 = s.arg1
  proto : t.proto = s.proto
  host : t.host = s.host
  hostData : t.hostData = s.hostData
  raced : t.raced = s.raced
  nfBefore : t.nfBefore = s.nfBefore
  busy : t.busy = false

theorem Untouched.raise (e : ErrCode) (s : State) : Untouched s (raise e s) := by constructor <;> simp

theorem Untouched.putBits (w : SinkWriter) (bits : Bits) (s : State) : Untouched s (putBits w bits s) := by
  rcases putBits_frame w bits s with ⟨c, p, m, h⟩ | ⟨m, h⟩ <;> rw [h] <;> constructor <;> rfl

theorem Untouched.encodeWith (ok : Bool) (codec : Codec) (sgn : Bool) (s : State) : Untouched s (encodeWith ok codec sgn s) := by
  rcases encodeWith_cases ok codec sgn s with ⟨_, h⟩ | ⟨_, _, h⟩ | ⟨_, _, _, h⟩ | ⟨_, _, _, h⟩ <;> rw [h]
  · exact .raise _ s
  · exact .raise _ s
  · exact .raise _ s
  · exact .putBits _ _ s

theorem Untouched.decodeWith (ok : Bool) (parse : State → Parser Nat) (sgn : Bool) (s : State) :
    Untouched s (decodeWith ok parse sgn s) := by
  rcases decodeWith_cases ok parse sgn s with ⟨_, h⟩ | ⟨_, e, _, h⟩ | ⟨_, u, n, _, h⟩ <;> rw [h]
  · exact .raise _ s
  · exact .raise _ s
  · constructor <;> simp

theorem Untouched.ite {c : Prop} [Decidable c] {s a b : State} (ha : Untouched s a) (hb : Untouched s b) :
    Untouched s (if c then a else b) := by
  split <;> assumption

/-- Every command answers a next state, and leaves these fields alone. -/
theorem exec_untouched (i : Instr) (s : State) : ∃ t, exec i s = .next t ∧ Untouched s t := by
  cases i with
  | sinkInit => exact ⟨_, rfl, .ite (.raise _ s) (by constructor <;> rfl)⟩
  | writeBit => exact ⟨_, rfl, .ite (.raise _ s) (.ite (.raise _ s) (.putBits _ _ s))⟩
  | writeBits => exact ⟨_, rfl, .ite (.raise _ s) (.ite (.raise _ s) (.putBits _ _ s))⟩
  | align => exact ⟨_, rfl, .ite (.raise _ s) (.putBits _ _ s)⟩
  | hasSpace => exact ⟨_, rfl, by constructor <;> rfl⟩
  | bitsWritten => exact ⟨_, rfl, by constructor <;> rfl⟩
  | bytesWritten => exact ⟨_, rfl, by constructor <;> rfl⟩
  | srcInit => exact ⟨_, rfl, .ite (.raise _ s) (by constructor <;> rfl)⟩
  | readBit =>
    refine ⟨_, rfl, .ite (.raise _ s) ?_⟩
    split
    · constructor <;> rfl
    · exact .raise _ s
  | readBits =>
    refine ⟨_, rfl, .ite (.raise _ s) (.ite (.raise _ s) ?_)⟩
    split
    · constructor <;> rfl
    · exact .raise _ s
  | atEnd => exact ⟨_, rfl, by constructor <;> rfl⟩
  | remaining => exact ⟨_, rfl, by constructor <;> rfl⟩
  | skipBits => exact ⟨_, rfl, .ite (.raise _ s) (by constructor <;> rfl)⟩
  | srcReset => exact ⟨_, rfl, by constructor <;> rfl⟩
  | srcAlign => exact ⟨_, rfl, .ite (.raise _ s) (by constructor <;> rfl)⟩
  | encUnary sgn => exact ⟨_, rfl, .encodeWith _ _ _ s⟩
  | decUnary sgn => exact ⟨_, rfl, .decodeWith _ _ _ s⟩
  | encGamma sgn => exact ⟨_, rfl, .encodeWith _ _ _ s⟩
  | decGamma sgn => exact ⟨_, rfl, .decodeWith _ _ _ s⟩
  | encDelta sgn => exact ⟨_, rfl, .encodeWith _ _ _ s⟩
  | decDelta sgn => exact ⟨_, rfl, .decodeWith _ _ _ s⟩
  | encOmega sgn => exact ⟨_, rfl, .encodeWith _ _ _ s⟩
  | decOmega sgn => exact ⟨_, rfl, .decodeWith _ _ _ s⟩
  | encFib sgn => exact ⟨_, rfl, .encodeWith _ _ _ s⟩
  | decFib sgn => exact ⟨_, rfl, .decodeWith _ _ _ s⟩
  | encRice k sgn => exact ⟨_, rfl, .encodeWith _ _ _ s⟩
  | decRice k sgn => exact ⟨_, rfl, .decodeWith _ _ _ s⟩
  | encGolomb sgn => exact ⟨_, rfl, .encodeWith _ _ _ s⟩
  | decGolomb sgn => exact ⟨_, rfl, .decodeWith _ _ _ s⟩
  | encVByte sgn => exact ⟨_, rfl, .encodeWith _ _ _ s⟩
  | decVByte sgn => exact ⟨_, rfl, .decodeWith _ _ _ s⟩
  | encExpG k sgn => exact ⟨_, rfl, .encodeWith _ _ _ s⟩
  | decExpG k sgn => exact ⟨_, rfl, .decodeWith _ _ _ s⟩
  | encFixed n sgn => exact ⟨_, rfl, .encodeWith _ _ _ s⟩
  | decFixed n sgn => exact ⟨_, rfl, .decodeWith _ _ _ s⟩
  | svInit => exact ⟨_, rfl, .ite (.raise _ s) (.ite (.raise _ s) (by constructor <;> rfl))⟩
  | svSet => exact ⟨_, rfl, .ite (.raise _ s) (by constructor <;> rfl)⟩
  | svReset => exact ⟨_, rfl, .ite (.raise _ s) (by constructor <;> rfl)⟩
  | svFlip => exact ⟨_, rfl, .ite (.raise _ s) (by constructor <;> rfl)⟩
  | svGet => exact ⟨_, rfl, .ite (.raise _ s) (by constructor <;> rfl)⟩
  | svBuild => exact ⟨_, rfl, by constructor <;> rfl⟩
  | svRank => exact ⟨_, rfl, .ite (.raise _ s) (by constructor <;> rfl)⟩
  | svSelect =>
    exact ⟨_, rfl, .ite (.raise _ s) (.ite (by constructor <;> rfl) (.ite (by constructor <;> rfl) (by constructor <;> rfl)))⟩
  | svEncode => exact ⟨_, rfl, .ite (.raise _ s) (.ite (.raise _ s) (.putBits _ _ s))⟩
  | svDecode =>
    refine ⟨_, rfl, ?_⟩
    split
    · constructor <;> rfl
    · exact .raise _ s

/-! ### The register block -/

/-- The lanes of a word assemble to it (R32). -/
theorem ofLanes_lanes (w : Word) : BitVec.ofNat 64 (ofLanes (lanes w)) = w := by
  apply BitVec.eq_of_toNat_eq
  simp [lanes, ofLanes, List.range_succ, BitVec.extractLsb'_toNat, Nat.shiftRight_eq_div_pow]
  omega

@[simp] theorem length_lanes (w : Word) : (lanes w).length = 8 := by simp [lanes]

/-- A naturally aligned eight-byte access at an offset of the block is a register access (R30, R31). -/
theorem block_access (p : Platform) (off : Nat) (h : off < 256) (h8 : off % 8 = 0) :
    (BitVec.ofNat 64 (p.mmioBase + off)).toNat = p.mmioBase + off ∧ touchesBlock p (p.mmioBase + off) 8 = true ∧
    wholeRegister (p.mmioBase + off) 8 = true := by
  have hp := p.mmioPage.isLt
  refine ⟨?_, ?_, ?_⟩
  · rw [BitVec.toNat_ofNat]
    unfold Platform.mmioBase
    omega
  · unfold touchesBlock
    exact decide_eq_true ⟨by omega, by omega⟩
  · unfold wholeRegister Platform.mmioBase
    exact decide_eq_true ⟨rfl, by omega⟩

/-- A host write of a register: what the step is (R31, R32). -/
theorem step_regWrite {s : State} {rest : List HostEvent} {off : Nat} {w : Word} (h : off < 256) (h8 : off % 8 = 0)
    (hh : s.host = .write (BitVec.ofNat 64 (s.plat.mmioBase + off)) (lanes w) :: rest) :
    step s = .next (State.writeReg { s with host := rest } off w) := by
  obtain ⟨h1, h2, h3⟩ := block_access s.plat off h h8
  rw [step_event hh]
  simp only [eventStep, hostWrite, h1, length_lanes, h2, h3, if_true, ofLanes_lanes, Nat.add_sub_cancel_left]

/-- A host read of a register: what the step is (R31, R32). -/
theorem step_regRead {s : State} {rest : List HostEvent} {off : Nat} (h : off < 256) (h8 : off % 8 = 0)
    (hh : s.host = .read (BitVec.ofNat 64 (s.plat.mmioBase + off)) 8 :: rest) :
    step s = .next { s with host := rest, hostData := lanes (State.readReg { s with host := rest } off) } := by
  obtain ⟨h1, h2, h3⟩ := block_access s.plat off h h8
  rw [step_event hh]
  simp only [eventStep, hostRead, h1, h2, h3, if_true, Nat.add_sub_cancel_left]

end Sys2Proof.Machine
end

