-- ==== Sys2Proof/Certificates/Slice0/Obligations.lean ====
section
/-! DEFINITION. The statements for the provers. Each docstring names the rules of spec/ it formalises. -/

open Sys2Proof Sys2Proof.Machine

/-! ### The command word -/

/-- R110, R113, R120: decoding the word of a well-formed command gives the command back. -/
def Obligations.DecodeEncodeAgree : Prop :=
  ∀ i : Instr, i.wellFormed = true → decode (encode i) = .ok i

/-- R110, R113: a word that decodes is the word of the command it decodes to, so every command has one word. -/
def Obligations.EncodeDecodeAgree : Prop :=
  ∀ (w : Word) (i : Instr), decode w = .ok i → i.wellFormed = true ∧ encode i = w

/-- R115: the legal words, clause by clause. -/
def Obligations.LegalWords : Prop :=
  ∀ w : Word, (∃ i, decode w = .ok i) ↔
    w.extractLsb' 16 48 = 0 ∧
    (1 ≤ (w.extractLsb' 0 8).toNat ∧ (w.extractLsb' 0 8).toNat ≤ 0x0F ∨
      0x20 ≤ (w.extractLsb' 0 8).toNat ∧ (w.extractLsb' 0 8).toNat ≤ 0x33 ∨
      0x40 ≤ (w.extractLsb' 0 8).toNat ∧ (w.extractLsb' 0 8).toNat ≤ 0x49) ∧
    (w.getLsbD 15 = false ∨ 0x20 ≤ (w.extractLsb' 0 8).toNat ∧ (w.extractLsb' 0 8).toNat ≤ 0x33) ∧
    (w.extractLsb' 8 7 = 0 ∨ (w.extractLsb' 0 8).toNat ∈ [0x2A, 0x2B, 0x30, 0x31, 0x32, 0x33])

/-- R118, R120 and 95_test_vectors.md L2.5: words written out, and what they decode to. -/
def Obligations.SampleWordsDecode : Prop :=
  decode 0x22#64 = .ok (.encGamma false) ∧ decode 0x32A#64 = .ok (.encRice 3 false) ∧
  decode 0x8231#64 = .ok (.decExpG 2 true) ∧ decode 0x1032#64 = .ok (.encFixed 16 false) ∧
  decode 0x1#64 = .ok .sinkInit ∧ decode 0xF#64 = .ok .srcAlign ∧ decode 0x49#64 = .ok .svDecode ∧
  decode 0x0#64 = .error .reservedOpcode ∧ decode 0x4A#64 = .error .reservedOpcode ∧
  decode 0x10022#64 = .error .reservedBits ∧ decode 0x8001#64 = .error .signedModifier ∧
  decode 0x122#64 = .error .parameter

/-! ### Steps -/

/-- R97, R367: a command in flight whose word decodes runs as that command, whether nothing is to come from outside, the engine's step is
placed next, or the host is polling. (Where the engine's step falls, on an empty list of the host's, at an `engine` event or under a `wait`,
is the model's placement: DESIGN CHOICE, notes/assumptions/4.md.) -/
def Obligations.StepRunsDecodedCommand : Prop :=
  ∀ (s : State) (i : Instr), s.busy = true → s.fault = false → s.raced = false → decode s.cmd = .ok i →
    (s.host = [] → step s = exec i s) ∧
    (∀ rest, s.host = .engine :: rest → step s = exec i { s with host := rest }) ∧
    (∀ rest, s.host = .wait :: rest → step s = exec i s)

/-- R116, R365: what the engine does with a word written to CMD while FAULT = 1, and with an illegal word: BUSY, ERR, NF and CMD, and
nothing else (`raced` and `nfBefore` are the model's own). -/
def Obligations.FaultedAndIllegalWordsEnd : Prop :=
  ∀ (s : State) (w : Word), s.host = [] →
    (s.fault = true →
      step (s.accept w) = .next { s with cmd := w, busy := false, err := .faulted, nf := false, nfBefore := s.nf, raced := false }) ∧
    (s.fault = false → (∃ e, decode w = .error e) →
      step (s.accept w) = .next { s with cmd := w, busy := false, err := .illegalCommand, nf := false, nfBefore := s.nf, raced := false })

/-! ### Reset and the register block -/

/-- R65, R400: after reset every register of the block reads 0 but CAPS, which reads VMAX; PEND is 0, nothing is in flight, the index is
Unindexed and n = 0. -/
def Obligations.ResetLeavesRegisters : Prop :=
  ∀ p : Platform, p.Valid →
    (∀ off < 256, (State.resetOn p).readReg off = if off = 0 then BitVec.ofNat 64 p.vmax else 0) ∧
    (State.resetOn p).pend = 0 ∧ (State.resetOn p).busy = false ∧ (State.resetOn p).index = .unindexed ∧
    (State.resetOn p).svLen = 0

/-- R34, R400, R402, R403: a write of a word with bit 0 = 1 to CTRL resets the engine and leaves memory alone while BUSY = 0, and is dropped
with PROTO ← 1 while BUSY = 1; with bit 0 = 0 and BUSY = 0 it does nothing; a power-on reset resets the engine whatever it is doing. (That a
power-on may come with a command in flight, drops it and leaves memory alone is the model's reading: DEDUCED, unsafe,
notes/assumptions/12.md.) -/
def Obligations.ResetsRestartTheEngine : Prop :=
  ∀ (s : State) (rest : List HostEvent),
    (∀ w : Word, s.host = .write (BitVec.ofNat 64 (s.plat.mmioBase + 0x08)) (lanes w) :: rest →
      (s.busy = false → w.getLsbD 0 = true → step s = .next
        { State.resetOn s.plat with mem := s.mem, host := rest, hostData := s.hostData, draws := s.draws }) ∧
      (s.busy = false → w.getLsbD 0 = false → step s = .next { s with host := rest }) ∧
      (s.busy = true → w.getLsbD 0 = true → step s = .next { s with host := rest, proto := true })) ∧
    (s.host = .powerOn :: rest → step s = .next
      { State.resetOn s.plat with mem := s.mem, host := rest, hostData := s.hostData, draws := s.draws })

/-- R43, R44, R45, R36, R406: while BUSY = 0 a write to CMD puts the word in flight with ERR ← 0 and NF ← 0, and reads back; a write to ARG0
or ARG1 sets it. A read of any other register before BUSY = 0, of STATUS.NF too, returns the value from before the command, ERR = 0 apart, and
no step but a reset or the end of the command changes any of them, but for PROTO. (That NF, cleared at the CMD write, reads so only from
BUSY = 0 on is how the model takes R36 and R406 together: DEDUCED, notes/assumptions/18.md.) -/
def Obligations.IdleRegisterWritesLand : Prop :=
  (∀ (s : State) (rest : List HostEvent) (w : Word), s.busy = false →
    (s.host = .write (BitVec.ofNat 64 (s.plat.mmioBase + 0x18)) (lanes w) :: rest →
      ∃ t, step s = .next t ∧ t.readReg 0x18 = w ∧
        t = { s with host := rest, cmd := w, busy := true, err := .ok, nf := false, nfBefore := s.nf, raced := false } ∧
        (∀ off, off ≠ 0x10 → off ≠ 0x18 → t.readReg off = s.readReg off) ∧
        t.status.getLsbD 0 = true ∧ t.status.extractLsb' 8 8 = 0 ∧
        t.status.getLsbD 2 = s.nf ∧ ∀ k, 1 ≤ k ∧ k < 8 ∨ 16 ≤ k → t.status.getLsbD k = s.status.getLsbD k) ∧
    (s.host = .write (BitVec.ofNat 64 (s.plat.mmioBase + 0x20)) (lanes w) :: rest →
      step s = .next { s with host := rest, arg0 := w }) ∧
    (s.host = .write (BitVec.ofNat 64 (s.plat.mmioBase + 0x28)) (lanes w) :: rest →
      step s = .next { s with host := rest, arg1 := w })) ∧
  (∀ s t : State, s.busy = true → step s = .next t → t.busy = true →
    t = { s with host := t.host, hostData := t.hostData, mem := t.mem, proto := t.proto, raced := t.raced, draws := t.draws } ∧
    (∀ off, off ≠ 0x10 → t.readReg off = s.readReg off) ∧ ∀ k, k ≠ 4 → t.status.getLsbD k = s.status.getLsbD k)

/-- R40: while BUSY = 1 a write to CMD, ARG0, ARG1 or CTRL is dropped and sets PROTO, and only a reset clears PROTO. (That a CTRL write with
bit 0 = 0 counts too is read from R40; notes/assumptions/6.md.) -/
def Obligations.BusyWritesSetProto : Prop :=
  (∀ (s : State) (rest : List HostEvent) (off : Nat) (w : Word), off ∈ [0x08, 0x18, 0x20, 0x28] → s.busy = true →
    s.host = .write (BitVec.ofNat 64 (s.plat.mmioBase + off)) (lanes w) :: rest →
    step s = .next { s with host := rest, proto := true }) ∧
  (∀ s t : State, s.proto = true → step s = .next t → t.proto = true ∨ s.resetComing = true)

/-- R30, R31: what each offset of the block reads, through aligned eight-byte accesses; a write to a reserved offset or to a read-only
register changes nothing, a read changes no register; any other access of the block is refused. (That an access which reaches into the block
from outside, or one of no bytes inside it, is such an access is the model's reading: DEDUCED, notes/assumptions/11.md.) -/
def Obligations.RegisterAccessRules : Prop :=
  ∀ (s : State) (rest : List HostEvent),
    (∀ off < 256, off % 8 = 0 → s.host = .read (BitVec.ofNat 64 (s.plat.mmioBase + off)) 8 :: rest →
      step s = .next { s with host := rest, hostData := lanes (s.readReg off) } ∧
      (off = 0x00 → s.readReg off = s.caps) ∧ (off = 0x08 → s.readReg off = 0) ∧ (off = 0x10 → s.readReg off = s.status) ∧
      (off = 0x18 → s.readReg off = s.cmd) ∧ (off = 0x20 → s.readReg off = s.arg0) ∧ (off = 0x28 → s.readReg off = s.arg1) ∧
      (off = 0x30 → s.readReg off = s.result) ∧ (off = 0x40 → s.readReg off = s.sinkBase) ∧
      (off = 0x48 → s.readReg off = s.sinkCap) ∧ (off = 0x50 → s.readReg off = s.sinkCursor) ∧
      (off = 0x60 → s.readReg off = s.srcBase) ∧ (off = 0x68 → s.readReg off = s.srcSize) ∧
      (off = 0x70 → s.readReg off = s.srcPos) ∧ (off = 0x80 → s.readReg off = s.svLen) ∧
      (off = 0x88 → s.readReg off = s.svTotal) ∧ (off ∈ [0x38, 0x58, 0x78] ∨ 0x90 ≤ off → s.readReg off = 0)) ∧
    (∀ off < 256, off % 8 = 0 → off ∉ [0x08, 0x18, 0x20, 0x28] → ∀ w : Word,
      s.host = .write (BitVec.ofNat 64 (s.plat.mmioBase + off)) (lanes w) :: rest → step s = .next { s with host := rest }) ∧
    (∀ (addr : Word) (n : Nat), touchesBlock s.plat addr.toNat n = true → ¬ (n = 8 ∧ addr.toNat % 8 = 0) →
      s.host = .read addr n :: rest → step s = .refused .registerAccess) ∧
    (∀ (addr : Word) (bytes : List Byte), touchesBlock s.plat addr.toNat bytes.length = true →
      ¬ (bytes.length = 8 ∧ addr.toNat % 8 = 0) → s.host = .write addr bytes :: rest → step s = .refused .registerAccess)

/-- R33, R35, R39, R360: where the fields of STATUS and CAPS stand, every other bit reading 0; the number of each error code, and which codes
are fatal; and no step changes CAPS. NF reads as the field, and while BUSY = 1 as its value
from before the command (R406 beside R36: DEDUCED, notes/assumptions/18.md). -/
def Obligations.StatusAndCapsFields : Prop :=
  (∀ s : State,
    s.status.getLsbD 0 = s.busy ∧ s.status.getLsbD 1 = s.fault ∧
    s.status.getLsbD 2 = (if s.busy then s.nfBefore else s.nf) ∧
    s.status.getLsbD 3 = decide (s.index = .indexed) ∧ s.status.getLsbD 4 = s.proto ∧
    s.status.extractLsb' 8 8 = s.err.code ∧ s.status.extractLsb' 16 8 = s.fcode.code ∧
    (∀ i, 5 ≤ i ∧ i < 8 ∨ 24 ≤ i → s.status.getLsbD i = false) ∧
    (s.plat.Valid → (s.caps.extractLsb' 0 32).toNat = s.plat.vmax ∧ s.caps.extractLsb' 32 32 = 0)) ∧
  ([ErrCode.ok, .bufferOverflow, .bufferUnderflow, .invalidParameter, .invalidInput, .incompleteData, .illegalCommand, .staleIndex,
      .faulted, .busError].map ErrCode.code = [0, 1, 2, 3, 4, 5, 6, 7, 8, 9]) ∧
  (∀ e : ErrCode, e.fatal = true ↔ e = .staleIndex ∨ e = .busError) ∧
  (∀ s t : State, step s = .next t → t.plat = s.plat ∧ t.caps = s.caps)

/-- R98, R99, R408: a host read of platform memory returns the bytes at rising addresses, but for those the command in flight writes, which
are unspecified; a host write stores its bytes there and nowhere else. With nothing in flight no access races. A read races on a byte the
command in flight stores (`State.stores`); a write races, and marks the command raced, on a byte of the sink buffer of a command that writes
the sink, or of the source buffer of one that reads the source (the model's reading: DEDUCED, notes/assumptions/7.md). An access that would
run past address 2^64−1 stops the machine with a fault (the model's: DEDUCED, notes/assumptions/10.md). `raced` and `draws` are the
model's own. -/
def Obligations.HostMemoryAccesses : Prop :=
  ∀ (s : State) (rest : List HostEvent) (addr : Word), s.mem.wf →
    (∀ n, touchesBlock s.plat addr.toNat n = false → s.host = .read addr n :: rest →
      (addr.toNat + n ≤ 2 ^ 64 → ∃ d, step s = .next { s with host := rest, hostData := d, draws := s.draws + 1 } ∧ d.length = n ∧
        ∀ j < n, s.readRaces (addr.toNat + j) = false → d.getD j 0 = s.mem.read (addr.toNat + j)) ∧
      (2 ^ 64 < addr.toNat + n → step s = .fault .addressSpace)) ∧
    (∀ bytes : List Byte, touchesBlock s.plat addr.toNat bytes.length = false → s.host = .write addr bytes :: rest →
      (addr.toNat + bytes.length ≤ 2 ^ 64 → ∃ t, step s = .next t ∧ t = { s with host := rest, mem := t.mem, raced := t.raced } ∧
        (t.raced = true ↔ s.raced = true ∨ ∃ j < bytes.length, s.writeRaces (addr.toNat + j) = true) ∧
        ∀ a, t.mem.read a =
          if addr.toNat ≤ a ∧ a < addr.toNat + bytes.length then bytes.getD (a - addr.toNat) 0 else s.mem.read a) ∧
      (2 ^ 64 < addr.toNat + bytes.length → step s = .fault .addressSpace)) ∧
    (∀ a, s.readRaces a = true ↔ s.busy = true ∧ s.fault = false ∧ ∃ i, decode s.cmd = .ok i ∧ s.stores i a = true) ∧
    (∀ a, s.writeRaces a = true ↔ s.busy = true ∧ s.fault = false ∧ ∃ i, decode s.cmd = .ok i ∧
      (writesSink i = true ∧ s.sinkBase.toNat ≤ a ∧ a < s.sinkBase.toNat + ceilDiv s.sinkCap.toNat 8 ∨
        readsSource i = true ∧ s.srcBase.toNat ≤ a ∧ a < s.srcBase.toNat + ceilDiv s.srcSize.toNat 8))

/-! ### Invariants -/

/-- Memory keeps its canonical form at every step (the model's own form of R80; notes/assumptions/3.md). -/
def Obligations.StepKeepsMemoryForm : Prop :=
  ∀ s t : State, s.mem.wf → step s = .next t → t.mem.wf

/-- R49, R50, R53, R105: every step keeps SINK_CURSOR ≤ SINK_CAP, SRC_POS ≤ SRC_SIZE, both buffers inside the address space, and PEND zero from
the cursor's bit up. -/
def Obligations.StepKeepsStreamInvariants : Prop :=
  ∀ s t : State, StreamInv s → step s = .next t → StreamInv t

/-- R13, R54, R56, R57, R58: every step keeps SV_LEN ≤ VMAX and the shape of the three RAMs. -/
def Obligations.StepKeepsVectorInvariants : Prop :=
  ∀ s t : State, VectorInv s → step s = .next t → VectorInv t

/-- R36, R38, R41, R42: every step keeps the STATUS invariants. (The field NF is 0 while BUSY = 1; a read of it shows that only from
BUSY = 0 on: notes/assumptions/18.md. That only a command that will run is raced is the model's: notes/assumptions/7.md.) -/
def Obligations.StepKeepsStatusInvariants : Prop :=
  ∀ s t : State, StatusInv s → step s = .next t → StatusInv t

/-- R65: reset has every invariant, on every platform with VMAX in its range. -/
def Obligations.ResetHasInvariants : Prop :=
  ∀ p : Platform, p.Valid → (State.resetOn p).mem.wf ∧ StreamInv (State.resetOn p) ∧ VectorInv (State.resetOn p) ∧
    StatusInv (State.resetOn p)

/-- R87, R184, R366: no command stores a byte outside its sink range: from the byte at the cursor to the last byte of the buffer; unless it
ends with BUS_ERROR, to the byte of the last bit written; and with BUS_ERROR too, to the byte of the last bit it would have written
(`State.stores`, over the length `sinkLength`, which is what a command that succeeds appends; that it holds only admitted bytes in a stream
command and the whole range in an encode is the model's reading of U4: DEDUCED, notes/assumptions/8.md). -/
def Obligations.OnlySinkBytesChange : Prop :=
  ∀ (i : Instr) (s t : State), s.mem.wf → StreamInv s → exec i s = .next t →
    (∀ a, a < s.sinkBase.toNat + s.sinkCursor.toNat / 8 ∨ s.sinkBase.toNat + ceilDiv s.sinkCap.toNat 8 ≤ a →
      t.mem.read a = s.mem.read a) ∧
    (t.err ≠ .busError → ∀ a,
      a < s.sinkBase.toNat + s.sinkCursor.toNat / 8 ∨ s.sinkBase.toNat + ceilDiv t.sinkCursor.toNat 8 ≤ a →
      t.mem.read a = s.mem.read a) ∧
    (∀ a, s.stores i a = false → t.mem.read a = s.mem.read a) ∧
    (∀ a, s.stores i a = true → s.sinkBase.toNat + s.sinkCursor.toNat / 8 ≤ a ∧
      a < s.sinkBase.toNat + ceilDiv (s.sinkCursor.toNat + sinkLength i s) 8) ∧
    (writesSink i = true → t.err = .ok → t.sinkCursor.toNat = s.sinkCursor.toNat + sinkLength i s)

/-- R37, R364: FAULT is sticky: while it is 1 no step but a reset changes FAULT, FCODE, RESULT, the streams or the vector. -/
def Obligations.FaultStateIsSticky : Prop :=
  ∀ s t : State, s.fault = true → step s = .next t → s.resetComing = false →
    t.fault = true ∧ t.fcode = s.fcode ∧ t.result = s.result ∧
    t.sinkBase = s.sinkBase ∧ t.sinkCap = s.sinkCap ∧ t.sinkCursor = s.sinkCursor ∧ t.pend = s.pend ∧
    t.srcBase = s.srcBase ∧ t.srcSize = s.srcSize ∧ t.srcPos = s.srcPos ∧
    t.svLen = s.svLen ∧ t.svTotal = s.svTotal ∧ t.svBits = s.svBits ∧ t.sb = s.sb ∧ t.bk = s.bk ∧ t.index = s.index

/-- R362: a command that ends with a code from 1 to 6 changes BUSY and ERR and nothing else (its issue has cleared NF). -/
def Obligations.NonFatalErrorsChangeOnlyStatus : Prop :=
  (∀ (i : Instr) (s t : State), exec i s = .next t → t.err ≠ .ok → t.err.fatal = false →
    t = { s with busy := false, err := t.err }) ∧
  (∀ (s : State) (e : Illegal), s.fault = false → decode s.cmd = .error e →
    engineStep s = .next { s with busy := false, err := .illegalCommand })

/-- R364, R366: a command that ends with a fatal code sets FAULT and FCODE; RESULT, the stream registers and the vector keep their values, and
a STALE_INDEX leaves memory alone too. -/
def Obligations.FatalErrorsEnterFaultState : Prop :=
  ∀ (i : Instr) (s t : State), exec i s = .next t → t.err.fatal = true →
    t = { s with busy := false, err := t.err, fault := true, fcode := t.err, mem := t.mem, draws := t.draws } ∧
    (t.err = .staleIndex → t.mem = s.mem)

/-- R363: SV_RANK, SV_SELECT and SV_ENCODE on an Unindexed vector end with STALE_INDEX, whatever the operand, and enter the fault state. -/
def Obligations.StaleIndexFaults : Prop :=
  ∀ s : State, s.index = .unindexed →
    exec .svRank s = .next { s with busy := false, err := .staleIndex, fault := true, fcode := .staleIndex } ∧
    exec .svSelect s = .next { s with busy := false, err := .staleIndex, fault := true, fcode := .staleIndex } ∧
    exec .svEncode s = .next { s with busy := false, err := .staleIndex, fault := true, fcode := .staleIndex }

/-- R46: RESULT changes only in a command that returns a value (R113) and ends with OK. -/
def Obligations.ResultOnlyOnSuccess : Prop :=
  ∀ (i : Instr) (s t : State), exec i s = .next t → t.err ≠ .ok ∨ returnsValue i = false → t.result = s.result

/-! ### Bit-stream commands -/

/-- R140, R147: SINK_INIT and SRC_INIT open a buffer inside the address space and refuse any other. -/
def Obligations.BuffersOpen : Prop :=
  ∀ s : State,
    (s.arg0.toNat + (s.arg1.toNat + 7) / 8 ≤ 2 ^ 64 →
      exec .sinkInit s = .next
        { s with busy := false, err := .ok, sinkBase := s.arg0, sinkCap := s.arg1, sinkCursor := 0, pend := 0 } ∧
      exec .srcInit s = .next { s with busy := false, err := .ok, srcBase := s.arg0, srcSize := s.arg1, srcPos := 0 }) ∧
    (2 ^ 64 < s.arg0.toNat + (s.arg1.toNat + 7) / 8 →
      exec .sinkInit s = .next { s with busy := false, err := .invalidParameter } ∧
      exec .srcInit s = .next { s with busy := false, err := .invalidParameter })

/-- R141: WRITE_BIT appends one bit, and its errors in order; a BUS_ERROR leaves memory as it was (R366: the access is not
made). NF keeps the 0 of its issue (R38), here and below. -/
def Obligations.WriteBitAppends : Prop :=
  ∀ s : State, s.mem.wf → StreamInv s →
    (s.arg0.toNat ≤ 1 → s.sinkCursor.toNat + 1 ≤ s.sinkCap.toNat → SinkAdmits s 1 →
      ∃ t, exec .writeBit s = .next t ∧ Appended [s.arg0.getLsbD 0] s t) ∧
    (1 < s.arg0.toNat → exec .writeBit s = .next { s with busy := false, err := .invalidParameter }) ∧
    (s.arg0.toNat ≤ 1 → s.sinkCursor = s.sinkCap → exec .writeBit s = .next { s with busy := false, err := .bufferOverflow }) ∧
    (s.arg0.toNat ≤ 1 → s.sinkCursor.toNat + 1 ≤ s.sinkCap.toNat → ¬ SinkAdmits s 1 → ∃ d, exec .writeBit s = .next
      { s with busy := false, err := .busError, fault := true, fcode := .busError, draws := d })

/-- R142: WRITE_BITS appends the low n bits of ARG0, bit 0 first, n = 0 included, and its errors in order. A BUS_ERROR leaves memory as it
was but for the admitted bytes of the write's range (U4 as 95_test_vectors.md L2.7 applies it: DEDUCED, notes/assumptions/8.md). -/
def Obligations.WriteBitsAppends : Prop :=
  ∀ s : State, s.mem.wf → StreamInv s →
    (s.arg1.toNat ≤ 64 → s.sinkCursor.toNat + s.arg1.toNat ≤ s.sinkCap.toNat → SinkAdmits s s.arg1.toNat →
      ∃ t, exec .writeBits s = .next t ∧ Appended ((List.range s.arg1.toNat).map fun j => s.arg0.getLsbD j) s t) ∧
    (64 < s.arg1.toNat → exec .writeBits s = .next { s with busy := false, err := .invalidParameter }) ∧
    (s.arg1.toNat ≤ 64 → s.sinkCap.toNat < s.sinkCursor.toNat + s.arg1.toNat →
      exec .writeBits s = .next { s with busy := false, err := .bufferOverflow }) ∧
    (s.arg1.toNat ≤ 64 → s.sinkCursor.toNat + s.arg1.toNat ≤ s.sinkCap.toNat → ¬ SinkAdmits s s.arg1.toNat →
      ∃ m d, exec .writeBits s = .next
        { s with busy := false, err := .busError, fault := true, fcode := .busError, mem := m, draws := d } ∧
        ∀ a, a < s.sinkBase.toNat + s.sinkCursor.toNat / 8 ∨ s.sinkBase.toNat + ceilDiv (s.sinkCursor.toNat + s.arg1.toNat) 8 ≤ a ∨
          s.plat.admits a = false → m.read a = s.mem.read a)

/-- R143: ALIGN appends zeros up to the next byte boundary, none when it is there already, overflows when they do not fit, and faults
where their byte is not admitted, memory as it was (R366). -/
def Obligations.AlignPadsToByte : Prop :=
  ∀ s : State, s.mem.wf → StreamInv s →
    (∀ pad < 8, (s.sinkCursor.toNat + pad) % 8 = 0 → s.sinkCursor.toNat + pad ≤ s.sinkCap.toNat → SinkAdmits s pad →
      ∃ t, exec .align s = .next t ∧ Appended (List.replicate pad false) s t ∧ t.sinkCursor.toNat % 8 = 0) ∧
    (∀ pad < 8, (s.sinkCursor.toNat + pad) % 8 = 0 → s.sinkCap.toNat < s.sinkCursor.toNat + pad →
      exec .align s = .next { s with busy := false, err := .bufferOverflow }) ∧
    (∀ pad < 8, (s.sinkCursor.toNat + pad) % 8 = 0 → s.sinkCursor.toNat + pad ≤ s.sinkCap.toNat → ¬ SinkAdmits s pad →
      ∃ d, exec .align s = .next
        { s with busy := false, err := .busError, fault := true, fcode := .busError, draws := d })

/-- R144, R145, R146, R150, R151: the pure queries return their value and change nothing else. -/
def Obligations.StreamQueriesReturn : Prop :=
  ∀ s : State, StreamInv s →
    exec .hasSpace s = .next { s with
      busy := false, err := .ok, result := if s.sinkCursor.toNat + s.arg0.toNat ≤ s.sinkCap.toNat then 1 else 0 } ∧
    exec .bitsWritten s = .next { s with busy := false, err := .ok, result := s.sinkCursor } ∧
    (∃ r : Word, exec .bytesWritten s = .next { s with busy := false, err := .ok, result := r } ∧
      8 * r.toNat < s.sinkCursor.toNat + 8 ∧ s.sinkCursor.toNat ≤ 8 * r.toNat) ∧
    exec .atEnd s = .next { s with
      busy := false, err := .ok, result := if s.srcPos.toNat = s.srcSize.toNat then 1 else 0 } ∧
    (∃ r : Word, exec .remaining s = .next { s with busy := false, err := .ok, result := r } ∧
      s.srcPos.toNat + r.toNat = s.srcSize.toNat)

/-- R148: READ_BIT returns the bit at SRC_POS, underflows at the end, and faults where its byte is not admitted. -/
def Obligations.ReadBitReturns : Prop :=
  ∀ s : State,
    (s.srcPos.toNat < s.srcSize.toNat → SourceAdmits s 1 →
      exec .readBit s = .next { s with
        busy := false, err := .ok, result := if s.sourceBit s.srcPos.toNat then 1 else 0
        srcPos := BitVec.ofNat 64 (s.srcPos.toNat + 1) }) ∧
    (s.srcPos = s.srcSize → exec .readBit s = .next { s with busy := false, err := .bufferUnderflow }) ∧
    (s.srcPos.toNat < s.srcSize.toNat → ¬ SourceAdmits s 1 →
      exec .readBit s = .next { s with busy := false, err := .busError, fault := true, fcode := .busError })

/-- R149: READ_BITS returns the next n bits, the first as bit 0 and zeros from bit n up, n = 0 included, and its errors in order. -/
def Obligations.ReadBitsReturns : Prop :=
  ∀ s : State,
    (s.arg0.toNat ≤ 64 → s.srcPos.toNat + s.arg0.toNat ≤ s.srcSize.toNat → SourceAdmits s s.arg0.toNat →
      ∃ r : Word, exec .readBits s = .next { s with
          busy := false, err := .ok, result := r, srcPos := BitVec.ofNat 64 (s.srcPos.toNat + s.arg0.toNat) } ∧
        ∀ j < 64, r.getLsbD j = (decide (j < s.arg0.toNat) && s.sourceBit (s.srcPos.toNat + j))) ∧
    (64 < s.arg0.toNat → exec .readBits s = .next { s with busy := false, err := .invalidParameter }) ∧
    (s.arg0.toNat ≤ 64 → s.srcSize.toNat < s.srcPos.toNat + s.arg0.toNat → s.srcPos.toNat ≤ s.srcSize.toNat →
      exec .readBits s = .next { s with busy := false, err := .bufferUnderflow }) ∧
    (s.arg0.toNat ≤ 64 → s.srcPos.toNat + s.arg0.toNat ≤ s.srcSize.toNat → ¬ SourceAdmits s s.arg0.toNat →
      exec .readBits s = .next { s with busy := false, err := .busError, fault := true, fcode := .busError })

/-- R152, R153, R154: SKIP_BITS, SRC_RESET and SRC_ALIGN move SRC_POS and read no memory; the first and the last underflow when the bits are
not there. -/
def Obligations.SourceMoves : Prop :=
  ∀ s : State, StreamInv s →
    (s.srcPos.toNat + s.arg0.toNat ≤ s.srcSize.toNat →
      exec .skipBits s = .next { s with
        busy := false, err := .ok, srcPos := BitVec.ofNat 64 (s.srcPos.toNat + s.arg0.toNat) }) ∧
    (s.srcSize.toNat < s.srcPos.toNat + s.arg0.toNat →
      exec .skipBits s = .next { s with busy := false, err := .bufferUnderflow }) ∧
    exec .srcReset s = .next { s with busy := false, err := .ok, srcPos := 0 } ∧
    (∀ pad < 8, (s.srcPos.toNat + pad) % 8 = 0 →
      (s.srcPos.toNat + pad ≤ s.srcSize.toNat →
        exec .srcAlign s = .next { s with busy := false, err := .ok, srcPos := BitVec.ofNat 64 (s.srcPos.toNat + pad) }) ∧
      (s.srcSize.toNat < s.srcPos.toNat + pad →
        exec .srcAlign s = .next { s with busy := false, err := .bufferUnderflow }))

/-- R155: what WRITE_BITS writes at position c of a base, READ_BITS reads back at position c of the same base; and WRITE_BIT, READ_BIT. -/
def Obligations.WriteThenReadDuality : Prop :=
  ∀ s t u : State, s.mem.wf → StreamInv s → u.mem = t.mem → u.plat = s.plat → u.srcBase = s.sinkBase →
    u.srcPos = s.sinkCursor →
    (s.arg1.toNat ≤ 64 → SinkAdmits s s.arg1.toNat → exec .writeBits s = .next t → t.err = .ok →
      u.arg0 = s.arg1 → u.srcPos.toNat + s.arg1.toNat ≤ u.srcSize.toNat →
      ∃ r, exec .readBits u = .next r ∧ r.err = .ok ∧ r.result.toNat = s.arg0.toNat % 2 ^ s.arg1.toNat) ∧
    (SinkAdmits s 1 → exec .writeBit s = .next t → t.err = .ok → u.srcPos.toNat + 1 ≤ u.srcSize.toNat →
      ∃ r, exec .readBit u = .next r ∧ r.err = .ok ∧ r.result = s.arg0)

/-! ### Encodes -/

/-- R212, R214, R216 (with R180, R185): ENC_GAMMA, ENC_DELTA and ENC_OMEGA append the codeword of u ≥ 1 when it fits. -/
def Obligations.EliasEncodesAppend : Prop :=
  ∀ (s : State) (sgn : Bool) (u L : Nat), s.mem.wf → StreamInv s →
    u = (if sgn then zz s.arg0 else s.arg0).toNat → 1 ≤ u → L = bitlen u - 1 →
    ((gammaBits u).length ≤ s.sinkRoom → SinkAdmits s (gammaBits u).length →
      ∃ t, exec (.encGamma sgn) s = .next t ∧ Appended (gammaBits u) s t) ∧
    ((gammaBits (L + 1) ++ msb (u % 2 ^ L) L).length ≤ s.sinkRoom →
      SinkAdmits s (gammaBits (L + 1) ++ msb (u % 2 ^ L) L).length →
      ∃ t, exec (.encDelta sgn) s = .next t ∧ Appended (gammaBits (L + 1) ++ msb (u % 2 ^ L) L) s t) ∧
    (∃ g, OmegaGroups u g) ∧
    (∀ g, OmegaGroups u g → g.length + 1 ≤ s.sinkRoom → SinkAdmits s (g.length + 1) →
      ∃ t, exec (.encOmega sgn) s = .next t ∧ Appended (g ++ [false]) s t)

/-- R218, R219 (with R180, R185): ENC_FIB appends the Zeckendorf digits of u + 1, lowest weight first, and one 1; there are at most 92
digits. -/
def Obligations.FibonacciEncodeAppends : Prop :=
  ∀ (s : State) (sgn : Bool) (u : Nat), s.mem.wf → StreamInv s → u = (if sgn then zz s.arg0 else s.arg0).toNat →
    (∃ d, Zeckendorf d (u + 1) ∧ d.length ≤ 92) ∧
    (∀ d, Zeckendorf d (u + 1) → d.length + 1 ≤ s.sinkRoom → SinkAdmits s (d.length + 1) →
      ∃ t, exec (.encFib sgn) s = .next t ∧ Appended (d ++ [true]) s t)

/-- R210, R260, R262, R263 (with R180, R185): ENC_UNARY, ENC_RICE #K with K ≤ 63 and ENC_GOLOMB with M ≠ 0 append a quotient of ones, a 0 and
the remainder. -/
def Obligations.UnaryRiceGolombEncodesAppend : Prop :=
  ∀ (s : State) (sgn : Bool) (u : Nat), s.mem.wf → StreamInv s → u = (if sgn then zz s.arg0 else s.arg0).toNat →
    ((ones u ++ [false]).length ≤ s.sinkRoom → SinkAdmits s (ones u ++ [false]).length →
      ∃ t, exec (.encUnary sgn) s = .next t ∧ Appended (ones u ++ [false]) s t) ∧
    (∀ k ≤ 63, ∀ bits, bits = ones (u >>> k) ++ [false] ++ msb (u % 2 ^ k) k → bits.length ≤ s.sinkRoom →
      SinkAdmits s bits.length → ∃ t, exec (.encRice k sgn) s = .next t ∧ Appended bits s t) ∧
    (∀ (m b c r : Nat) (bits : Bits), m = s.arg1.toNat → m ≠ 0 → b = bitlen (m - 1) → c = 2 ^ b - m → r = u % m →
      bits = ones (u / m) ++ [false] ++ (if r < c then msb r (b - 1) else msb (r + c) b) → bits.length ≤ s.sinkRoom →
      SinkAdmits s bits.length → ∃ t, exec (.encGolomb sgn) s = .next t ∧ Appended bits s t)

/-- R265, R267, R269 (with R180, R185): ENC_VBYTE, ENC_EXPG #k with k ≤ 63 and ENC_FIXED #N with 1 ≤ N ≤ 64 and u < 2^N append their
codeword. -/
def Obligations.VByteExpGolombFixedEncodesAppend : Prop :=
  ∀ (s : State) (sgn : Bool) (u : Nat), s.mem.wf → StreamInv s → u = (if sgn then zz s.arg0 else s.arg0).toNat →
    (∀ bits, bits = vbyteBits u (max 1 ((bitlen u + 6) / 7)) → bits.length ≤ s.sinkRoom → SinkAdmits s bits.length →
      ∃ t, exec (.encVByte sgn) s = .next t ∧ Appended bits s t) ∧
    (∀ k ≤ 63, ∀ bits, bits = gammaBits ((u >>> k) + 1) ++ msb (u % 2 ^ k) k → bits.length ≤ s.sinkRoom →
      SinkAdmits s bits.length → ∃ t, exec (.encExpG k sgn) s = .next t ∧ Appended bits s t) ∧
    (∀ n, 1 ≤ n → n ≤ 64 → u < 2 ^ n → n ≤ s.sinkRoom → SinkAdmits s n →
      ∃ t, exec (.encFixed n sgn) s = .next t ∧ Appended (lsb u n) s t)

/-- R180, R184, R187, R366: the errors of every encode, in order, and what a BUS_ERROR leaves: every register but STATUS, and every byte
outside the range the codeword would have been written to (U4). -/
def Obligations.EncodeErrorsInOrder : Prop :=
  ∀ (i : Instr) (s : State) (ok sgn : Bool) (codec : Codec), encoderOf i s = some (ok, codec, sgn) →
    (ok = false → exec i s = .next { s with busy := false, err := .invalidParameter }) ∧
    (ok = true → codec.dom (encodeOperand sgn s) = false → exec i s = .next { s with busy := false, err := .invalidInput }) ∧
    (ok = true → codec.dom (encodeOperand sgn s) = true →
      s.sinkRoom < (codec.word (encodeOperand sgn s)).length →
      exec i s = .next { s with busy := false, err := .bufferOverflow }) ∧
    (ok = true → codec.dom (encodeOperand sgn s) = true → (codec.word (encodeOperand sgn s)).length ≤ s.sinkRoom →
      ¬ SinkAdmits s (codec.word (encodeOperand sgn s)).length → s.mem.wf →
      ∃ m d, exec i s = .next
        { s with busy := false, err := .busError, fault := true, fcode := .busError, mem := m, draws := d } ∧
        ∀ a, a < s.sinkBase.toNat + s.sinkCursor.toNat / 8 ∨
          s.sinkBase.toNat + ceilDiv (s.sinkCursor.toNat + (codec.word (encodeOperand sgn s)).length) 8 ≤ a → m.read a = s.mem.read a)

/-- R191: the length an encode computes is its codeword's; and each codec's greatest length, with values that reach it. So ENC_UNARY of
2^64−1 always overflows. -/
def Obligations.CodewordLengths : Prop :=
  (∀ (i : Instr) (s : State) (ok sgn : Bool) (codec : Codec), encoderOf i s = some (ok, codec, sgn) → ok = true →
    ∀ u < 2 ^ 64, codec.dom u = true → (codec.word u).length = codec.len u) ∧
  (∀ u < 2 ^ 64,
    (unaryCodec.word u).length ≤ 2 ^ 64 ∧ (u = 2 ^ 64 - 1 → (unaryCodec.word u).length = 2 ^ 64) ∧
    (1 ≤ u → (gammaCodec.word u).length ≤ 127 ∧ (deltaCodec.word u).length ≤ 76 ∧ (omegaCodec.word u).length ≤ 76) ∧
    (2 ^ 63 ≤ u → (gammaCodec.word u).length = 127 ∧ (deltaCodec.word u).length = 76 ∧ (omegaCodec.word u).length = 76) ∧
    (fibCodec.word u).length ≤ 93 ∧ (u = 2 ^ 64 - 1 → (fibCodec.word u).length = 93) ∧
    (vbyteCodec.word u).length ≤ 80 ∧ (2 ^ 63 ≤ u → (vbyteCodec.word u).length = 80) ∧
    (∀ k ≤ 63, ((riceCodec k).word u).length ≤ ((2 ^ 64 - 1) >>> k) + 1 + k ∧
      (u = 2 ^ 64 - 1 → ((riceCodec k).word u).length = ((2 ^ 64 - 1) >>> k) + 1 + k)) ∧
    (∀ k ≤ 63, ((expGolombCodec k).word u).length ≤ 129 - k ∧
      (2 ^ 64 - 2 ^ k ≤ u → ((expGolombCodec k).word u).length = 129 - k)) ∧
    (∀ n, ((fixedCodec n).word u).length = n) ∧
    (∀ m q r b c top : Nat, 1 ≤ m → m < 2 ^ 64 → q = (2 ^ 64 - 1) / m → r = (2 ^ 64 - 1) % m → b = bitlen (m - 1) →
      c = 2 ^ b - m → top = q + b + (if c ≤ r then 1 else 0) → ((golombCodec m).word u).length ≤ top ∧
      (u = 2 ^ 64 - 1 ∨ r < c ∧ u = q * m - 1 → ((golombCodec m).word u).length = top))) ∧
  (∀ s : State, s.arg0 = BitVec.allOnes 64 → exec (.encUnary false) s = .next { s with busy := false, err := .bufferOverflow })

/-- R194: the Gamma, Delta and Omega codewords never get shorter as the value grows. -/
def Obligations.EliasLengthsAreMonotone : Prop :=
  ∀ u v : Nat, 1 ≤ u → u ≤ v → v < 2 ^ 64 →
    (gammaCodec.word u).length ≤ (gammaCodec.word v).length ∧
    (deltaCodec.word u).length ≤ (deltaCodec.word v).length ∧
    (omegaCodec.word u).length ≤ (omegaCodec.word v).length

/-! ### Decodes -/

/-- R211, R261, R262, R264 (with R181, R188): DEC_UNARY, DEC_RICE #K and DEC_GOLOMB (M = ARG1) on a codeword, whatever follows it. -/
def Obligations.UnaryRiceGolombDecodesReturn : Prop :=
  ∀ (s : State) (sgn : Bool) (u : Nat), u < 2 ^ 64 →
    (SourceHolds s (ones u ++ [false]) → exec (.decUnary sgn) s = .next (s.decoded sgn u (u + 1))) ∧
    (∀ k ≤ 63, SourceHolds s (ones (u >>> k) ++ [false] ++ msb (u % 2 ^ k) k) →
      exec (.decRice k sgn) s = .next (s.decoded sgn u ((u >>> k) + 1 + k))) ∧
    (∀ (m b c r : Nat) (bits : Bits), m = s.arg1.toNat → m ≠ 0 → b = bitlen (m - 1) → c = 2 ^ b - m → r = u % m →
      bits = ones (u / m) ++ [false] ++ (if r < c then msb r (b - 1) else msb (r + c) b) → SourceHolds s bits →
      exec (.decGolomb sgn) s = .next (s.decoded sgn u bits.length))

/-- R213, R268 (with R181, R190): DEC_GAMMA and DEC_EXPG #k on a codeword, whatever follows it. -/
def Obligations.GammaExpGolombDecodesReturn : Prop :=
  ∀ (s : State) (sgn : Bool) (u : Nat), u < 2 ^ 64 →
    (1 ≤ u → SourceHolds s (gammaBits u) → exec (.decGamma sgn) s = .next (s.decoded sgn u (gammaBits u).length)) ∧
    (∀ k ≤ 63, ∀ bits, bits = gammaBits ((u >>> k) + 1) ++ msb (u % 2 ^ k) k → SourceHolds s bits →
      exec (.decExpG k sgn) s = .next (s.decoded sgn u bits.length))

/-- R215 (with R181, R190): DEC_DELTA on a codeword, whatever follows it. -/
def Obligations.DeltaDecodeReturns : Prop :=
  ∀ (s : State) (sgn : Bool) (u L : Nat) (bits : Bits), 1 ≤ u → u < 2 ^ 64 → L = bitlen u - 1 →
    bits = gammaBits (L + 1) ++ msb (u % 2 ^ L) L → SourceHolds s bits →
    exec (.decDelta sgn) s = .next (s.decoded sgn u bits.length)

/-- R217 (with R181): DEC_OMEGA on a codeword, whatever follows it. -/
def Obligations.OmegaDecodeReturns : Prop :=
  ∀ (s : State) (sgn : Bool) (u : Nat) (g : Bits), u < 2 ^ 64 → OmegaGroups u g → SourceHolds s (g ++ [false]) →
    exec (.decOmega sgn) s = .next (s.decoded sgn u (g.length + 1))

/-- R220 (with R181): DEC_FIB on the Zeckendorf digits of u + 1 and one 1, whatever follows them. -/
def Obligations.FibonacciDecodeReturns : Prop :=
  ∀ (s : State) (sgn : Bool) (u : Nat) (d : Bits), u < 2 ^ 64 → Zeckendorf d (u + 1) → SourceHolds s (d ++ [true]) →
    exec (.decFib sgn) s = .next (s.decoded sgn u (d.length + 1))

/-- R266, R270 (with R181): DEC_VBYTE on one to ten bytes, forms longer than needed included, and DEC_FIXED #N on N bits. -/
def Obligations.VByteFixedDecodesReturn : Prop :=
  ∀ (s : State) (sgn : Bool) (u : Nat), u < 2 ^ 64 →
    (∀ k, 1 ≤ k → k ≤ 10 → u < 2 ^ (7 * k) → SourceHolds s (vbyteBits u k) →
      exec (.decVByte sgn) s = .next (s.decoded sgn u (8 * k))) ∧
    (∀ n, 1 ≤ n → n ≤ 64 → u < 2 ^ n → SourceHolds s (lsb u n) →
      exec (.decFixed n sgn) s = .next (s.decoded sgn u n))

/-- R182, R183, R187, R366: a decode whose source ends inside the codeword that is there reports BUFFER_UNDERFLOW when not one bit of it is left,
and INCOMPLETE_DATA otherwise, and changes nothing else; one whose next bit stands in a byte that is not admitted ends with BUS_ERROR,
memory and every register but STATUS as they were. -/
def Obligations.ShortDecodesReport : Prop :=
  ∀ (i j : Instr) (s : State) (sgn : Bool) (codec : Codec) (u n : Nat), decoderFor i = some j →
    encoderOf i s = some (true, codec, sgn) → u < 2 ^ 64 → codec.dom u = true → n < (codec.word u).length →
    (SourceHolds s ((codec.word u).take n) → s.srcPos.toNat + n = s.srcSize.toNat →
      exec j s = .next { s with busy := false, err := if n = 0 then .bufferUnderflow else .incompleteData }) ∧
    (SourceRejects s ((codec.word u).take n) →
      exec j s = .next { s with busy := false, err := .busError, fault := true, fcode := .busError })

/-- R181, R187, R190, R215, R217, R220, R261, R264, R266, R268, R366: decodes that report INVALID_INPUT and change nothing else, whatever
follows the bits named: one zero too many in γ, a value past 2^64−1, a digit string with no terminator, an overlong VByte. A byte that is not
admitted and comes before such an end is reached first: BUS_ERROR. Every decode with its parameter out of range reports INVALID_PARAMETER
before anything else. -/
def Obligations.CorruptDecodesReport : Prop :=
  ∀ (s t : State) (sgn : Bool), t = { s with busy := false, err := .invalidInput } →
    (SourceHolds s (zeros 64) → exec (.decGamma sgn) s = .next t) ∧
    (∀ m, 64 < m → SourceHolds s (gammaBits m) → exec (.decDelta sgn) s = .next t) ∧
    (∀ n g, 63 < n → OmegaGroups n g → SourceHolds s (g ++ [true]) → exec (.decOmega sgn) s = .next t) ∧
    (∀ d : Bits, d.length = 93 → (∀ j < 92, d.getD j false = true → d.getD (j + 1) false = false) → SourceHolds s d →
      exec (.decFib sgn) s = .next t) ∧
    (∀ d m, Zeckendorf d m → 2 ^ 64 < m → SourceHolds s (d ++ [true]) → exec (.decFib sgn) s = .next t) ∧
    (∀ k ≤ 63, ∀ q, 2 ^ (64 - k) ≤ q → SourceHolds s (ones q ++ [false]) → exec (.decRice k sgn) s = .next t) ∧
    (∀ m b c q r : Nat, m = s.arg1.toNat → b = bitlen (m - 1) → c = 2 ^ b - m → r < m → 2 ^ 64 ≤ q * m + r →
      SourceHolds s (ones q ++ [false] ++ (if r < c then msb r (b - 1) else msb (r + c) b)) →
      exec (.decGolomb sgn) s = .next t) ∧
    (∀ v k, 10 < k ∨ k = 10 ∧ 2 ^ 64 ≤ v ∧ v < 2 ^ 70 → SourceHolds s (vbyteBits v k) → exec (.decVByte sgn) s = .next t) ∧
    (∀ k ≤ 63, ∀ m, 2 ^ (64 - k) < m → SourceHolds s (gammaBits m) → exec (.decExpG k sgn) s = .next t) ∧
    (∀ i j codec, decoderFor i = some j → encoderOf i s = some (false, codec, sgn) →
      exec j s = .next { s with busy := false, err := .invalidParameter }) ∧
    (∀ b, b = { s with busy := false, err := .busError, fault := true, fcode := .busError } →
      (∀ n < 64, SourceRejects s (zeros n) → exec (.decGamma sgn) s = .next b) ∧
      (∀ m n, 64 < m → m < 2 ^ 64 → n < (gammaBits m).length → SourceRejects s ((gammaBits m).take n) →
        exec (.decDelta sgn) s = .next b) ∧
      (∀ u g n, 63 < u → u < 2 ^ 64 → OmegaGroups u g → n ≤ g.length → SourceRejects s (g.take n) →
        exec (.decOmega sgn) s = .next b) ∧
      (∀ d : Bits, d.length < 93 → (∀ j, d.getD j false = true → d.getD (j + 1) false = false) → SourceRejects s d →
        exec (.decFib sgn) s = .next b) ∧
      (∀ k ≤ 63, ∀ q, SourceRejects s (ones q) → exec (.decRice k sgn) s = .next b) ∧
      (∀ q, s.arg1 ≠ 0 → SourceRejects s (ones q) → exec (.decGolomb sgn) s = .next b) ∧
      (∀ v k n, 10 ≤ k → n < 80 → SourceRejects s ((vbyteBits v k).take n) → exec (.decVByte sgn) s = .next b) ∧
      (∀ k ≤ 63, ∀ n < 65, SourceRejects s (zeros n) → exec (.decExpG k sgn) s = .next b))

/-- R193: what an encode writes at a position of a base, the decode that belongs to it reads back there: the ARG0 it encoded, and as many bits
as it wrote. -/
def Obligations.CodecRoundTrip : Prop :=
  ∀ (i j : Instr) (s t v : State), decoderFor i = some j → s.mem.wf → StreamInv s → exec i s = .next t → t.err = .ok →
    v.mem = t.mem → v.plat = s.plat → v.arg1 = s.arg1 → v.srcBase = s.sinkBase → v.srcPos = s.sinkCursor →
    t.sinkCursor.toNat ≤ v.srcSize.toNat →
    ∃ r, exec j v = .next r ∧ r.err = .ok ∧ r.result = s.arg0 ∧ r.srcPos = t.sinkCursor

/-- R271: Rice and Golomb with M = 2^K have the same codewords, for b = K, c = 0 and TB_M(r) = msb(r, K); and with M = 2^K in ARG1, ENC_RICE #K
and ENC_GOLOMB do the same, and so do DEC_RICE #K and DEC_GOLOMB. -/
def Obligations.RiceIsGolombOfPowerOfTwo : Prop :=
  ∀ k ≤ 63, tbWidth (2 ^ k) = k ∧ tbCut (2 ^ k) = 0 ∧ (∀ r < 2 ^ k, tbWord (2 ^ k) r = msb r k) ∧
    (∀ u, (riceCodec k).word u = (golombCodec (2 ^ k)).word u) ∧
    ∀ (s : State) (sgn : Bool), s.arg1.toNat = 2 ^ k →
      exec (.encRice k sgn) s = exec (.encGolomb sgn) s ∧ exec (.decRice k sgn) s = exec (.decGolomb sgn) s

/-- R186: Zz takes a signed value v ≥ 0 to 2v and v < 0 to −2v − 1, and Unzz undoes it, both ways. -/
def Obligations.ZigzagIsBijection : Prop :=
  ∀ v : Word, ((zz v).toNat : Int) = (if 0 ≤ v.toInt then 2 * v.toInt else -2 * v.toInt - 1) ∧
    unzz (zz v) = v ∧ zz (unzz v) = v

/-! ### The succinct bit vector -/

/-- R312: SV_INIT makes a vector of n copies of the fill, Unindexed, with SV_TOTAL = 0 (SB and BK are then free), and refuses n > VMAX or a fill
other than 0 and 1. -/
def Obligations.VectorInitFills : Prop :=
  ∀ s : State,
    (s.arg0.toNat ≤ s.plat.vmax → s.arg1.toNat ≤ 1 →
      ∃ sb bk d, exec .svInit s = .next { s with
        busy := false, err := .ok, svLen := s.arg0, svBits := List.replicate s.arg0.toNat (s.arg1.getLsbD 0)
        index := .unindexed, svTotal := 0, sb := sb, bk := bk, draws := d }) ∧
    (s.plat.vmax < s.arg0.toNat ∨ 1 < s.arg1.toNat →
      exec .svInit s = .next { s with busy := false, err := .invalidParameter })

/-- R313, R314, R315, R316, R59: SV_SET, SV_RESET and SV_FLIP write cell i and make the index stale, SV_GET returns cell i; each refuses
i ≥ n. -/
def Obligations.CellCommands : Prop :=
  ∀ s : State, s.svBits.length = s.svLen.toNat →
    (s.arg0.toNat < s.svLen.toNat →
      (∀ i b, (i = .svSet ∧ b = true) ∨ (i = .svReset ∧ b = false) ∨ (i = .svFlip ∧ b = !s.svBits.getD s.arg0.toNat false) →
        ∃ t, exec i s = .next t ∧ t = { s with busy := false, err := .ok, index := .unindexed, svBits := t.svBits } ∧
          t.svBits.length = s.svLen.toNat ∧
          ∀ j < s.svLen.toNat, t.svBits.getD j false = if j = s.arg0.toNat then b else s.svBits.getD j false) ∧
      exec .svGet s = .next { s with
        busy := false, err := .ok, result := if s.svBits.getD s.arg0.toNat false then 1 else 0 }) ∧
    (s.svLen.toNat ≤ s.arg0.toNat → ∀ i ∈ [Instr.svSet, Instr.svReset, Instr.svFlip, Instr.svGet],
      exec i s = .next { s with busy := false, err := .invalidParameter })

/-- R57, R58, R59, R317, R326: SV_BUILD stores every count of the index and leaves it consistent, and a second SV_BUILD changes nothing. -/
def Obligations.BuildStoresCounts : Prop :=
  ∀ s : State, VectorInv s → ∃ t, exec .svBuild s = .next t ∧
    t = { s with busy := false, err := .ok, index := .indexed, sb := t.sb, bk := t.bk, svTotal := t.svTotal } ∧
    t.sb.length = superCount s.svLen.toNat ∧ t.bk.length = blockCount s.svLen.toNat ∧
    (∀ k < superCount s.svLen.toNat, (t.sb.getD k 0).toNat = pc s.svBits 0 (65536 * k)) ∧
    (∀ j < blockCount s.svLen.toNat, (t.bk.getD j 0).toNat = pc s.svBits (65536 * (j / 128)) (512 * j)) ∧
    t.svTotal.toNat = pc s.svBits 0 s.svLen.toNat ∧ consistent t = true ∧ exec .svBuild t = .next t

/-- R318, R325: SV_RANK on an Indexed vector returns the formula over the stored counts, which is PC(0, min(pos, n)) on a consistent index;
on an Unindexed one it ends with STALE_INDEX. -/
def Obligations.RankReturnsCount : Prop :=
  ∀ s : State, VectorInv s →
    (s.index = .indexed → ∃ r : Word, exec .svRank s = .next { s with busy := false, err := .ok, result := r } ∧
      (s.arg0 = 0 → r = 0) ∧ (s.arg0 ≠ 0 → s.svLen.toNat ≤ s.arg0.toNat → r = s.svTotal) ∧
      (s.arg0 ≠ 0 → s.arg0.toNat < s.svLen.toNat →
        r.toNat = (s.sb.getD (s.arg0.toNat / 65536) 0).toNat + (s.bk.getD (s.arg0.toNat / 512) 0).toNat
          + pc s.svBits (512 * (s.arg0.toNat / 512)) s.arg0.toNat) ∧
      (consistent s = true → r.toNat = pc s.svBits 0 (min s.arg0.toNat s.svLen.toNat))) ∧
    (s.index = .unindexed →
      exec .svRank s = .next { s with busy := false, err := .staleIndex, fault := true, fcode := .staleIndex })

/-- R319, R325, R379: SV_SELECT on an Indexed vector: not found is RESULT = 2^64−1 with NF = 1 and ERR = OK; otherwise NF = 0, and on a
consistent index RESULT is the position of the 1-bit with k 1-bits below it. On an inconsistent one RESULT is some value (R324). On an
Unindexed vector it ends with STALE_INDEX. -/
def Obligations.SelectFindsPosition : Prop :=
  ∀ s : State, VectorInv s →
    (s.index = .indexed → s.svTotal.toNat ≤ s.arg0.toNat →
      exec .svSelect s = .next { s with busy := false, err := .ok, nf := true, result := BitVec.allOnes 64 }) ∧
    (s.index = .indexed → s.arg0.toNat < s.svTotal.toNat → consistent s = true →
      ∃ p < s.svLen.toNat, s.svBits.getD p false = true ∧ pc s.svBits 0 p = s.arg0.toNat ∧
        exec .svSelect s = .next { s with busy := false, err := .ok, nf := false, result := BitVec.ofNat 64 p }) ∧
    (s.index = .indexed → s.arg0.toNat < s.svTotal.toNat → consistent s = false →
      ∃ r d, exec .svSelect s = .next { s with busy := false, err := .ok, nf := false, result := r, draws := d }) ∧
    (s.index = .unindexed →
      exec .svSelect s = .next { s with busy := false, err := .staleIndex, fault := true, fcode := .staleIndex })

/-- R320, R321: SV_ENCODE on an Indexed vector appends its wire form when it fits and overflows when it does not; a BUS_ERROR leaves every
register but STATUS, the vector and every byte outside the write's range (R184, R366; notes/assumptions/8.md). -/
def Obligations.VectorEncodeAppendsWire : Prop :=
  ∀ (s : State) (bits : Bits), s.mem.wf → StreamInv s → VectorInv s → s.index = .indexed →
    bits = vbyteBits s.svLen.toNat (max 1 ((bitlen s.svLen.toNat + 6) / 7)) ++ s.svBits
      ++ zeros ((8 - (s.sinkCursor.toNat + 8 * max 1 ((bitlen s.svLen.toNat + 6) / 7) + s.svLen.toNat) % 8) % 8)
      ++ (s.sb.map fun x => lsb x.toNat 32).flatten ++ (s.bk.map fun x => lsb x.toNat 16).flatten →
    (bits.length ≤ s.sinkRoom → SinkAdmits s bits.length → ∃ t, exec .svEncode s = .next t ∧ Appended bits s t) ∧
    (s.sinkRoom < bits.length → exec .svEncode s = .next { s with busy := false, err := .bufferOverflow }) ∧
    (bits.length ≤ s.sinkRoom → ¬ SinkAdmits s bits.length → ∃ m d, exec .svEncode s = .next
      { s with busy := false, err := .busError, fault := true, fcode := .busError, mem := m, draws := d } ∧
      ∀ a, a < s.sinkBase.toNat + s.sinkCursor.toNat / 8 ∨ s.sinkBase.toNat + ceilDiv (s.sinkCursor.toNat + bits.length) 8 ≤ a →
        m.read a = s.mem.read a)

/-- R322, R323, R324: SV_DECODE on the wire form of a vector no longer than VMAX, its count in one to ten bytes and its pad of any bits, takes
its length, bits and stored counts as they are, computes SV_TOTAL from them, and enters Indexed; no count is checked. A source that ends
inside it reports BUFFER_UNDERFLOW or INCOMPLETE_DATA, a byte that is not admitted BUS_ERROR, and a count that is corrupt or greater than VMAX
INVALID_INPUT; nothing but STATUS then changes. -/
def Obligations.VectorDecodeReadsWire : Prop :=
  ∀ s : State,
    (∀ (n k : Nat) (bits pad all : Bits) (sb : List (BitVec 32)) (bk : List (BitVec 16)),
      s.plat.Valid → n ≤ s.plat.vmax → 1 ≤ k → k ≤ 10 → n < 2 ^ (7 * k) → bits.length = n →
      pad.length = (8 - (s.srcPos.toNat + 8 * k + n) % 8) % 8 → sb.length = superCount n → bk.length = blockCount n →
      all = vbyteBits n k ++ bits ++ pad ++ (sb.map fun x => lsb x.toNat 32).flatten ++ (bk.map fun x => lsb x.toNat 16).flatten →
      (SourceHolds s all → exec .svDecode s = .next { s with
        busy := false, err := .ok, svLen := BitVec.ofNat 64 n, svBits := bits, sb := sb, bk := bk, index := .indexed
        svTotal := if n = 0 then 0 else
          BitVec.ofNat 64 ((sb.getD ((n - 1) / 65536) 0).toNat + (bk.getD ((n - 1) / 512) 0).toNat
            + pc bits (512 * ((n - 1) / 512)) n)
        srcPos := BitVec.ofNat 64 (s.srcPos.toNat + all.length) }) ∧
      (∀ m < all.length, SourceHolds s (all.take m) → s.srcPos.toNat + m = s.srcSize.toNat →
        exec .svDecode s = .next { s with busy := false, err := if m = 0 then .bufferUnderflow else .incompleteData }) ∧
      (∀ m < all.length, SourceRejects s (all.take m) →
        exec .svDecode s = .next { s with busy := false, err := .busError, fault := true, fcode := .busError })) ∧
    (∀ n k, 1 ≤ k ∧ k ≤ 10 ∧ s.plat.vmax < n ∧ n < 2 ^ (7 * k) ∨ 10 < k → SourceHolds s (vbyteBits n k) →
      exec .svDecode s = .next { s with busy := false, err := .invalidInput })

/-- R327 (with R324): what SV_ENCODE writes at a position of a base, SV_DECODE reads back there: the same length, bits and stored counts, and,
where SV_TOTAL is the one the stored counts give (R323), the same SV_TOTAL; SV_RANK then answers as before at every argument, whether the
counts are consistent or not, and from a consistent index so does SV_SELECT. -/
def Obligations.VectorZeroCopyRoundTrip : Prop :=
  ∀ s t u : State, s.mem.wf → StreamInv s → VectorInv s → exec .svEncode s = .next t → t.err = .ok →
    u.mem = t.mem → u.plat = s.plat → u.srcBase = s.sinkBase → u.srcPos = s.sinkCursor →
    t.sinkCursor.toNat ≤ u.srcSize.toNat →
    ∃ r, exec .svDecode u = .next r ∧ r.err = .ok ∧ r.index = .indexed ∧ r.svLen = s.svLen ∧ r.svBits = s.svBits ∧
      r.sb = s.sb ∧ r.bk = s.bk ∧ r.srcPos = t.sinkCursor ∧
      (s.svTotal.toNat = totalIdx s.svLen.toNat s.sb s.bk s.svBits ∨ consistent s = true → r.svTotal = s.svTotal ∧
        ∀ (q : Word) (x y : State), exec .svRank { s with arg0 := q } = .next x → exec .svRank { r with arg0 := q } = .next y →
          x.result = y.result ∧ x.err = y.err) ∧
      (consistent s = true → ∀ (q : Word) (x y : State),
        exec .svSelect { s with arg0 := q } = .next x → exec .svSelect { r with arg0 := q } = .next y →
          x.result = y.result ∧ x.err = y.err ∧ x.nf = y.nf)

/-! ### Races -/

/-- R99, R408 and 93_implementation_defined.md U6: a raced command still completes; it changes no byte but those it stores, and no register it
does not write. (What a race leaves free is the model's reading: notes/assumptions/7.md.) -/
def Obligations.RacedCommandStaysInItsBuffers : Prop :=
  ∀ (s : State) (i : Instr), s.mem.wf → s.host = [] → s.busy = true → s.fault = false → s.raced = true →
    decode s.cmd = .ok i →
    ∃ t, step s = .next t ∧ t.busy = false ∧ t.raced = false ∧ t.cmd = s.cmd ∧ t.arg0 = s.arg0 ∧ t.arg1 = s.arg1 ∧
      t.nf = s.nf ∧ t.nfBefore = s.nfBefore ∧ t.proto = s.proto ∧ t.plat = s.plat ∧
      t.sinkBase = s.sinkBase ∧ t.sinkCap = s.sinkCap ∧ t.srcBase = s.srcBase ∧ t.srcSize = s.srcSize ∧
      (∀ a, s.stores i a = false → t.mem.read a = s.mem.read a) ∧
      (writesSink i = false ∨ sinkLength i s = 0 → t.mem = s.mem ∧ t.sinkCursor = s.sinkCursor ∧ t.pend = s.pend) ∧
      (readsSource i = false → t.srcPos = s.srcPos) ∧ (readsValue i = false → t.result = s.result) ∧
      (i ≠ .svDecode →
        t.svLen = s.svLen ∧ t.svTotal = s.svTotal ∧ t.svBits = s.svBits ∧ t.sb = s.sb ∧ t.bk = s.bk ∧ t.index = s.index)
end

