-- ==== Sys2Proof/Laws/PerInstr.lean ====
section
/-! SUPPORT. The per-instruction family EncodedFields: the fields of every command's word are those of its row (30_encoding.md R110, R113). -/
namespace Sys2Proof.Laws

/-- The opcode of each row of R113. -/
def EncodedFields.opcode : Instr → Nat
  | .sinkInit => 0x01
  | .writeBit => 0x02
  | .writeBits => 0x03
  | .align => 0x04
  | .hasSpace => 0x05
  | .bitsWritten => 0x06
  | .bytesWritten => 0x07
  | .srcInit => 0x08
  | .readBit => 0x09
  | .readBits => 0x0A
  | .atEnd => 0x0B
  | .remaining => 0x0C
  | .skipBits => 0x0D
  | .srcReset => 0x0E
  | .srcAlign => 0x0F
  | .encUnary _ => 0x20
  | .decUnary _ => 0x21
  | .encGamma _ => 0x22
  | .decGamma _ => 0x23
  | .encDelta _ => 0x24
  | .decDelta _ => 0x25
  | .encOmega _ => 0x26
  | .decOmega _ => 0x27
  | .encFib _ => 0x28
  | .decFib _ => 0x29
  | .encRice _ _ => 0x2A
  | .decRice _ _ => 0x2B
  | .encGolomb _ => 0x2C
  | .decGolomb _ => 0x2D
  | .encVByte _ => 0x2E
  | .decVByte _ => 0x2F
  | .encExpG _ _ => 0x30
  | .decExpG _ _ => 0x31
  | .encFixed _ _ => 0x32
  | .decFixed _ _ => 0x33
  | .svInit => 0x40
  | .svSet => 0x41
  | .svReset => 0x42
  | .svFlip => 0x43
  | .svGet => 0x44
  | .svBuild => 0x45
  | .svRank => 0x46
  | .svSelect => 0x47
  | .svEncode => 0x48
  | .svDecode => 0x49

/-- The word of a command a word can carry has its row's OP, and RES = 0. -/
def EncodedFields.Statement (i : Instr) : Prop :=
  i.wellFormed = true → opField (encode i) = EncodedFields.opcode i ∧ reservedField (encode i) = 0

theorem fields_of_word (op p : Nat) (sgn : Bool) (hop : op < 256) (hp : p < 128) {h : Prop} :
    h → opField (commandWord op p sgn) = op ∧ reservedField (commandWord op p sgn) = 0 := by
  intro _
  unfold opField reservedField commandWord
  rw [BitVec.toNat_ofNat]
  cases sgn <;> simp <;> omega

theorem EncodedFields.sinkInit : EncodedFields.Statement .sinkInit := fields_of_word _ 0 false (by decide) (by decide)
theorem EncodedFields.writeBit : EncodedFields.Statement .writeBit := fields_of_word _ 0 false (by decide) (by decide)
theorem EncodedFields.writeBits : EncodedFields.Statement .writeBits := fields_of_word _ 0 false (by decide) (by decide)
theorem EncodedFields.align : EncodedFields.Statement .align := fields_of_word _ 0 false (by decide) (by decide)
theorem EncodedFields.hasSpace : EncodedFields.Statement .hasSpace := fields_of_word _ 0 false (by decide) (by decide)
theorem EncodedFields.bitsWritten : EncodedFields.Statement .bitsWritten := fields_of_word _ 0 false (by decide) (by decide)
theorem EncodedFields.bytesWritten : EncodedFields.Statement .bytesWritten := fields_of_word _ 0 false (by decide) (by decide)
theorem EncodedFields.srcInit : EncodedFields.Statement .srcInit := fields_of_word _ 0 false (by decide) (by decide)
theorem EncodedFields.readBit : EncodedFields.Statement .readBit := fields_of_word _ 0 false (by decide) (by decide)
theorem EncodedFields.readBits : EncodedFields.Statement .readBits := fields_of_word _ 0 false (by decide) (by decide)
theorem EncodedFields.atEnd : EncodedFields.Statement .atEnd := fields_of_word _ 0 false (by decide) (by decide)
theorem EncodedFields.remaining : EncodedFields.Statement .remaining := fields_of_word _ 0 false (by decide) (by decide)
theorem EncodedFields.skipBits : EncodedFields.Statement .skipBits := fields_of_word _ 0 false (by decide) (by decide)
theorem EncodedFields.srcReset : EncodedFields.Statement .srcReset := fields_of_word _ 0 false (by decide) (by decide)
theorem EncodedFields.srcAlign : EncodedFields.Statement .srcAlign := fields_of_word _ 0 false (by decide) (by decide)
theorem EncodedFields.encUnary (sgn : Bool) : EncodedFields.Statement (.encUnary sgn) := fields_of_word _ 0 sgn (by decide) (by decide)
theorem EncodedFields.decUnary (sgn : Bool) : EncodedFields.Statement (.decUnary sgn) := fields_of_word _ 0 sgn (by decide) (by decide)
theorem EncodedFields.encGamma (sgn : Bool) : EncodedFields.Statement (.encGamma sgn) := fields_of_word _ 0 sgn (by decide) (by decide)
theorem EncodedFields.decGamma (sgn : Bool) : EncodedFields.Statement (.decGamma sgn) := fields_of_word _ 0 sgn (by decide) (by decide)
theorem EncodedFields.encDelta (sgn : Bool) : EncodedFields.Statement (.encDelta sgn) := fields_of_word _ 0 sgn (by decide) (by decide)
theorem EncodedFields.decDelta (sgn : Bool) : EncodedFields.Statement (.decDelta sgn) := fields_of_word _ 0 sgn (by decide) (by decide)
theorem EncodedFields.encOmega (sgn : Bool) : EncodedFields.Statement (.encOmega sgn) := fields_of_word _ 0 sgn (by decide) (by decide)
theorem EncodedFields.decOmega (sgn : Bool) : EncodedFields.Statement (.decOmega sgn) := fields_of_word _ 0 sgn (by decide) (by decide)
theorem EncodedFields.encFib (sgn : Bool) : EncodedFields.Statement (.encFib sgn) := fields_of_word _ 0 sgn (by decide) (by decide)
theorem EncodedFields.decFib (sgn : Bool) : EncodedFields.Statement (.decFib sgn) := fields_of_word _ 0 sgn (by decide) (by decide)
theorem EncodedFields.encRice (p : Nat) (sgn : Bool) : EncodedFields.Statement (.encRice p sgn) := fun h => fields_of_word _ p sgn (by decide) (of_decide_eq_true h) h
theorem EncodedFields.decRice (p : Nat) (sgn : Bool) : EncodedFields.Statement (.decRice p sgn) := fun h => fields_of_word _ p sgn (by decide) (of_decide_eq_true h) h
theorem EncodedFields.encGolomb (sgn : Bool) : EncodedFields.Statement (.encGolomb sgn) := fields_of_word _ 0 sgn (by decide) (by decide)
theorem EncodedFields.decGolomb (sgn : Bool) : EncodedFields.Statement (.decGolomb sgn) := fields_of_word _ 0 sgn (by decide) (by decide)
theorem EncodedFields.encVByte (sgn : Bool) : EncodedFields.Statement (.encVByte sgn) := fields_of_word _ 0 sgn (by decide) (by decide)
theorem EncodedFields.decVByte (sgn : Bool) : EncodedFields.Statement (.decVByte sgn) := fields_of_word _ 0 sgn (by decide) (by decide)
theorem EncodedFields.encExpG (p : Nat) (sgn : Bool) : EncodedFields.Statement (.encExpG p sgn) := fun h => fields_of_word _ p sgn (by decide) (of_decide_eq_true h) h
theorem EncodedFields.decExpG (p : Nat) (sgn : Bool) : EncodedFields.Statement (.decExpG p sgn) := fun h => fields_of_word _ p sgn (by decide) (of_decide_eq_true h) h
theorem EncodedFields.encFixed (p : Nat) (sgn : Bool) : EncodedFields.Statement (.encFixed p sgn) := fun h => fields_of_word _ p sgn (by decide) (of_decide_eq_true h) h
theorem EncodedFields.decFixed (p : Nat) (sgn : Bool) : EncodedFields.Statement (.decFixed p sgn) := fun h => fields_of_word _ p sgn (by decide) (of_decide_eq_true h) h
theorem EncodedFields.svInit : EncodedFields.Statement .svInit := fields_of_word _ 0 false (by decide) (by decide)
theorem EncodedFields.svSet : EncodedFields.Statement .svSet := fields_of_word _ 0 false (by decide) (by decide)
theorem EncodedFields.svReset : EncodedFields.Statement .svReset := fields_of_word _ 0 false (by decide) (by decide)
theorem EncodedFields.svFlip : EncodedFields.Statement .svFlip := fields_of_word _ 0 false (by decide) (by decide)
theorem EncodedFields.svGet : EncodedFields.Statement .svGet := fields_of_word _ 0 false (by decide) (by decide)
theorem EncodedFields.svBuild : EncodedFields.Statement .svBuild := fields_of_word _ 0 false (by decide) (by decide)
theorem EncodedFields.svRank : EncodedFields.Statement .svRank := fields_of_word _ 0 false (by decide) (by decide)
theorem EncodedFields.svSelect : EncodedFields.Statement .svSelect := fields_of_word _ 0 false (by decide) (by decide)
theorem EncodedFields.svEncode : EncodedFields.Statement .svEncode := fields_of_word _ 0 false (by decide) (by decide)
theorem EncodedFields.svDecode : EncodedFields.Statement .svDecode := fields_of_word _ 0 false (by decide) (by decide)

end Sys2Proof.Laws
end

