-- ==== Sys2Proof/Tests/Slice0.lean ====
section
/-! SUPPORT. Our own checks: the well-formedness smoke test, the decoding of every command's word, one-step tests whose expected values are
those of 95_test_vectors.md, and for every obligation with hypotheses a concrete state that meets them. -/
set_option Elab.async false

namespace Sys2Proof.Tests
open Sys2Proof.Machine

/-! ### Small states -/

/-- A sink of `cap` bits at 0x1000 with the cursor at `cursor`. -/
def sink (cap cursor : Nat) (pend : Byte) (arg0 arg1 : Word) : State :=
  { State.reset with
    busy := true, arg0 := arg0, arg1 := arg1
    sinkBase := 0x1000, sinkCap := BitVec.ofNat 64 cap, sinkCursor := BitVec.ofNat 64 cursor, pend := pend }

/-- A platform that admits no byte at or above 0x1008. -/
def narrow : Platform := { Platform.standard with windows := [(0, 0x1008)] }

/-- A source of `size` bits over bytes at 0x1000. -/
def source (bytes : List Byte) (size pos : Nat) (arg0 arg1 : Word) : State :=
  { State.reset with
    busy := true, arg0 := arg0, arg1 := arg1, mem := Memory.writeBytes [] 0x1000 bytes
    srcBase := 0x1000, srcSize := BitVec.ofNat 64 size, srcPos := BitVec.ofNat 64 pos }

/-- A built vector of `n` copies of `fill`, with an open sink. -/
def vector (n : Nat) (fill : Bool) (arg0 : Word) : State :=
  let s := sink 256 0 0 arg0 0
  let bits := List.replicate n fill
  { s with
    svLen := BitVec.ofNat 64 n, svBits := bits, sb := buildSuper n bits, bk := buildBlock n bits
    svTotal := BitVec.ofNat 64 (pc bits 0 n), index := .indexed }

/-- The code, the cursor and the first `n` bytes at 0x1000 after a command on the sink. -/
def wrote (o : Host.Outcome State Fault Refusal) (n : Nat) : Option (ErrCode × Nat × List Nat) :=
  (nextOf o).map fun t => (t.err, t.sinkCursor.toNat, (t.mem.readBytes 0x1000 n).map (·.toNat))

/-- The code, RESULT and the position after a command on the source. -/
def took (o : Host.Outcome State Fault Refusal) : Option (ErrCode × Nat × Nat) :=
  (nextOf o).map fun t => (t.err, t.result.toNat, t.srcPos.toNat)

/-- The code, RESULT and STATUS after a command. -/
def saw (o : Host.Outcome State Fault Refusal) : Option (ErrCode × Nat × Nat) :=
  (nextOf o).map fun t => (t.err, t.result.toNat, t.status.toNat)

/-- A host write of a word to a register of the standard platform. -/
def writeTo (off : Nat) (w : Word) : HostEvent := .write (BitVec.ofNat 64 (Platform.standard.mmioBase + off)) (lanes w)

/-- A host read of a register of the standard platform. -/
def readAt (off : Nat) : HostEvent := .read (BitVec.ofNat 64 (Platform.standard.mmioBase + off)) 8

/-! ### Well-formedness: every check refuses an ill-formed term -/

theorem test_wellFormed_refuses_parameter_128 :
    [Instr.encRice 128 false, .decRice 128 false, .encExpG 128 true, .decExpG 128 true, .encFixed 128 false, .decFixed 128 false].map
      Instr.wellFormed = List.replicate 6 false := by decide

theorem test_wellFormed_admits_parameter_127 :
    [Instr.encRice 127 false, .decRice 0 false, .encExpG 127 true, .decExpG 64 true, .encFixed 127 false, .decFixed 0 false].map
      Instr.wellFormed = List.replicate 6 true := by decide

/-! ### Decoding: every command's word, written out from R110, R113 and R114 -/

theorem test_decode_bitstream :
    [0x01, 0x02, 0x03, 0x04, 0x05, 0x06, 0x07, 0x08, 0x09, 0x0A, 0x0B, 0x0C, 0x0D, 0x0E, 0x0F].map (decodeTableWord 64) =
      [.sinkInit, .writeBit, .writeBits, .align, .hasSpace, .bitsWritten, .bytesWritten, .srcInit, .readBit, .readBits, .atEnd,
        .remaining, .skipBits, .srcReset, .srcAlign].map some := by decide +kernel

theorem test_decode_codec :
    [0x0020, 0x8021, 0x0022, 0x8023, 0x0024, 0x8025, 0x0026, 0x8027, 0x0028, 0x8029, 0xBF2A, 0x032B, 0x002C, 0x802D, 0x002E, 0x802F,
        0x0030, 0x8231, 0xC032, 0x1033].map (decodeTableWord 64) =
      [.encUnary false, .decUnary true, .encGamma false, .decGamma true, .encDelta false, .decDelta true, .encOmega false,
        .decOmega true, .encFib false, .decFib true, .encRice 63 true, .decRice 3 false, .encGolomb false, .decGolomb true,
        .encVByte false, .decVByte true, .encExpG 0 false, .decExpG 2 true, .encFixed 64 true, .decFixed 16 false].map some := by
  decide +kernel

theorem test_decode_succinct :
    [0x40, 0x41, 0x42, 0x43, 0x44, 0x45, 0x46, 0x47, 0x48, 0x49].map (decodeTableWord 64) =
      [.svInit, .svSet, .svReset, .svFlip, .svGet, .svBuild, .svRank, .svSelect, .svEncode, .svDecode].map some := by decide +kernel

/-- Bit by bit: OP = 0x2A at 7:0, P = 5 at 14:8, S = 1 at 15, RES = 0 (R110). -/
theorem test_decode_rice_bits :
    decodeTableWord 64 0b000000000000000000000000000000000000000000000000_1_0000101_00101010 = some (.encRice 5 true) := by
  decide +kernel

/-- R114, R115, R118: reserved opcodes, S on a row without S, P on a row without P, and every reserved bit. -/
theorem test_decode_rejects :
    [0x00, 0x10, 0x1F, 0x34, 0x3F, 0x4A, 0xFF, 0x8001, 0x8049, 0x0101, 0x0122, 0x7F20, 0x10001, 0x8000000000000022].map
      (decodeTableWord 64) = List.replicate 14 none := by decide +kernel

/-! ### A word placed where the engine takes its next command -/

/-- Every row's word runs as the first command after reset. -/
theorem test_first_command_runs :
    ([0x01, 0x02, 0x03, 0x04, 0x05, 0x06, 0x07, 0x08, 0x09, 0x0A, 0x0B, 0x0C, 0x0D, 0x0E, 0x0F, 0x20, 0x21, 0x22, 0x23, 0x24, 0x25, 0x26,
        0x27, 0x28, 0x29, 0x2A, 0x2B, 0x2C, 0x2D, 0x2E, 0x2F, 0x30, 0x31, 0x132, 0x133, 0x40, 0x41, 0x42, 0x43, 0x44, 0x45, 0x46, 0x47,
        0x48, 0x49].map fun w =>
      (nextOf (step (State.reset.withFetchWord 64 w))).map fun t => (t.cmd.toNat == w && !t.busy, t.err)) =
    [.ok, .bufferOverflow, .ok, .ok, .ok, .ok, .ok, .ok, .bufferUnderflow, .ok, .ok, .ok, .ok, .ok, .ok,
      .bufferOverflow, .bufferUnderflow, .invalidInput, .bufferUnderflow, .invalidInput, .bufferUnderflow, .invalidInput,
      .bufferUnderflow, .bufferOverflow, .bufferUnderflow, .bufferOverflow, .bufferUnderflow, .invalidParameter, .invalidParameter,
      .bufferOverflow, .bufferUnderflow, .bufferOverflow, .bufferUnderflow, .bufferOverflow, .bufferUnderflow,
      .ok, .invalidParameter, .invalidParameter, .invalidParameter, .invalidParameter, .ok, .staleIndex, .staleIndex, .staleIndex,
      .bufferUnderflow].map fun e => some (true, e) := by decide +kernel

/-! ### Bit-stream commands (95_test_vectors.md L2.1) -/

theorem test_sinkInit : (nextOf (exec .sinkInit (sink 0 0 0 0xFFFFFFFFFFFFFFFE 16))).map (fun t => (t.err, t.sinkBase, t.sinkCap)) =
    some (.ok, 0xFFFFFFFFFFFFFFFE, 16) := by decide +kernel
theorem test_sinkInit_past_the_end : (nextOf (exec .sinkInit (sink 0 0 0 0xFFFFFFFFFFFFFFFF 16))).map (·.err) =
    some .invalidParameter := by decide +kernel
theorem test_writeBit : wrote (exec .writeBit (sink 20 0 0 1 0)) 1 = some (.ok, 1, [0x01]) := by decide +kernel
theorem test_writeBits : wrote (exec .writeBits (sink 20 1 1 0x1A5 9)) 2 = some (.ok, 10, [0x4B, 0x03]) := by decide +kernel
theorem test_align : wrote (exec .align (sink 20 10 3 0 0)) 2 = some (.ok, 16, [0x00, 0x03]) := by decide +kernel
theorem test_align_overflows : wrote (exec .align (sink 20 20 15 0 0)) 0 = some (.bufferOverflow, 20, []) := by decide +kernel
theorem test_hasSpace : (saw (exec .hasSpace (sink 20 10 3 10 0)), saw (exec .hasSpace (sink 20 10 3 11 0))) =
    (some (.ok, 1, 0), some (.ok, 0, 0)) := by decide +kernel
theorem test_bitsWritten : saw (exec .bitsWritten (sink 20 10 3 0 0)) = some (.ok, 10, 0) := by decide +kernel
theorem test_bytesWritten : saw (exec .bytesWritten (sink 20 10 3 0 0)) = some (.ok, 2, 0) := by decide +kernel
theorem test_srcInit_past_the_end : took (exec .srcInit (source [] 20 5 0xFFFFFFFFFFFFFFFF 9)) = some (.invalidParameter, 0, 5) := by
  decide +kernel
theorem test_readBit : took (exec .readBit (source [0x4B, 0x03, 0x0F] 20 0 0 0)) = some (.ok, 1, 1) := by decide +kernel
theorem test_readBits : took (exec .readBits (source [0x4B, 0x03, 0x0F] 20 1 9 0)) = some (.ok, 0x1A5, 10) := by decide +kernel
theorem test_atEnd : took (exec .atEnd (source [] 20 20 0 0)) = some (.ok, 1, 20) := by decide +kernel
theorem test_remaining : took (exec .remaining (source [] 20 16 0 0)) = some (.ok, 4, 16) := by decide +kernel
theorem test_skipBits : (took (exec .skipBits (source [] 20 0 21 0)), took (exec .skipBits (source [] 20 0 17 0))) =
    (some (.bufferUnderflow, 0, 0), some (.ok, 0, 17)) := by decide +kernel
theorem test_srcReset : took (exec .srcReset (source [] 20 20 0 0)) = some (.ok, 0, 0) := by decide +kernel
theorem test_srcAlign : (took (exec .srcAlign (source [] 20 10 0 0)), took (exec .srcAlign (source [] 20 17 0 0))) =
    (some (.ok, 0, 16), some (.bufferUnderflow, 0, 17)) := by decide +kernel

/-! ### Codecs (95_test_vectors.md L2.2 and L2.3: the bytes of a codeword, and what its decode returns) -/

theorem test_encUnary : wrote (exec (.encUnary false) (sink 99 0 0 9 0)) 2 = some (.ok, 10, [0xFF, 0x01]) := by decide +kernel
theorem test_decUnary : took (exec (.decUnary false) (source [0xFF, 0x01] 10 0 0 0)) = some (.ok, 9, 10) := by decide +kernel
theorem test_encGamma : wrote (exec (.encGamma false) (sink 99 0 0 1000 0)) 3 = some (.ok, 19, [0x00, 0xBE, 0x00]) := by decide +kernel
theorem test_decGamma : took (exec (.decGamma false) (source [0x00, 0xBE, 0x00] 19 0 0 0)) = some (.ok, 1000, 19) := by decide +kernel
theorem test_encRice_signed : wrote (exec (.encRice 2 true) (sink 99 0 0 (-5) 0)) 1 = some (.ok, 5, [0x13]) := by decide +kernel
theorem test_decRice_signed : took (exec (.decRice 2 true) (source [0x13] 5 0 0 0)) = some (.ok, 2 ^ 64 - 5, 5) := by decide +kernel
theorem test_encGolomb_signed : wrote (exec (.encGolomb true) (sink 99 0 0 (-5) 3)) 1 = some (.ok, 5, [0x07]) := by decide +kernel
theorem test_decGolomb_signed : took (exec (.decGolomb true) (source [0x07] 5 0 0 3)) = some (.ok, 2 ^ 64 - 5, 5) := by decide +kernel
theorem test_encVByte_signed : wrote (exec (.encVByte true) (sink 99 0 0 300 0)) 2 = some (.ok, 16, [0xD8, 0x04]) := by decide +kernel
theorem test_decVByte_signed : took (exec (.decVByte true) (source [0xD7, 0x04] 16 0 0 0)) = some (.ok, 2 ^ 64 - 300, 16) := by
  decide +kernel
theorem test_encExpG_signed : wrote (exec (.encExpG 1 true) (sink 99 0 0 3 0)) 1 = some (.ok, 6, [0x04]) := by decide +kernel
theorem test_decExpG_signed : took (exec (.decExpG 1 true) (source [0x0E] 4 0 0 0)) = some (.ok, 2 ^ 64 - 3, 4) := by decide +kernel
theorem test_encFixed_signed : wrote (exec (.encFixed 8 true) (sink 99 0 0 127 0)) 1 = some (.ok, 8, [0xFE]) := by decide +kernel
theorem test_encFixed_refuses : wrote (exec (.encFixed 8 true) (sink 99 0 0 128 0)) 0 = some (.invalidInput, 0, []) := by decide +kernel
theorem test_decFixed_signed : took (exec (.decFixed 8 true) (source [0xFF] 8 0 0 0)) = some (.ok, 2 ^ 64 - 128, 8) := by decide +kernel
theorem test_encDelta : wrote (exec (.encDelta false) (sink 99 0 0 1000 0)) 2 = some (.ok, 16, [0xA8, 0x17]) := by decide +kernel
theorem test_decDelta : took (exec (.decDelta false) (source [0xA8, 0x17] 16 0 0 0)) = some (.ok, 1000, 16) := by decide +kernel
theorem test_encOmega : wrote (exec (.encOmega false) (sink 99 0 0 100 0)) 2 = some (.ok, 13, [0x6D, 0x02]) := by decide +kernel
theorem test_decOmega : took (exec (.decOmega false) (source [0x6D, 0x02] 13 0 0 0)) = some (.ok, 100, 13) := by decide +kernel
theorem test_encFib : wrote (exec (.encFib false) (sink 99 0 0 100 0)) 2 = some (.ok, 11, [0x15, 0x06]) := by decide +kernel
theorem test_decFib : took (exec (.decFib false) (source [0x15, 0x06] 11 0 0 0)) = some (.ok, 100, 11) := by decide +kernel

/-! ### The bit vector (95_test_vectors.md L2.6, L2.7) -/

theorem test_svInit : (nextOf (exec .svInit (sink 0 0 0 16 1))).map (fun t => (t.err, t.svLen, t.svBits, t.index)) =
    some (.ok, 16, List.replicate 16 true, .unindexed) := by decide +kernel
theorem test_svSet_past_the_end : (nextOf (exec .svSet (vector 16 true 16))).map (·.err) = some .invalidParameter := by decide +kernel
theorem test_svSet : (nextOf (exec .svSet (vector 2 false 1))).map (fun t => (t.svBits, t.index)) =
    some ([false, true], .unindexed) := by decide +kernel
theorem test_svReset : (nextOf (exec .svReset (vector 2 true 1))).map (fun t => (t.svBits, t.index)) =
    some ([true, false], .unindexed) := by decide +kernel
theorem test_svFlip : (nextOf (exec .svFlip (vector 2 true 0))).map (fun t => (t.svBits, t.index)) =
    some ([false, true], .unindexed) := by decide +kernel
theorem test_svGet : saw (exec .svGet (vector 2 true 0)) = some (.ok, 1, 8) := by decide +kernel
theorem test_svBuild : (nextOf (exec .svBuild { vector 16 true 0 with index := .unindexed, svTotal := 0 })).map
    (fun t => (t.svTotal, t.index, t.status)) = some (16, .indexed, 8) := by decide +kernel
theorem test_svRank : saw (exec .svRank (vector 16 true 3)) = some (.ok, 3, 8) := by decide +kernel
theorem test_svRank_stale : saw (exec .svRank { vector 16 true 3 with index := .unindexed }) = some (.staleIndex, 0, 0x70702) := by
  decide +kernel
theorem test_svSelect : saw (exec .svSelect (vector 16 true 3)) = some (.ok, 3, 8) := by decide +kernel
theorem test_svSelect_not_found : saw (exec .svSelect (vector 16 true 99)) = some (.ok, 2 ^ 64 - 1, 0xC) := by decide +kernel
/-- The wire starts at stream position 3, after WRITE_BITS 0b101, 3. -/
theorem test_svEncode_unaligned : wrote (exec .svEncode { vector 1 true 0 with sinkCap := 128, sinkCursor := 3, pend := 5 }) 8 =
    some (.ok, 64, [0x0D, 0x08, 0, 0, 0, 0, 0, 0]) := by decide +kernel
/-- Inconsistent metadata is taken as it is: SV_TOTAL = 0 + 5 + 8. -/
theorem test_svDecode_inconsistent :
    (nextOf (exec .svDecode (source [0x08, 0xFF, 0, 0, 0, 0, 5, 0] 64 0 0 0))).map
      (fun t => (t.err, t.svLen.toNat, t.svTotal.toNat, t.srcPos.toNat, t.index)) = some (.ok, 8, 13, 64, .indexed) := by decide +kernel
theorem test_svDecode_short : took (exec .svDecode (source [0x80] 8 0 0 0)) = some (.incompleteData, 0, 0) := by decide +kernel

/-! ### Steps, the register block, faults -/

theorem test_command_from_the_bus :
    (nextOf (step { sink 20 0 0 1 0 with busy := false, host := [writeTo 0x18 2, .wait] })).bind (fun t => wrote (step t) 1) =
      some (.ok, 1, [0x01]) := by decide +kernel
theorem test_busy_write_sets_proto : (nextOf (step { sink 20 0 0 1 0 with host := [writeTo 0x20 7] })).map
    (fun t => (t.arg0, t.proto, t.status)) = some (1, true, 0x11) := by decide +kernel
/-- An accepted CMD write clears NF (R36), an early read still shows it (R406), and after the command it reads 0 (R38). -/
theorem test_nf_at_issue : (nextOf (step { State.reset with nf := true, host := [writeTo 0x18 6] })).map
    (fun t => (t.nf, t.status, (nextOf (step t)).map (·.status))) = some (false, 5, some 0) := by decide +kernel
theorem test_read_caps : (nextOf (step { State.reset with host := [readAt 0] })).map (·.hostData) = some [0, 0, 2, 0, 0, 0, 0, 0] := by
  decide +kernel
theorem test_bus_error : (saw (exec .writeBits
    { sink 16 0 0 0xFFFF 16 with sinkBase := 0x2FFF, plat := { Platform.standard with windows := [(0, 0x3000)] } })) =
      some (.busError, 0, 0x90902) := by decide +kernel
/-- WRITE_BIT's one byte is not admitted: no access is made (R366). -/
theorem test_bus_error_keeps_memory : (nextOf (exec .writeBit { sink 8 0 0 1 0 with
    mem := [(0x1000, 9)], plat := { Platform.standard with windows := [] } })).map (fun t => (t.err, t.mem)) =
      some (.busError, [(0x1000, 9)]) := by decide +kernel
theorem test_zigzag : [0, -1, 1, -2, BitVec.ofNat 64 (2 ^ 63)].map zz = [0, 1, 2, 3, (-1 : Word)] := by decide +kernel

/-! ### For each obligation, states and operands that meet its hypotheses, at the ends of their ranges -/

theorem witness_DecodeEncodeAgree : (Instr.encRice 127 true).wellFormed = true ∧ (Instr.decFixed 0 false).wellFormed = true := by decide

theorem witness_EncodeDecodeAgree : decode 0xFF2A = .ok (.encRice 127 true) ∧ decode 0x01 = .ok .sinkInit := by decide +kernel

theorem witness_LegalWords : (∃ i, decode 0x0F = .ok i) ∧ (∃ i, decode 0xFF33 = .ok i) ∧ (∃ i, decode 0x49 = .ok i) ∧
    (∃ e, decode 0x10 = .error e) ∧ (∃ e, decode 0x34 = .error e) ∧ (∃ e, decode 0x4A = .error e) :=
  ⟨⟨_, rfl⟩, ⟨_, rfl⟩, ⟨_, rfl⟩, ⟨_, rfl⟩, ⟨_, rfl⟩, ⟨_, rfl⟩⟩

theorem witness_StepRunsDecodedCommand :
    let s := { sink 20 0 0 1 0 with cmd := 2 }
    s.busy = true ∧ s.fault = false ∧ s.raced = false ∧ decode s.cmd = .ok .writeBit ∧ s.host = [] ∧
      { s with host := [.engine] }.host = .engine :: [] ∧ { s with host := [.wait] }.host = .wait :: [] := by decide +kernel

theorem witness_FaultedAndIllegalWordsEnd :
    State.reset.host = [] ∧ { State.reset with fault := true, fcode := .staleIndex }.fault = true ∧
      State.reset.fault = false ∧ ∃ e, decode 0 = .error e := ⟨rfl, rfl, rfl, _, rfl⟩

theorem witness_ResetLeavesRegisters :
    { Platform.standard with vmax := 1 }.Valid ∧ { Platform.standard with vmax := 2 ^ 32 - 1 }.Valid := by decide

theorem witness_ResetsRestartTheEngine :
    (sink 8 1 1 0 0).busy = true ∧ { sink 8 1 1 0 0 with busy := false }.busy = false ∧ (1 : Word).getLsbD 0 = true ∧
      (0 : Word).getLsbD 0 = false ∧
      { sink 8 1 1 0 0 with host := [writeTo 8 1] }.host =
        .write (BitVec.ofNat 64 ((sink 8 1 1 0 0).plat.mmioBase + 0x08)) (lanes 1) :: [] ∧
      { sink 8 1 1 0 0 with host := [.powerOn] }.host = .powerOn :: [] := by decide +kernel

theorem witness_IdleRegisterWritesLand :
    State.reset.busy = false ∧
      ∀ off ∈ [0x18, 0x20, 0x28], { State.reset with host := [writeTo off 5, .wait] }.host =
        .write (BitVec.ofNat 64 (State.reset.plat.mmioBase + off)) (lanes 5) :: [.wait] := by decide +kernel

/-- Steps from BUSY = 1 to BUSY = 1: a read and a dropped write, with NF = 1 before the command. -/
theorem witness_IdleRegisterWritesLand_in_flight :
    ∀ e ∈ [readAt 0x30, writeTo 0x20 5], (sink 8 0 0 0 0).busy = true ∧
      (nextOf (step { sink 8 0 0 0 0 with nfBefore := true, host := [e] })).any (fun t => t.busy) = true := by decide +kernel

theorem witness_BusyWritesSetProto :
    (∀ off ∈ [0x08, 0x18, 0x20, 0x28], { sink 8 0 0 0 0 with host := [writeTo off 1] }.host =
      .write (BitVec.ofNat 64 ((sink 8 0 0 0 0).plat.mmioBase + off)) (lanes 1) :: []) ∧ (sink 8 0 0 0 0).busy = true ∧
    { State.reset with proto := true }.proto = true ∧
    ∃ t, step { State.reset with proto := true } = .next t := ⟨by decide +kernel, rfl, rfl, _, rfl⟩

/-- Each clause at the block's two ends. -/
theorem witness_RegisterAccessRules :
    (∀ off ∈ [0x00, 0x08, 0x10, 0x18, 0x20, 0x28, 0x30, 0x38, 0x40, 0x48, 0x50, 0x58, 0x60, 0x68, 0x70, 0x78, 0x80, 0x88, 0x90, 0xF8],
      off < 256 ∧ off % 8 = 0 ∧ { State.reset with host := [readAt off] }.host =
        .read (BitVec.ofNat 64 (State.reset.plat.mmioBase + off)) 8 :: []) ∧
    (∀ off ∈ [0x00, 0x10, 0x88, 0x90, 0xF8], off < 256 ∧ off % 8 = 0 ∧ off ∉ [0x08, 0x18, 0x20, 0x28] ∧
      { State.reset with host := [writeTo off 1] }.host =
        .write (BitVec.ofNat 64 (State.reset.plat.mmioBase + off)) (lanes 1) :: []) ∧
    (∀ c ∈ [(0xEFFFFFFC, 8), (0xF00000FF, 1), (0xF0000000, 4), (0xF0000000, 0), (0xF00000FF, 0)], touchesBlock State.reset.plat (BitVec.ofNat 64 c.1).toNat c.2 = true ∧
      ¬ (c.2 = 8 ∧ (BitVec.ofNat 64 c.1).toNat % 8 = 0) ∧
      { State.reset with host := [.read (BitVec.ofNat 64 c.1) c.2] }.host = .read (BitVec.ofNat 64 c.1) c.2 :: [] ∧
      { State.reset with host := [.write (BitVec.ofNat 64 c.1) (List.replicate c.2 0)] }.host =
        .write (BitVec.ofNat 64 c.1) (List.replicate c.2 0) :: []) := by decide +kernel

theorem witness_StatusAndCapsFields :
    (5 ≤ 5 ∧ 5 < 8) ∧ 24 ≤ 24 ∧ State.reset.plat.Valid ∧ ∃ t, step State.reset = .next t := ⟨by decide, by decide, by decide, _, rfl⟩

/-- A write that ends at address 2^64−1, and one that runs one byte past it; the same of a read. -/
theorem witness_HostMemoryAccesses :
    State.reset.mem.wf ∧
    (∀ c ∈ [(0, 1), (2 ^ 64 - 1, 1), (2 ^ 64 - 1, 2)], touchesBlock State.reset.plat (BitVec.ofNat 64 c.1).toNat c.2 = false ∧
      { State.reset with host := [.read (BitVec.ofNat 64 c.1) c.2] }.host = .read (BitVec.ofNat 64 c.1) c.2 :: [] ∧
      { State.reset with host := [.write (BitVec.ofNat 64 c.1) (List.replicate c.2 7)] }.host =
        .write (BitVec.ofNat 64 c.1) (List.replicate c.2 7) :: []) ∧
    (BitVec.ofNat 64 (2 ^ 64 - 1)).toNat + 1 ≤ 2 ^ 64 ∧ 2 ^ 64 < (BitVec.ofNat 64 (2 ^ 64 - 1)).toNat + 2 := by decide +kernel

/-- WRITE_BITS of 9 bits at stream bit 3 of 32 stores bytes 0x1000 and 0x1001 of the four bytes of its buffer: a read races on those two, a
write on all four, neither on what stands next to them, and none while nothing is in flight. -/
theorem witness_HostMemoryAccesses_in_flight :
    let s := { sink 32 3 5 0 9 with cmd := 3 }
    s.mem.wf ∧ s.busy = true ∧ s.fault = false ∧ decode s.cmd = .ok .writeBits ∧ writesSink .writeBits = true ∧
      [0xFFF, 0x1000, 0x1001, 0x1002, 0x1003, 0x1004].map (fun a => (s.stores .writeBits a, s.readRaces a, s.writeRaces a)) =
        [(false, false, false), (true, true, true), (true, true, true), (false, false, true), (false, false, true), (false, false, false)] ∧
      { s with busy := false }.readRaces 0x1000 = false ∧ { s with busy := false }.writeRaces 0x1000 = false ∧
      touchesBlock s.plat (0x1001 : Word).toNat 2 = false ∧ (0x1001 : Word).toNat + 2 ≤ 2 ^ 64 ∧
      { s with host := [.read 0x1001 2] }.host = .read 0x1001 2 :: [] ∧
      { s with host := [.write 0x1001 [7, 8]] }.host = .write 0x1001 [7, 8] :: [] := by decide +kernel

/-- The same of a command that reads a source of nine bits, two bytes: no read races, and a write to either byte does. -/
theorem witness_HostMemoryAccesses_source :
    let s := { source [1, 1] 9 0 3 0 with cmd := 0x0A }
    s.mem.wf ∧ s.busy = true ∧ s.fault = false ∧ decode s.cmd = .ok .readBits ∧ readsSource .readBits = true ∧
      [0xFFF, 0x1000, 0x1001, 0x1002].map (fun a => (s.readRaces a, s.writeRaces a)) =
        [(false, false), (false, true), (false, true), (false, false)] := by decide +kernel

/-- A command in flight with an open sink, a source and a vector has every invariant, and steps. -/
theorem witness_StepKeepsInvariants :
    let s := { vector 3 true 0 with cmd := 0x48, sinkCursor := 3, pend := 5, mem := [(0x1000, 5)], srcBase := 0x1000, srcSize := 8 }
    s.mem.wf ∧ StreamInv s ∧ VectorInv s ∧ StatusInv s ∧ ∃ t, step s = .next t :=
  ⟨by decide +kernel, by decide +kernel, by decide +kernel, by decide +kernel, _, rfl⟩

theorem witness_ResetHasInvariants : Platform.standard.Valid := by decide

theorem witness_OnlySinkBytesChange :
    let s := { sink 20 3 5 0 9 with mem := [(0x1000, 5), (0x2000, 1)] }
    s.mem.wf ∧ StreamInv s ∧ ∃ t, exec .writeBits s = .next t ∧ t.err ≠ .busError ∧
      (0xFFF < s.sinkBase.toNat + s.sinkCursor.toNat / 8) ∧ s.sinkBase.toNat + ceilDiv s.sinkCap.toNat 8 ≤ 0x1003 :=
  ⟨by decide +kernel, by decide +kernel, _, rfl, by decide +kernel, by decide +kernel, by decide +kernel⟩

/-- 9 bits at stream bit 3: the bytes 0x1000 and 0x1001 are stored, those beside them are not. A BUS_ERROR at byte 0x1008 in WRITE_BITS and
in an encode: the rejected byte is stored in the encode alone. -/
theorem witness_OnlySinkBytesChange_stores :
    (let s := sink 20 3 5 0 9
     writesSink .writeBits = true ∧ sinkLength .writeBits s = 9 ∧
       [0xFFF, 0x1000, 0x1001, 0x1002].map (s.stores .writeBits) = [false, true, true, false] ∧
       (nextOf (exec .writeBits s)).map (·.err) = some .ok) ∧
    (let s := { sink 99 63 5 0xFFFF 16 with plat := narrow }
     s.mem.wf ∧ StreamInv s ∧ [0x1006, 0x1007, 0x1008, 0x1009, 0x100A].map (s.stores .writeBits) = [false, true, false, false, false] ∧
       [0x1006, 0x1007, 0x1008, 0x1009, 0x100A].map (s.stores (.encFixed 16 false)) = [false, true, true, true, false] ∧
       (nextOf (exec .writeBits s)).map (·.err) = some .busError ∧ (nextOf (exec (.encFixed 16 false) s)).map (·.err) = some .busError) := by
  decide +kernel

theorem witness_FaultStateIsSticky :
    let s := { sink 8 0 0 0 0 with fault := true, fcode := .busError }
    s.fault = true ∧ s.resetComing = false ∧ ∃ t, step s = .next t := ⟨rfl, rfl, _, rfl⟩

theorem witness_NonFatalErrorsChangeOnlyStatus :
    (∃ t, exec .writeBit (sink 0 0 0 1 0) = .next t ∧ t.err ≠ .ok ∧ t.err.fatal = false) ∧
    (sink 0 0 0 0 0).fault = false ∧ ∃ e, decode (sink 0 0 0 0 0).cmd = .error e :=
  ⟨⟨_, rfl, by decide +kernel, by decide +kernel⟩, rfl, _, rfl⟩

theorem witness_FatalErrorsEnterFaultState :
    ∃ t, exec .svEncode (sink 8 0 0 0 0) = .next t ∧ t.err.fatal = true ∧ t.err = .staleIndex :=
  ⟨_, rfl, by decide +kernel, by decide +kernel⟩

theorem witness_StaleIndexFaults : State.reset.index = .unindexed := rfl

theorem witness_ResultOnlyOnSuccess :
    (∃ t, exec .readBit (source [] 0 0 0 0) = .next t ∧ t.err ≠ .ok) ∧
    (∃ t, exec .writeBit (sink 8 0 0 1 0) = .next t ∧ returnsValue .writeBit = false) :=
  ⟨⟨_, rfl, by decide +kernel⟩, _, rfl, rfl⟩

/-- The last buffer that fits, and the first that does not. -/
theorem witness_BuffersOpen :
    (let s := sink 0 0 0 0xFFFFFFFFFFFFFFFE 16; s.arg0.toNat + (s.arg1.toNat + 7) / 8 ≤ 2 ^ 64) ∧
    (let s := sink 0 0 0 0xFFFFFFFFFFFFFFFE 17; 2 ^ 64 < s.arg0.toNat + (s.arg1.toNat + 7) / 8) := by decide +kernel

theorem witness_WriteBitAppends :
    (let s := sink 8 7 0 1 0
     s.mem.wf ∧ StreamInv s ∧ s.arg0.toNat ≤ 1 ∧ s.sinkCursor.toNat + 1 ≤ s.sinkCap.toNat ∧ SinkAdmits s 1) ∧
    (let s := sink 8 7 0 2 0; s.mem.wf ∧ StreamInv s ∧ 1 < s.arg0.toNat) ∧
    (let s := sink 8 8 0 1 0; s.mem.wf ∧ StreamInv s ∧ s.arg0.toNat ≤ 1 ∧ s.sinkCursor = s.sinkCap) ∧
    (let s := { sink 65 64 0 1 0 with plat := narrow }
     s.mem.wf ∧ StreamInv s ∧ s.arg0.toNat ≤ 1 ∧ s.sinkCursor.toNat + 1 ≤ s.sinkCap.toNat ∧ ¬ SinkAdmits s 1) := by decide +kernel

/-- n = 64 filling the sink, n = 0 on a full sink, n = 65, and n = 64 one bit too long. -/
theorem witness_WriteBitsAppends :
    (∀ s ∈ [sink 67 3 5 0x1A5 64, sink 3 3 5 0 0], s.mem.wf ∧ StreamInv s ∧ s.arg1.toNat ≤ 64 ∧
      s.sinkCursor.toNat + s.arg1.toNat ≤ s.sinkCap.toNat ∧ SinkAdmits s s.arg1.toNat) ∧
    (let s := sink 99 3 5 0 65; s.mem.wf ∧ StreamInv s ∧ 64 < s.arg1.toNat) ∧
    (let s := sink 66 3 5 0 64
     s.mem.wf ∧ StreamInv s ∧ s.arg1.toNat ≤ 64 ∧ s.sinkCap.toNat < s.sinkCursor.toNat + s.arg1.toNat) ∧
    (let s := { sink 65 1 1 0 64 with plat := narrow }
     s.mem.wf ∧ StreamInv s ∧ s.arg1.toNat ≤ 64 ∧ s.sinkCursor.toNat + s.arg1.toNat ≤ s.sinkCap.toNat ∧
       ¬ SinkAdmits s s.arg1.toNat) := by decide +kernel

/-- Pads of 0, 7 and 1 bits, and one that does not fit. -/
theorem witness_AlignPadsToByte :
    (∀ c ∈ [(8, 0), (9, 7), (15, 1)], let s := sink 16 c.1 0 0 0
      s.mem.wf ∧ StreamInv s ∧ c.2 < 8 ∧ (s.sinkCursor.toNat + c.2) % 8 = 0 ∧ s.sinkCursor.toNat + c.2 ≤ s.sinkCap.toNat ∧
      SinkAdmits s c.2) ∧
    (let s := sink 15 9 0 0 0
     s.mem.wf ∧ StreamInv s ∧ (s.sinkCursor.toNat + 7) % 8 = 0 ∧ s.sinkCap.toNat < s.sinkCursor.toNat + 7) ∧
    (let s := { sink 72 65 0 0 0 with plat := narrow }
     s.mem.wf ∧ StreamInv s ∧ (s.sinkCursor.toNat + 7) % 8 = 0 ∧ s.sinkCursor.toNat + 7 ≤ s.sinkCap.toNat ∧
       ¬ SinkAdmits s 7) := by decide +kernel

theorem witness_StreamQueriesReturn : StreamInv { sink 20 10 3 10 0 with srcBase := 0x1000, srcSize := 20, srcPos := 20 } := by
  decide +kernel

theorem witness_ReadBitReturns :
    (let s := source [1] 8 7 0 0; s.srcPos.toNat < s.srcSize.toNat ∧ SourceAdmits s 1) ∧
    (let s := source [1] 8 8 0 0; s.srcPos = s.srcSize) ∧
    (let s := { source [1] 65 64 0 0 with plat := narrow }; s.srcPos.toNat < s.srcSize.toNat ∧ ¬ SourceAdmits s 1) := by decide +kernel

theorem witness_ReadBitsReturns :
    (∀ s ∈ [source [1, 2] 67 3 64 0, source [] 0 0 0 0], s.arg0.toNat ≤ 64 ∧ s.srcPos.toNat + s.arg0.toNat ≤ s.srcSize.toNat ∧
      SourceAdmits s s.arg0.toNat) ∧
    (let s := source [] 99 0 65 0; 64 < s.arg0.toNat) ∧
    (let s := source [] 66 3 64 0
     s.arg0.toNat ≤ 64 ∧ s.srcSize.toNat < s.srcPos.toNat + s.arg0.toNat ∧ s.srcPos.toNat ≤ s.srcSize.toNat) ∧
    (let s := { source [] 65 1 64 0 with plat := narrow }
     s.arg0.toNat ≤ 64 ∧ s.srcPos.toNat + s.arg0.toNat ≤ s.srcSize.toNat ∧ ¬ SourceAdmits s s.arg0.toNat) := by decide +kernel

theorem witness_SourceMoves :
    (let s := source [] 20 3 17 0; StreamInv s ∧ s.srcPos.toNat + s.arg0.toNat ≤ s.srcSize.toNat) ∧
    (let s := source [] 20 3 18 0; StreamInv s ∧ s.srcSize.toNat < s.srcPos.toNat + s.arg0.toNat) ∧
    (let s := source [] 24 17 0 0; StreamInv s ∧ (s.srcPos.toNat + 7) % 8 = 0 ∧ s.srcPos.toNat + 7 ≤ s.srcSize.toNat) ∧
    (let s := source [] 23 17 0 0; StreamInv s ∧ (s.srcPos.toNat + 7) % 8 = 0 ∧ s.srcSize.toNat < s.srcPos.toNat + 7) := by
  decide +kernel

theorem witness_WriteThenReadDuality :
    (let s := sink 67 3 5 0x1A5 64
     s.mem.wf ∧ StreamInv s ∧ s.arg1.toNat ≤ 64 ∧ SinkAdmits s s.arg1.toNat ∧
     ∃ t, exec .writeBits s = .next t ∧ t.err = .ok ∧
       let u := { t with srcBase := s.sinkBase, srcPos := s.sinkCursor, srcSize := 67, arg0 := s.arg1 }
       u.mem = t.mem ∧ u.plat = s.plat ∧ u.srcBase = s.sinkBase ∧ u.srcPos = s.sinkCursor ∧ u.arg0 = s.arg1 ∧
         u.srcPos.toNat + s.arg1.toNat ≤ u.srcSize.toNat) ∧
    (let s := sink 8 7 0 1 0
     s.mem.wf ∧ StreamInv s ∧ SinkAdmits s 1 ∧
     ∃ t, exec .writeBit s = .next t ∧ t.err = .ok ∧
       let u := { t with srcBase := s.sinkBase, srcPos := s.sinkCursor, srcSize := 8 }
       u.mem = t.mem ∧ u.plat = s.plat ∧ u.srcBase = s.sinkBase ∧ u.srcPos = s.sinkCursor ∧
         u.srcPos.toNat + 1 ≤ u.srcSize.toNat) :=
  ⟨⟨by decide +kernel, by decide +kernel, by decide +kernel, by decide +kernel, _, rfl, by decide +kernel, by decide +kernel⟩,
    by decide +kernel, by decide +kernel, by decide +kernel, _, rfl, by decide +kernel, by decide +kernel⟩

/-- u = 1 and u = 2 (S = 1, ARG0 = 1), each filling its sink. -/
theorem witness_EliasEncodesAppend :
    OmegaGroups 1 [] ∧ OmegaGroups 2 [true, false] ∧
    (let s := sink 1 0 0 1 0
     s.mem.wf ∧ StreamInv s ∧ 1 = (if false then zz s.arg0 else s.arg0).toNat ∧ 0 = bitlen 1 - 1 ∧
       (gammaBits 1).length ≤ s.sinkRoom ∧ SinkAdmits s (gammaBits 1).length ∧
       (gammaBits (0 + 1) ++ msb (1 % 2 ^ 0) 0).length ≤ s.sinkRoom ∧
       SinkAdmits s (gammaBits (0 + 1) ++ msb (1 % 2 ^ 0) 0).length ∧ ([] : Bits).length + 1 ≤ s.sinkRoom ∧
       SinkAdmits s (([] : Bits).length + 1)) ∧
    (let s := sink 4 0 0 1 0
     s.mem.wf ∧ StreamInv s ∧ 2 = (if true then zz s.arg0 else s.arg0).toNat ∧ 1 = bitlen 2 - 1 ∧
       (gammaBits 2).length ≤ s.sinkRoom ∧ SinkAdmits s (gammaBits 2).length ∧
       (gammaBits (1 + 1) ++ msb (2 % 2 ^ 1) 1).length ≤ s.sinkRoom ∧
       SinkAdmits s (gammaBits (1 + 1) ++ msb (2 % 2 ^ 1) 1).length ∧ [true, false].length + 1 ≤ s.sinkRoom ∧
       SinkAdmits s ([true, false].length + 1)) :=
  ⟨.one, .group 2 [] (by decide) .one, by decide +kernel, by decide +kernel⟩

theorem witness_FibonacciEncodeAppends :
    let s := sink 4 0 0 3 0
    s.mem.wf ∧ StreamInv s ∧ 3 = (if false then zz s.arg0 else s.arg0).toNat ∧ Zeckendorf [true, false, true] (3 + 1) ∧
      [true, false, true].length + 1 ≤ s.sinkRoom ∧ SinkAdmits s ([true, false, true].length + 1) := by decide +kernel

/-- Rice with K = 0 and K = 63; Golomb with M = 1 and with M = 3 on both of its forms of remainder. -/
theorem witness_UnaryRiceGolombEncodesAppend :
    (∀ c ∈ [(5, 3), (6, 3), (5, 1)], let s := sink 70 0 0 (BitVec.ofNat 64 c.1) (BitVec.ofNat 64 c.2)
      s.mem.wf ∧ StreamInv s ∧ c.1 = (if false then zz s.arg0 else s.arg0).toNat ∧
      (ones c.1 ++ [false]).length ≤ s.sinkRoom ∧ SinkAdmits s (ones c.1 ++ [false]).length ∧
      (∀ k ∈ [0, 63], (ones (c.1 >>> k) ++ [false] ++ msb (c.1 % 2 ^ k) k).length ≤ s.sinkRoom) ∧ SinkAdmits s 64 ∧
      c.2 = s.arg1.toNat ∧ c.2 ≠ 0 ∧
      (∀ b ∈ [bitlen (c.2 - 1)], ∀ cut ∈ [2 ^ b - c.2], ∀ r ∈ [c.1 % c.2],
        (ones (c.1 / c.2) ++ [false] ++ (if r < cut then msb r (b - 1) else msb (r + cut) b)).length ≤ s.sinkRoom)) := by
  decide +kernel

/-- Exp-Golomb with k = 0 and k = 63; FixedWidth with the narrowest and the widest N. -/
theorem witness_VByteExpGolombFixedEncodesAppend :
    let s := sink 129 0 0 300 0
    s.mem.wf ∧ StreamInv s ∧ 300 = (if false then zz s.arg0 else s.arg0).toNat ∧ SinkAdmits s 129 ∧
      (vbyteBits 300 (max 1 ((bitlen 300 + 6) / 7))).length ≤ s.sinkRoom ∧
      (∀ k ∈ [0, 63], (gammaBits ((300 >>> k) + 1) ++ msb (300 % 2 ^ k) k).length ≤ s.sinkRoom) ∧
      (∀ n ∈ [9, 64], 1 ≤ n ∧ n ≤ 64 ∧ 300 < 2 ^ n ∧ n ≤ s.sinkRoom) := by decide +kernel

/-- One state for each clause: K = 64, u = 0 outside Gamma, one bit too few, and a byte that is not admitted. -/
theorem witness_EncodeErrorsInOrder :
    (∃ c, encoderOf (.encRice 64 false) (sink 8 0 0 1 0) = some (false, c, false)) ∧
    (encoderOf (.encGamma false) (sink 8 0 0 0 0) = some (true, gammaCodec, false) ∧
      gammaCodec.dom (encodeOperand false (sink 8 0 0 0 0)) = false) ∧
    (let s := sink 4 0 0 4 0
     gammaCodec.dom (encodeOperand false s) = true ∧ s.sinkRoom < (gammaCodec.word (encodeOperand false s)).length) ∧
    (let s := { sink 5 0 0 4 0 with plat := { Platform.standard with windows := [] } }
     s.mem.wf ∧ gammaCodec.dom (encodeOperand false s) = true ∧ (gammaCodec.word (encodeOperand false s)).length ≤ s.sinkRoom ∧
       ¬ SinkAdmits s (gammaCodec.word (encodeOperand false s)).length) :=
  ⟨⟨_, rfl⟩, ⟨rfl, by decide +kernel⟩, by decide +kernel, by decide +kernel⟩

/-- The values that reach the greatest lengths; Golomb with M = 7, where the remainder of 2^64−1 is long, and M = 5, where it is short, so that
the greatest length is reached one quotient lower too. -/
theorem witness_CodewordLengths :
    encoderOf (.encFixed 64 false) (sink 8 0 0 1 0) = some (true, fixedCodec 64, false) ∧ (fixedCodec 64).dom (2 ^ 64 - 1) = true ∧
      (∀ u ∈ [1, 2 ^ 63, 2 ^ 64 - 1], 1 ≤ u ∧ u < 2 ^ 64) ∧ 2 ^ 63 ≤ 2 ^ 64 - 1 ∧
      (∀ k ∈ [0, 63], k ≤ 63 ∧ 2 ^ 64 - 2 ^ k ≤ 2 ^ 64 - 1 ∧ 2 ^ 64 - 2 ^ k < 2 ^ 64) ∧
      (∀ c ∈ [(1, true), (7, true), (5, false), (2 ^ 64 - 1, false)], 1 ≤ c.1 ∧ c.1 < 2 ^ 64 ∧
        decide (2 ^ bitlen (c.1 - 1) - c.1 ≤ (2 ^ 64 - 1) % c.1) = c.2 ∧ (2 ^ 64 - 1) / c.1 * c.1 - 1 < 2 ^ 64) ∧
      (sink 8 0 0 (-1) 0).arg0 = BitVec.allOnes 64 := by
  refine ⟨rfl, ?_⟩; decide +kernel

theorem witness_EliasLengthsAreMonotone : 1 ≤ 1 ∧ 1 ≤ 2 ^ 64 - 1 ∧ 2 ^ 64 - 1 < 2 ^ 64 := by decide

/-- A source that holds a bit string from its first bit on, and `more` bits after it. -/
def holding (bits : Bits) (more : Nat) (arg1 : Word) : State :=
  { source [] (bits.length + more) 0 0 arg1 with mem := (putBits .stream bits (sink bits.length 0 0 0 0)).mem }

/-- Rice with K = 0 and K = 63; Golomb with M = 1 and with M = 3 on both of its forms of remainder. -/
theorem witness_UnaryRiceGolombDecodesReturn :
    SourceHolds (holding (ones 5 ++ [false]) 0 0) (ones 5 ++ [false]) ∧
    (∀ k ∈ [0, 63], SourceHolds (holding (ones (5 >>> k) ++ [false] ++ msb (5 % 2 ^ k) k) 9 0)
      (ones (5 >>> k) ++ [false] ++ msb (5 % 2 ^ k) k)) ∧
    (∀ c ∈ [(5, 3), (6, 3), (5, 1)], ∀ b ∈ [bitlen (c.2 - 1)], ∀ cut ∈ [2 ^ b - c.2], ∀ r ∈ [c.1 % c.2],
      ∀ bits ∈ [ones (c.1 / c.2) ++ [false] ++ (if r < cut then msb r (b - 1) else msb (r + cut) b)],
      c.2 = (holding bits 0 (BitVec.ofNat 64 c.2)).arg1.toNat ∧ c.2 ≠ 0 ∧
        SourceHolds (holding bits 0 (BitVec.ofNat 64 c.2)) bits) := by decide +kernel

/-- The least and the greatest u of γ, and Exp-Golomb with k = 0 and k = 63. -/
theorem witness_GammaExpGolombDecodesReturn :
    (∀ u ∈ [1, 2 ^ 64 - 1], 1 ≤ u ∧ u < 2 ^ 64 ∧ SourceHolds (holding (gammaBits u) 0 0) (gammaBits u)) ∧
    (∀ k ∈ [0, 63], ∀ bits ∈ [gammaBits ((0 >>> k) + 1) ++ msb (0 % 2 ^ k) k, gammaBits (((2 ^ 64 - 1) >>> k) + 1) ++
      msb ((2 ^ 64 - 1) % 2 ^ k) k], SourceHolds (holding bits 7 0) bits) := by decide +kernel

theorem witness_DeltaDecodeReturns :
    ∀ c ∈ [(1, 0), (2 ^ 64 - 1, 63)], 1 ≤ c.1 ∧ c.1 < 2 ^ 64 ∧ c.2 = bitlen c.1 - 1 ∧
      SourceHolds (holding (gammaBits (c.2 + 1) ++ msb (c.1 % 2 ^ c.2) c.2) 1 0) (gammaBits (c.2 + 1) ++ msb (c.1 % 2 ^ c.2) c.2) := by
  decide +kernel

theorem witness_OmegaDecodeReturns :
    OmegaGroups 1 [] ∧ SourceHolds (holding [false] 0 0) ([] ++ [false]) ∧
    OmegaGroups 5 ([true, false] ++ [true, false, true]) ∧
      SourceHolds (holding [true, false, true, false, true, false] 0 0) ([true, false] ++ [true, false, true] ++ [false]) :=
  ⟨.one, by decide +kernel, .group 5 [true, false] (by decide) (.group 2 [] (by decide) .one), by decide +kernel⟩

theorem witness_FibonacciDecodeReturns :
    Zeckendorf [true] (0 + 1) ∧ SourceHolds (holding [true, true] 0 0) ([true] ++ [true]) ∧
    Zeckendorf [true, false, true] (3 + 1) ∧ SourceHolds (holding [true, false, true, true] 0 0) ([true, false, true] ++ [true]) := by
  decide +kernel

/-- VByte in its shortest form and in ten bytes; FixedWidth with N = 1 and N = 64. -/
theorem witness_VByteFixedDecodesReturn :
    (∀ c ∈ [(0, 1), (127, 1), (300, 10), (2 ^ 64 - 1, 10)], 1 ≤ c.2 ∧ c.2 ≤ 10 ∧ c.1 < 2 ^ (7 * c.2) ∧ c.1 < 2 ^ 64 ∧
      SourceHolds (holding (vbyteBits c.1 c.2) 0 0) (vbyteBits c.1 c.2)) ∧
    (∀ c ∈ [(1, 1), (2 ^ 64 - 1, 64)], 1 ≤ c.2 ∧ c.2 ≤ 64 ∧ c.1 < 2 ^ c.2 ∧ SourceHolds (holding (lsb c.1 c.2) 0 0) (lsb c.1 c.2)) := by
  decide +kernel

/-- The same source, on a platform that admits nothing from the byte after those bits on. -/
def rejecting (bits : Bits) (arg1 : Word) : State :=
  { holding bits 1 arg1 with plat := { Platform.standard with windows := [(0, 0x1000 + bits.length / 8)] } }

/-- Gamma on u = 4, whose codeword has five bits, cut to none and to four; on u = 100, cut to none and to its first byte, with the next byte not
admitted. -/
theorem witness_ShortDecodesReport :
    decoderFor (.encGamma false) = some (.decGamma false) ∧ gammaCodec.dom 4 = true ∧ gammaCodec.dom 100 = true ∧
    (∀ n ∈ [0, 4], let s := holding ((gammaCodec.word 4).take n) 0 0
      n < (gammaCodec.word 4).length ∧ SourceHolds s ((gammaCodec.word 4).take n) ∧ s.srcPos.toNat + n = s.srcSize.toNat) ∧
    (∀ n ∈ [0, 8], n < (gammaCodec.word 100).length ∧
      SourceRejects (rejecting ((gammaCodec.word 100).take n) 0) ((gammaCodec.word 100).take n)) := by
  decide +kernel

/-- The last byte boundary before each end of CorruptDecodesReport, and the first bit. -/
theorem witness_CorruptDecodesReport_rejected :
    (∀ n ∈ [0, 56], n < 64 ∧ SourceRejects (rejecting (zeros n) 0) (zeros n)) ∧
    (∀ n ∈ [0, 8], n < (gammaBits 65).length ∧ SourceRejects (rejecting ((gammaBits 65).take n) 0) ((gammaBits 65).take n)) ∧
    (∀ g ∈ [[true, false] ++ [true, true, false] ++ msb 64 7], ∀ n ∈ [0, 8], n ≤ g.length ∧
      SourceRejects (rejecting (g.take n) 0) (g.take n)) ∧
    (∀ n ∈ [0, 88], ∀ d ∈ [zeros n], d.length < 93 ∧ SourceRejects (rejecting d 0) d) ∧
    (∀ q ∈ [0, 8], SourceRejects (rejecting (ones q) 3) (ones q) ∧ (rejecting (ones q) 3).arg1 ≠ 0) ∧
    (∀ k ∈ [10, 11], ∀ n ∈ [0, 72], n < 80 ∧
      SourceRejects (rejecting ((vbyteBits (2 ^ 64) k).take n) 0) ((vbyteBits (2 ^ 64) k).take n)) ∧
    (∀ n ∈ [0, 64], n < 65 ∧ SourceRejects (rejecting (zeros n) 0) (zeros n)) := by decide +kernel

/-- The Fibonacci digits of the same: none two in a row. -/
theorem witness_CorruptDecodesReport_rejected_digits :
    ∀ j, (zeros 88).getD j false = true → (zeros 88).getD (j + 1) false = false := by
  intro j h
  rw [zeros, List.getD_eq_getElem?_getD, List.getElem?_replicate] at h
  split at h <;> cases h

/-- Each clause at its least value. -/
theorem witness_CorruptDecodesReport :
    SourceHolds (holding (zeros 64) 0 0) (zeros 64) ∧
    64 < 65 ∧ SourceHolds (holding (gammaBits 65) 0 0) (gammaBits 65) ∧
    SourceHolds (holding (zeros 93) 0 0) (zeros 93) ∧ (∀ j < 92, (zeros 93).getD j false = true → (zeros 93).getD (j + 1) false = false) ∧
    (zeros 93).length = 93 ∧
    2 ^ (64 - 63) ≤ 2 ∧ SourceHolds (holding (ones 2 ++ [false]) 0 0) (ones 2 ++ [false]) ∧
    (∀ c ∈ [(2 ^ 63, 2, 0), (2 ^ 64 - 1, 1, 1)], ∀ b ∈ [bitlen (c.1 - 1)], ∀ cut ∈ [2 ^ b - c.1],
      ∀ bits ∈ [ones c.2.1 ++ [false] ++ (if c.2.2 < cut then msb c.2.2 (b - 1) else msb (c.2.2 + cut) b)],
      c.1 = (holding bits 0 (BitVec.ofNat 64 c.1)).arg1.toNat ∧ c.2.2 < c.1 ∧ 2 ^ 64 ≤ c.2.1 * c.1 + c.2.2 ∧
        SourceHolds (holding bits 0 (BitVec.ofNat 64 c.1)) bits) ∧
    (∀ c ∈ [(2 ^ 64, 10), (2 ^ 70 - 1, 10), (0, 11)], (10 < c.2 ∨ c.2 = 10 ∧ 2 ^ 64 ≤ c.1 ∧ c.1 < 2 ^ 70) ∧
      SourceHolds (holding (vbyteBits c.1 c.2) 0 0) (vbyteBits c.1 c.2)) ∧
    (∀ k ∈ [0, 63], 2 ^ (64 - k) < 2 ^ (64 - k) + 1 ∧
      SourceHolds (holding (gammaBits (2 ^ (64 - k) + 1)) 0 0) (gammaBits (2 ^ (64 - k) + 1))) ∧
    decoderFor (.encFixed 65 false) = some (.decFixed 65 false) := by decide +kernel

/-- The Omega clause of the same, at n = 64; and a parameter just out of range. -/
theorem witness_CorruptDecodesReport_omega :
    OmegaGroups 64 ([true, false] ++ [true, true, false] ++ msb 64 7) ∧ 63 < 64 ∧
    SourceHolds (holding ([true, false] ++ [true, true, false] ++ msb 64 7 ++ [true]) 0 0)
      ([true, false] ++ [true, true, false] ++ msb 64 7 ++ [true]) ∧
    (∃ c, encoderOf (.encFixed 65 false) (holding [] 0 0) = some (false, c, false)) :=
  ⟨.group 64 ([true, false] ++ [true, true, false]) (by decide) (.group 6 [true, false] (by decide) (.group 2 [] (by decide) .one)),
    by decide, by decide +kernel, _, rfl⟩

/-- The Fibonacci clause of the same: the digits of a number past 2^64. -/
theorem witness_CorruptDecodesReport_fib :
    let d := fibDigits 92 (2 ^ 64 + 1)
    Zeckendorf d (2 ^ 64 + 1) ∧ 2 ^ 64 < 2 ^ 64 + 1 ∧ SourceHolds (holding (d ++ [true]) 0 0) (d ++ [true]) := by decide +kernel

/-- A zero-bit prefix before the codeword, S = 1, and a source that ends with it. -/
theorem witness_CodecRoundTrip :
    let s := sink 20 3 5 (-3) 0
    decoderFor (.encGamma true) = some (.decGamma true) ∧ s.mem.wf ∧ StreamInv s ∧
    ∃ t, exec (.encGamma true) s = .next t ∧ t.err = .ok ∧
      let v := { t with srcBase := s.sinkBase, srcPos := s.sinkCursor, srcSize := t.sinkCursor }
      v.mem = t.mem ∧ v.plat = s.plat ∧ v.arg1 = s.arg1 ∧ v.srcBase = s.sinkBase ∧ v.srcPos = s.sinkCursor ∧
        t.sinkCursor.toNat ≤ v.srcSize.toNat :=
  ⟨rfl, by decide +kernel, by decide +kernel, _, rfl, by decide +kernel, by decide +kernel⟩

theorem witness_RiceIsGolombOfPowerOfTwo :
    0 ≤ 63 ∧ 63 ≤ 63 ∧ 2 ^ 63 - 1 < 2 ^ 63 ∧ ∀ k ∈ [0, 63], (sink 8 0 0 1 (BitVec.ofNat 64 (2 ^ k))).arg1.toNat = 2 ^ k := by decide +kernel

/-- n = VMAX with fill 1, and the two refusals. -/
theorem witness_VectorInitFills :
    (let s := sink 0 0 0 131072 1; s.arg0.toNat ≤ s.plat.vmax ∧ s.arg1.toNat ≤ 1) ∧
    (let s := sink 0 0 0 131073 1; s.plat.vmax < s.arg0.toNat) ∧ (let s := sink 0 0 0 0 2; 1 < s.arg1.toNat) := by decide +kernel

theorem witness_CellCommands :
    (let s := vector 3 true 2; s.svBits.length = s.svLen.toNat ∧ s.arg0.toNat < s.svLen.toNat) ∧
    (let s := vector 3 true 3; s.svBits.length = s.svLen.toNat ∧ s.svLen.toNat ≤ s.arg0.toNat) := by decide +kernel

theorem witness_BuildStoresCounts : VectorInv (vector 0 false 0) ∧ VectorInv { vector 513 true 0 with index := .unindexed } := by
  decide +kernel

/-- pos = 0, inside, and at n; a consistent index and one that is not. -/
theorem witness_RankReturnsCount :
    (∀ s ∈ [vector 513 true 0, vector 513 true 512, vector 513 true 513], VectorInv s ∧ s.index = .indexed ∧ consistent s = true) ∧
    (let s := { vector 513 true 512 with index := .unindexed }; VectorInv s ∧ s.index = .unindexed) ∧
    (let s := vector 513 true 512; s.arg0 ≠ 0 ∧ s.arg0.toNat < s.svLen.toNat) ∧
    (let s := vector 513 true 513; s.arg0 ≠ 0 ∧ s.svLen.toNat ≤ s.arg0.toNat) := by decide +kernel

theorem witness_SelectFindsPosition :
    (let s := vector 3 true 2; VectorInv s ∧ s.index = .indexed ∧ s.arg0.toNat < s.svTotal.toNat ∧ consistent s = true) ∧
    (let s := vector 3 true 3; VectorInv s ∧ s.index = .indexed ∧ s.svTotal.toNat ≤ s.arg0.toNat) ∧
    (let s := { vector 3 true 3 with svTotal := 4 }
     VectorInv s ∧ s.index = .indexed ∧ s.arg0.toNat < s.svTotal.toNat ∧ consistent s = false) ∧
    (let s := { vector 3 true 3 with index := .unindexed }; VectorInv s ∧ s.index = .unindexed) := by decide +kernel

/-- The 64-bit wire of L2.6's unaligned example, in a sink that it fills and in one a bit shorter. -/
theorem witness_VectorEncodeAppendsWire :
    ∀ s ∈ [{ vector 1 true 0 with sinkCap := 64, sinkCursor := 3, pend := 5 },
        { vector 1 true 0 with sinkCap := 63, sinkCursor := 3, pend := 5 }],
      s.mem.wf ∧ StreamInv s ∧ VectorInv s ∧ s.index = .indexed ∧ SinkAdmits s 61 ∧
      ∀ bits ∈ [vbyteBits s.svLen.toNat (max 1 ((bitlen s.svLen.toNat + 6) / 7)) ++ s.svBits
        ++ zeros ((8 - (s.sinkCursor.toNat + 8 * max 1 ((bitlen s.svLen.toNat + 6) / 7) + s.svLen.toNat) % 8) % 8)
        ++ (s.sb.map fun x => lsb x.toNat 32).flatten ++ (s.bk.map fun x => lsb x.toNat 16).flatten],
        bits.length = 61 ∧ s.sinkRoom + s.sinkCursor.toNat = s.sinkCap.toNat := by decide +kernel

/-- The same, where the platform admits one byte of the eight. -/
theorem witness_VectorEncodeAppendsWire_rejected :
    let s := { vector 1 true 0 with
      sinkCap := 64, sinkCursor := 3, pend := 5, plat := { Platform.standard with windows := [(0, 0x1001)] } }
    s.mem.wf ∧ StreamInv s ∧ VectorInv s ∧ s.index = .indexed ∧ ¬ SinkAdmits s 61 ∧ 61 ≤ s.sinkRoom := by decide +kernel

/-- The wire of n = 3: its count in k bytes, its pad all ones, its stored counts not its bits'. -/
def longWire (k : Nat) : Bits :=
  vbyteBits 3 k ++ [true, false, true] ++ ones 5 ++ lsb 7 32 ++ lsb 9 16

/-- The count in one and in ten bytes; the wire whole, cut short at its two ends, and with its first and its last byte not admitted. -/
theorem witness_VectorDecodeReadsWire :
    ∀ k ∈ [1, 10], ∀ all ∈ [longWire k],
      State.reset.plat.Valid ∧ 3 ≤ State.reset.plat.vmax ∧ 3 < 2 ^ (7 * k) ∧ [true, false, true].length = 3 ∧
      all = vbyteBits 3 k ++ [true, false, true] ++ ones 5 ++ ([(7 : BitVec 32)].map fun x => lsb x.toNat 32).flatten
        ++ ([(9 : BitVec 16)].map fun x => lsb x.toNat 16).flatten ∧
      [(7 : BitVec 32)].length = superCount 3 ∧ [(9 : BitVec 16)].length = blockCount 3 ∧
      (ones 5).length = (8 - ((holding all 2 0).srcPos.toNat + 8 * k + 3) % 8) % 8 ∧ SourceHolds (holding all 2 0) all ∧
      (∀ m ∈ [0, all.length - 1], m < all.length ∧ SourceHolds (holding (all.take m) 0 0) (all.take m) ∧
        (holding (all.take m) 0 0).srcPos.toNat + m = (holding (all.take m) 0 0).srcSize.toNat) ∧
      (∀ m ∈ [0, all.length - 8], m < all.length ∧ SourceRejects (rejecting (all.take m) 0) (all.take m)) := by decide +kernel

/-- Counts that are refused: VMAX + 1 in three bytes, the greatest of ten bytes, and eleven bytes. -/
theorem witness_VectorDecodeReadsWire_refused :
    ∀ c ∈ [(131073, 3), (2 ^ 70 - 1, 10), (0, 11)], ∀ s ∈ [holding (vbyteBits c.1 c.2) 0 0],
      (1 ≤ c.2 ∧ c.2 ≤ 10 ∧ s.plat.vmax < c.1 ∧ c.1 < 2 ^ (7 * c.2) ∨ 10 < c.2) ∧ SourceHolds s (vbyteBits c.1 c.2) := by decide +kernel

theorem witness_VectorZeroCopyRoundTrip :
    let s := { vector 1 true 0 with sinkCap := 64, sinkCursor := 3, pend := 5 }
    s.mem.wf ∧ StreamInv s ∧ VectorInv s ∧ consistent s = true ∧
    s.svTotal.toNat = totalIdx s.svLen.toNat s.sb s.bk s.svBits ∧ ∃ t, exec .svEncode s = .next t ∧ t.err = .ok ∧
      let u := { t with srcBase := s.sinkBase, srcPos := s.sinkCursor, srcSize := t.sinkCursor }
      u.mem = t.mem ∧ u.plat = s.plat ∧ u.srcBase = s.sinkBase ∧ u.srcPos = s.sinkCursor ∧
        t.sinkCursor.toNat ≤ u.srcSize.toNat :=
  ⟨by decide +kernel, by decide +kernel, by decide +kernel, by decide +kernel, by decide +kernel, _, rfl, by decide +kernel,
    by decide +kernel⟩

/-- A block count that its bits do not have, with the SV_TOTAL that the stored counts give. -/
theorem witness_VectorZeroCopyRoundTrip_inconsistent :
    let s := { vector 1 true 0 with sinkCap := 64, sinkCursor := 3, pend := 5, bk := [5], svTotal := 6 }
    s.mem.wf ∧ StreamInv s ∧ VectorInv s ∧ consistent s = false ∧ s.svTotal.toNat = totalIdx s.svLen.toNat s.sb s.bk s.svBits ∧
      (nextOf (exec .svEncode s)).map (·.err) = some .ok := by decide +kernel

/-- A host write to the sink's byte while ENC_GAMMA is in flight leaves such a state. -/
theorem witness_RacedCommandStaysInItsBuffers :
    (nextOf (step { sink 20 3 5 7 0 with cmd := 0x22, host := [.write 0x1000 [9]] })).any (fun s => decide
      (s.mem.wf ∧ s.host = [] ∧ s.busy = true ∧ s.fault = false ∧ s.raced = true ∧ decode s.cmd = .ok (.encGamma false))) = true := by
  decide +kernel

/-- The clauses of the same: bytes ENC_GAMMA of 7 stores and does not, and an ENC_GAMMA of 0, which appends nothing. -/
theorem witness_RacedCommandStaysInItsBuffers_clauses :
    (let s := { sink 20 3 5 7 0 with cmd := 0x22, raced := true }
     sinkLength (.encGamma false) s = 5 ∧ [0xFFF, 0x1000, 0x1001].map (s.stores (.encGamma false)) = [false, true, false] ∧
       readsSource (.encGamma false) = false ∧ readsValue (.encGamma false) = false) ∧
    (let s := { sink 20 3 5 0 0 with cmd := 0x22, raced := true }
     sinkLength (.encGamma false) s = 0 ∧ s.stores (.encGamma false) 0x1000 = false) ∧ writesSink (.decGamma false) = false := by
  decide +kernel

end Sys2Proof.Tests
end

