-- ==== Sys2Proof/Proofs/Reset.lean ====
section
/-! PROOFS. What the register block reads after reset (10_state.md R33, R35, R65). -/
namespace Sys2Proof.Machine

/-- R13, R33: a valid VMAX fits the low half of CAPS, so nothing of it is cut off. -/
theorem State.caps_eq_vmax {s : State} (h : s.plat.Valid) : s.caps = BitVec.ofNat 64 s.plat.vmax := by
  have hlt : s.plat.vmax < 2 ^ 32 := by
    have := h.2
    omega
  rw [State.caps, Nat.mod_eq_of_lt hlt]

/-- R35, R65: every field of STATUS is 0 after reset. -/
@[simp] theorem State.status_resetOn (p : Platform) : (State.resetOn p).status = 0 := rfl

/-- R30, R65: after reset every offset but that of CAPS reads 0, the reserved ones too. -/
theorem State.readReg_resetOn_of_ne_zero (p : Platform) {off : Nat} (h : off ≠ 0) : (State.resetOn p).readReg off = 0 := by
  unfold State.readReg
  split
  case h_1 => exact absurd rfl h
  case h_2 => exact State.status_resetOn p
  all_goals rfl

/-- R65: after reset CAPS, at offset 0, reads VMAX. -/
theorem State.readReg_resetOn_zero {p : Platform} (h : p.Valid) : (State.resetOn p).readReg 0 = BitVec.ofNat 64 p.vmax :=
  State.caps_eq_vmax (s := State.resetOn p) h

/-- Settles O7: offset 0 is CAPS and every other offset reads a field that reset clears, or nothing; the hidden fields are
`State.resetOn`'s own. -/
theorem resetLeavesRegisters : Obligations.ResetLeavesRegisters := by
  intro p hp
  refine ⟨fun off _ => ?_, rfl, rfl, rfl, rfl⟩
  split
  next h => exact h ▸ State.readReg_resetOn_zero hp
  next h => exact State.readReg_resetOn_of_ne_zero p h

end Sys2Proof.Machine
end

