-- ==== Sys2Proof/Proofs/Encoding.lean ====
section
/-! PROOFS. Which command words decode (30_encoding.md R110, R113, R115), and what the engine does with a word it does not run
(30_encoding.md R116, 60_exceptions.md R365). -/

namespace Sys2Proof

/-! ### The fields of a word as bit slices (R110) -/

theorem toNat_extract_op (w : Word) : (w.extractLsb' 0 8).toNat = opField w := by
  simp [opField, BitVec.extractLsb'_toNat]

theorem extract_param_eq_zero_iff (w : Word) : w.extractLsb' 8 7 = 0 ↔ paramField w = 0 := by
  simp [← BitVec.toNat_inj, paramField, BitVec.extractLsb'_toNat, Nat.shiftRight_eq_div_pow]

theorem getLsbD_sign (w : Word) : w.getLsbD 15 = signField w := by
  simp [signField, BitVec.getLsbD, Nat.testBit_eq_decide_div_mod_eq, beq_eq_decide]

theorem extract_reserved_eq_zero_iff (w : Word) : w.extractLsb' 16 48 = 0 ↔ reservedField w = 0 := by
  have hlt : w.toNat / 65536 < 2 ^ 48 := by
    have := w.isLt
    omega
  rw [← BitVec.toNat_inj, BitVec.extractLsb'_toNat, Nat.shiftRight_eq_div_pow, Nat.mod_eq_of_lt hlt]
  rfl

/-! ### The rows of R113, classed by their S and P columns -/

/-- The rows with neither S nor P: the bit-stream and the succinct bit-vector families. -/
def PlainOpcode (op : Nat) : Prop := 1 ≤ op ∧ op ≤ 0x0F ∨ 0x40 ≤ op ∧ op ≤ 0x49

/-- The rows with S and without P: the codecs whose codeword has no parameter in the command word. -/
def UnparamOpcode (op : Nat) : Prop := 0x20 ≤ op ∧ op ≤ 0x29 ∨ 0x2C ≤ op ∧ op ≤ 0x2F

/-- The rows with S and P: Rice, Exp-Golomb and FixedWidth. -/
def ParamOpcode (op : Nat) : Prop := op ∈ [0x2A, 0x2B, 0x30, 0x31, 0x32, 0x33]

theorem paramOpcode_iff (op : Nat) : ParamOpcode op ↔ 0x2A ≤ op ∧ op ≤ 0x2B ∨ 0x30 ≤ op ∧ op ≤ 0x33 := by
  simp only [ParamOpcode, List.mem_cons, List.not_mem_nil, or_false]
  omega

/-- The codec family is the rows with S. -/
theorem codec_opcode_iff (op : Nat) : 0x20 ≤ op ∧ op ≤ 0x33 ↔ UnparamOpcode op ∨ ParamOpcode op := by
  rw [paramOpcode_iff, UnparamOpcode]
  omega

/-- The opcodes of R113 are those of the three classes. -/
theorem opcode_iff (op : Nat) : 1 ≤ op ∧ op ≤ 0x0F ∨ 0x20 ≤ op ∧ op ≤ 0x33 ∨ 0x40 ≤ op ∧ op ≤ 0x49 ↔
    PlainOpcode op ∨ UnparamOpcode op ∨ ParamOpcode op := by
  rw [← codec_opcode_iff, PlainOpcode]
  omega

theorem PlainOpcode.not_codec {op : Nat} (h : PlainOpcode op) : ¬ (0x20 ≤ op ∧ op ≤ 0x33) := by
  unfold PlainOpcode at h
  omega

theorem PlainOpcode.not_unparam {op : Nat} (h : PlainOpcode op) : ¬ UnparamOpcode op :=
  fun hu => h.not_codec ((codec_opcode_iff op).2 (.inl hu))

theorem PlainOpcode.not_param {op : Nat} (h : PlainOpcode op) : ¬ ParamOpcode op :=
  fun hp => h.not_codec ((codec_opcode_iff op).2 (.inr hp))

theorem UnparamOpcode.not_param {op : Nat} (h : UnparamOpcode op) : ¬ ParamOpcode op := by
  rw [paramOpcode_iff]
  unfold UnparamOpcode at h
  omega

/-! ### What the decoder does with each class (R115) -/

theorem unparameterised_isOk_iff (w : Word) (i : Instr) : (∃ j, unparameterised w i = .ok j) ↔ paramField w = 0 := by
  unfold unparameterised
  split <;> simp_all

theorem plain_isOk_iff (w : Word) (i : Instr) : (∃ j, plain w i = .ok j) ↔ signField w = false ∧ paramField w = 0 := by
  unfold plain
  cases signField w with
  | false => simpa using unparameterised_isOk_iff w i
  | true => simp

theorem decode_of_reserved {w : Word} (h : reservedField w ≠ 0) : decode w = .error .reservedBits := if_pos h

theorem decode_of_plain {w : Word} (hr : reservedField w = 0) (h : PlainOpcode (opField w)) : ∃ i, decode w = plain w i := by
  unfold decode
  obtain ⟨hlo, hhi⟩ | ⟨hlo, hhi⟩ := h <;> interval_cases opField w <;> exact ⟨_, if_neg (not_not.2 hr)⟩

theorem decode_of_unparam {w : Word} (hr : reservedField w = 0) (h : UnparamOpcode (opField w)) :
    ∃ i, decode w = unparameterised w i := by
  unfold decode
  obtain ⟨hlo, hhi⟩ | ⟨hlo, hhi⟩ := h <;> interval_cases opField w <;> exact ⟨_, if_neg (not_not.2 hr)⟩

theorem decode_of_param {w : Word} (hr : reservedField w = 0) (h : ParamOpcode (opField w)) : ∃ i, decode w = .ok i := by
  unfold decode
  obtain ⟨hlo, hhi⟩ | ⟨hlo, hhi⟩ := (paramOpcode_iff _).1 h <;> interval_cases opField w <;> exact ⟨_, if_neg (not_not.2 hr)⟩

theorem decode_of_no_row {w : Word} (hr : reservedField w = 0)
    (h : ¬ (PlainOpcode (opField w) ∨ UnparamOpcode (opField w) ∨ ParamOpcode (opField w))) :
    decode w = .error .reservedOpcode := by
  rw [← opcode_iff] at h
  rw [decode, if_neg (not_not.2 hr)]
  split
  case h_46 => rfl
  all_goals omega

/-- R115 in the decoder's own fields: which words decode, by the class of the opcode's row. -/
theorem decode_isOk_iff (w : Word) : (∃ i, decode w = .ok i) ↔
    reservedField w = 0 ∧ (PlainOpcode (opField w) ∧ signField w = false ∧ paramField w = 0 ∨
      UnparamOpcode (opField w) ∧ paramField w = 0 ∨ ParamOpcode (opField w)) := by
  by_cases hr : reservedField w = 0
  case neg => simp [decode_of_reserved hr, hr]
  by_cases hrow : PlainOpcode (opField w) ∨ UnparamOpcode (opField w) ∨ ParamOpcode (opField w)
  case neg =>
    obtain ⟨hn, hu, hp⟩ : ¬ PlainOpcode (opField w) ∧ ¬ UnparamOpcode (opField w) ∧ ¬ ParamOpcode (opField w) := by
      simpa only [not_or] using hrow
    simp [decode_of_no_row hr hrow, hn, hu, hp]
  obtain hn | hu | hp := hrow
  · obtain ⟨i, hi⟩ := decode_of_plain hr hn
    simp [hi, plain_isOk_iff, hr, hn, hn.not_unparam, hn.not_param]
  · obtain ⟨i, hi⟩ := decode_of_unparam hr hu
    have hn : ¬ PlainOpcode (opField w) := fun hn => hn.not_unparam hu
    simp [hi, unparameterised_isOk_iff, hr, hn, hu, hu.not_param]
  · simp [decode_of_param hr hp, hr, hp]

/-- Settles O3: R115's S and P clauses, which speak of every word, say of each class of rows what `decode_isOk_iff` says. -/
theorem legalWords : Obligations.LegalWords := by
  intro w
  rw [decode_isOk_iff, extract_reserved_eq_zero_iff, extract_param_eq_zero_iff, getLsbD_sign, toNat_extract_op, opcode_iff]
  constructor
  · rintro ⟨hr, ⟨hn, hs, hp⟩ | ⟨hu, hp⟩ | hrow⟩
    · exact ⟨hr, .inl hn, .inl hs, .inl hp⟩
    · exact ⟨hr, .inr (.inl hu), .inr ((codec_opcode_iff _).2 (.inl hu)), .inl hp⟩
    · exact ⟨hr, .inr (.inr hrow), .inr ((codec_opcode_iff _).2 (.inr hrow)), .inr hrow⟩
  · rintro ⟨hr, hn | hu | hrow, hs, hp⟩
    · exact ⟨hr, .inl ⟨hn, hs.resolve_right hn.not_codec, hp.resolve_right hn.not_param⟩⟩
    · exact ⟨hr, .inr (.inl ⟨hu, hp.resolve_right hu.not_param⟩)⟩
    · exact ⟨hr, .inr (.inr hrow)⟩

end Sys2Proof

namespace Sys2Proof.Machine

/-! ### The checks before a command's own rule (R365, R367) -/

theorem engineStep_of_fault {s : State} (h : s.fault = true) : engineStep s = .next (s.complete .faulted) := by
  rw [engineStep, if_pos h, raise_nonfatal .faulted s rfl]

theorem engineStep_of_illegal {s : State} {e : Illegal} (h : s.fault = false) (hd : decode s.cmd = .error e) :
    engineStep s = .next (s.complete .illegalCommand) := by
  simp only [engineStep, h, hd, Bool.false_eq_true, if_false, raise_nonfatal .illegalCommand s rfl]

/-- Settles O6: after the CMD write the engine's step is next, and each check ends it with a code that is not fatal. -/
theorem faultedAndIllegalWordsEnd : Obligations.FaultedAndIllegalWordsEnd := by
  intro s w hhost
  rw [step_busy (s := s.accept w) hhost rfl]
  refine ⟨fun hfault => ?_, fun hfault ⟨e, hdecode⟩ => ?_⟩
  · exact engineStep_of_fault (s := s.accept w) hfault
  · exact engineStep_of_illegal (s := s.accept w) hfault hdecode

end Sys2Proof.Machine
end

