-- ==== Sys2Proof/Proofs/Stream.lean ====
section
/-! PROOFS. The bit-stream commands (41_bitstream.md): what each appends, reads or moves, and the errors in their order. -/
namespace Sys2Proof.Machine

/-! ### The bits left in a stream, and moving SRC_POS -/

theorem State.sinkRoom_lt_iff {s : State} {n : Nat} (h : s.sinkCursor.toNat ≤ s.sinkCap.toNat) :
    s.sinkRoom < n ↔ s.sinkCap.toNat < s.sinkCursor.toNat + n := by
  unfold State.sinkRoom
  omega

theorem State.srcLeft_lt_iff {s : State} {n : Nat} (h : s.srcPos.toNat ≤ s.srcSize.toNat) :
    s.srcLeft < n ↔ s.srcSize.toNat < s.srcPos.toNat + n := by
  unfold State.srcLeft
  omega

theorem State.le_sinkRoom {s : State} {n : Nat} (h : s.sinkCursor.toNat + n ≤ s.sinkCap.toNat) : n ≤ s.sinkRoom :=
  Nat.le_sub_of_add_le' h

theorem State.le_srcLeft {s : State} {n : Nat} (h : s.srcPos.toNat + n ≤ s.srcSize.toNat) : n ≤ s.srcLeft :=
  Nat.le_sub_of_add_le' h

theorem State.advanceSource_eq (s : State) (n : Nat) :
    s.advanceSource n = { s with srcPos := BitVec.ofNat 64 (s.srcPos.toNat + n) } := by
  rw [State.advanceSource, BitVec.ofNat_add, BitVec.ofNat_toNat, BitVec.setWidth_eq]

/-- `padTo8` is the one pad below 8 that reaches a byte boundary (R143, R154). -/
theorem padTo8_eq {c pad : Nat} (hlt : pad < 8) (h : (c + pad) % 8 = 0) : padTo8 c = pad := by
  unfold padTo8
  omega

/-! ### Opening a buffer (R140, R147) -/

theorem regionFits_iff (base bits : Word) : regionFits base bits = true ↔ base.toNat + (bits.toNat + 7) / 8 ≤ 2 ^ 64 := by
  rw [regionFits, decide_eq_true_eq, ceilDiv_eight]

/-- Settles O25: both commands turn on the one check `regionFits`. -/
theorem buffersOpen : Obligations.BuffersOpen := by
  intro s
  refine ⟨fun hfits => ?_, fun hpast => ?_⟩
  · have h := (regionFits_iff _ _).2 hfits
    exact ⟨by rw [exec, execSinkInit, h]; rfl, by rw [exec, execSrcInit, h]; rfl⟩
  · have h : regionFits s.arg0 s.arg1 = false := by
      rw [← Bool.not_eq_true, regionFits_iff]
      omega
    exact ⟨by rw [exec, execSinkInit, h]; rfl, by rw [exec, execSrcInit, h]; rfl⟩

/-! ### Writing the sink (R141, R142, R143) -/

/-- A stream command's write inside one byte that is not admitted makes no access, so memory stays (R366). -/
theorem putBits_busError_oneByte {bits : Bits} {s : State} (hbyte : s.sinkCursor.toNat % 8 + bits.length ≤ 8)
    (ha : ¬ SinkAdmits s bits.length) : putBits .stream bits s = { s.faultedWith .busError with draws := s.draws + 1 } := by
  have hrejected : s.scrambleSink .stream bits.length = s.mem := by
    refine s.scrambleSink_rejected _ fun a hlo hhi => ?_
    rw [ceilDiv_eight] at hhi
    rw [← Bool.not_eq_true]
    intro hadm
    refine ha fun j hj => ?_
    rwa [show s.sinkBase.toNat + (s.sinkCursor.toNat + j) / 8 = a by omega]
  rw [putBits_busError _ _ _ ha, sinkBusError, hrejected, raise_fatal _ _ rfl]

theorem execWriteBit_invalid {s : State} (hbit : 1 < s.arg0.toNat) :
    execWriteBit s = .next (s.endedWith .invalidParameter) := by
  rw [execWriteBit, if_pos hbit, raise_nonfatal _ _ rfl, State.complete]

theorem execWriteBit_overflow {s : State} (hbit : s.arg0.toNat ≤ 1) (hfull : s.sinkCursor = s.sinkCap) :
    execWriteBit s = .next (s.endedWith .bufferOverflow) := by
  have hroom : s.sinkRoom < 1 := by simp [State.sinkRoom, hfull]
  rw [execWriteBit, if_neg (by omega), if_pos hroom, raise_nonfatal _ _ rfl, State.complete]

theorem execWriteBit_of_room {s : State} (hbit : s.arg0.toNat ≤ 1) (hroom : s.sinkCursor.toNat + 1 ≤ s.sinkCap.toNat) :
    execWriteBit s = .next (putBits .stream [s.arg0.getLsbD 0] s) := by
  have hb : (s.arg0.toNat == 1) = s.arg0.getLsbD 0 := by
    obtain h | h : s.arg0.toNat = 0 ∨ s.arg0.toNat = 1 := by omega
    all_goals simp [BitVec.getLsbD, h]
  rw [execWriteBit, if_neg (by omega), if_neg (Nat.not_lt.2 (State.le_sinkRoom hroom)), hb]

/-- A WRITE_BIT that ends with OK has passed both checks of R141. -/
theorem execWriteBit_checks {s t : State} (hs : StreamInv s) (h : execWriteBit s = .next t) (hok : t.err = .ok) :
    s.arg0.toNat ≤ 1 ∧ s.sinkCursor.toNat + 1 ≤ s.sinkCap.toNat := by
  obtain ⟨hcur, -⟩ := hs
  simp only [execWriteBit, Host.Outcome.next.injEq] at h
  split at h
  next => simp [← h] at hok
  next hbit =>
    split at h
    next => simp [← h] at hok
    next hroom =>
      rw [State.sinkRoom_lt_iff hcur] at hroom
      omega

/-- A WRITE_BITS that ends with OK has passed both checks of R142, so it is a sink write of the low n bits of ARG0. -/
theorem execWriteBits_of_ok {s t : State} (h : execWriteBits s = .next t) (hok : t.err = .ok) :
    s.arg1.toNat ≤ s.sinkRoom ∧ t = putBits .stream (lsb (s.arg0.toNat % 2 ^ s.arg1.toNat) s.arg1.toNat) s := by
  simp only [execWriteBits, Host.Outcome.next.injEq] at h
  split at h
  next => simp [← h] at hok
  next =>
    split at h
    next => simp [← h] at hok
    next hroom => exact ⟨Nat.le_of_not_lt hroom, h.symm⟩

/-- Settles O26: one bit lies in one byte, so a rejected write is not made at all. -/
theorem writeBitAppends : Obligations.WriteBitAppends := by
  intro s hm hs
  refine ⟨fun hbit hroom ha => ?_, execWriteBit_invalid, execWriteBit_overflow, fun hbit hroom ha => ?_⟩
  · exact ⟨_, execWriteBit_of_room hbit hroom, putBits_appends _ _ _ hm hs (State.le_sinkRoom hroom) ha⟩
  · refine ⟨s.draws + 1, (execWriteBit_of_room hbit hroom).trans (congrArg _ ?_)⟩
    exact putBits_busError_oneByte (by simp; omega) ha

theorem execAlign_overflow {s : State} {pad : Nat} (hpad : padTo8 s.sinkCursor.toNat = pad) (hroom : s.sinkRoom < pad) :
    execAlign s = .next (s.endedWith .bufferOverflow) := by
  rw [execAlign, hpad, if_pos hroom, raise_nonfatal _ _ rfl, State.complete]

theorem execAlign_of_room {s : State} {pad : Nat} (hpad : padTo8 s.sinkCursor.toNat = pad) (hroom : pad ≤ s.sinkRoom) :
    execAlign s = .next (putBits .stream (List.replicate pad false) s) := by
  rw [execAlign, hpad, if_neg (by omega), zeros]

/-- Settles O28: the pad bits end at the byte boundary, so they lie in the byte at the cursor. -/
theorem alignPadsToByte : Obligations.AlignPadsToByte := by
  intro s hm hs
  obtain ⟨hcur, -⟩ := id hs
  refine ⟨fun pad hlt hmod hroom ha => ?_, fun pad hlt hmod hfull => ?_, fun pad hlt hmod hroom ha => ?_⟩
  · have hroom : pad ≤ s.sinkRoom := State.le_sinkRoom hroom
    have happ : Appended (List.replicate pad false) s (putBits .stream (List.replicate pad false) s) :=
      putBits_appends _ _ _ hm hs (by simpa using hroom) (by simpa using ha)
    refine ⟨_, execAlign_of_room (padTo8_eq hlt hmod) hroom, happ, ?_⟩
    rw [happ.cursor, List.length_replicate, hmod]
  · exact execAlign_overflow (padTo8_eq hlt hmod) ((State.sinkRoom_lt_iff hcur).2 hfull)
  · refine ⟨s.draws + 1, (execAlign_of_room (padTo8_eq hlt hmod) (State.le_sinkRoom hroom)).trans (congrArg _ ?_)⟩
    exact putBits_busError_oneByte (by simp; omega) (by simpa using ha)

/-! ### Reading the source (R148, R149) -/

theorem execReadBit_underflow {s : State} (hend : s.srcPos = s.srcSize) :
    execReadBit s = .next (s.endedWith .bufferUnderflow) := by
  have hleft : s.srcLeft < 1 := by simp [State.srcLeft, hend]
  rw [execReadBit, if_pos hleft, raise_nonfatal _ _ rfl, State.complete]

theorem execReadBit_holds {s : State} {b : Bool} (h : SourceHolds s [b]) :
    execReadBit s = .next { s with
      busy := false, err := .ok, result := if b then 1 else 0, srcPos := BitVec.ofNat 64 (s.srcPos.toNat + 1) } := by
  obtain ⟨hlen, -⟩ := id h
  rw [List.length_singleton] at hlen
  rw [execReadBit, if_neg (Nat.not_lt.2 (State.le_srcLeft hlen)), getBit_holds h.holdsAt, State.advanceSource_eq]
  rfl

theorem execReadBit_bus {s : State} (hleft : s.srcPos.toNat < s.srcSize.toNat) (ha : ¬ SourceAdmits s 1) :
    execReadBit s = .next (s.faultedWith .busError) := by
  have hbus : getBit s 0 = .error .bus := by
    obtain ⟨hend, -⟩ | ⟨-, -, h⟩ | ⟨-, hadm, -⟩ := getBit_cases s 0
    · omega
    · exact h
    · exact absurd (fun j hj => by rwa [Nat.lt_one_iff.1 hj]) ha
  rw [execReadBit, if_neg (Nat.not_lt.2 (State.le_srcLeft hleft)), hbus]
  exact congrArg _ (raise_fatal _ _ rfl)

/-- Settles O30: an unread bit whose byte is admitted is a one-bit string the source holds. -/
theorem readBitReturns : Obligations.ReadBitReturns := by
  intro s
  refine ⟨fun hleft ha => ?_, execReadBit_underflow, execReadBit_bus⟩
  exact execReadBit_holds ⟨hleft, ha, by simp⟩

/-- `GetBitsLSB` on bits that are there ends with BUS_ERROR when one of them is in a byte that is not admitted (R80, R91). -/
theorem getBitsLSB_bus {s : State} {n k : Nat} (hlen : s.srcPos.toNat + (k + n) ≤ s.srcSize.toNat)
    (ha : ¬ ∀ j < n, s.plat.admits (s.srcBase.toNat + (s.srcPos.toNat + (k + j)) / 8) = true) :
    getBitsLSB s n k = .error .bus := by
  induction n generalizing k with
  | zero => exact absurd (fun j hj => absurd hj (Nat.not_lt_zero j)) ha
  | succ n ih =>
    rw [getBitsLSB]
    obtain ⟨hend, -⟩ | ⟨-, -, h⟩ | ⟨-, hadm, h⟩ := getBit_cases s k
    · omega
    · exact bind_error h
    · have hrest : getBitsLSB s n (k + 1) = .error .bus := by
        refine ih (by omega) fun hrest => ha fun j hj => ?_
        cases j with
        | zero => exact hadm
        | succ j =>
          rw [show k + (j + 1) = k + 1 + j by omega]
          exact hrest j (by omega)
      rw [bind_ok h, bind_error hrest]

theorem execReadBits_invalid {s : State} (hn : 64 < s.arg0.toNat) :
    execReadBits s = .next (s.endedWith .invalidParameter) := by
  rw [execReadBits, if_pos hn, raise_nonfatal _ _ rfl, State.complete]

theorem execReadBits_underflow {s : State} (hn : s.arg0.toNat ≤ 64) (hleft : s.srcLeft < s.arg0.toNat) :
    execReadBits s = .next (s.endedWith .bufferUnderflow) := by
  rw [execReadBits, if_neg (by omega), if_pos hleft, raise_nonfatal _ _ rfl, State.complete]

/-- R149: on a source that holds the low n bits of a number, READ_BITS returns them. -/
theorem execReadBits_holds {s : State} {v : Nat} (hn : s.arg0.toNat ≤ 64) (h : SourceHolds s (lsb v s.arg0.toNat)) :
    execReadBits s = .next { s with
      busy := false, err := .ok, result := BitVec.ofNat 64 (v % 2 ^ s.arg0.toNat)
      srcPos := BitVec.ofNat 64 (s.srcPos.toNat + s.arg0.toNat) } := by
  obtain ⟨hlen, -⟩ := id h
  rw [length_lsb] at hlen
  rw [execReadBits, if_neg (by omega), if_neg (Nat.not_lt.2 (State.le_srcLeft hlen)),
    getBitsLSB_holds h.holdsAt, State.advanceSource_eq]
  rfl

theorem execReadBits_bus {s : State} (hn : s.arg0.toNat ≤ 64) (hlen : s.srcPos.toNat + s.arg0.toNat ≤ s.srcSize.toNat)
    (ha : ¬ SourceAdmits s s.arg0.toNat) : execReadBits s = .next (s.faultedWith .busError) := by
  have hbus : getBitsLSB s s.arg0.toNat 0 = .error .bus := getBitsLSB_bus (by omega) (by simpa using ha)
  rw [execReadBits, if_neg (by omega), if_neg (Nat.not_lt.2 (State.le_srcLeft hlen)), hbus]
  exact congrArg _ (raise_fatal _ _ rfl)

/-- The number whose low bits are the next `n` bits of the source, the first as bit 0. -/
def State.sourceNat (s : State) (n : Nat) : Nat := Nat.ofBits fun j : Fin n => s.sourceBit (s.srcPos.toNat + j)

theorem State.testBit_sourceNat (s : State) (n j : Nat) :
    (s.sourceNat n).testBit j = (decide (j < n) && s.sourceBit (s.srcPos.toNat + j)) := by
  by_cases hj : j < n
  · simp [State.sourceNat, Nat.testBit_ofBits_lt _ _ hj, hj]
  · simp [State.sourceNat, Nat.testBit_ofBits_ge _ _ (Nat.le_of_not_lt hj), hj]

/-- A source with `n` unread bits in admitted bytes holds the bits of its own number. -/
theorem sourceHolds_sourceNat {s : State} {n : Nat} (hlen : s.srcPos.toNat + n ≤ s.srcSize.toNat) (ha : SourceAdmits s n) :
    SourceHolds s (lsb (s.sourceNat n) n) := by
  refine ⟨by simpa using hlen, by simpa using ha, fun j hj => ?_⟩
  rw [length_lsb] at hj
  simp [lsb, State.testBit_sourceNat, hj]

/-- Settles O31: the value returned is `sourceNat`, whose bits are the source's next n bits and zeros above. -/
theorem readBitsReturns : Obligations.ReadBitsReturns := by
  intro s
  refine ⟨fun hn hlen ha => ?_, execReadBits_invalid, fun hn hpast hpos => ?_, execReadBits_bus⟩
  · refine ⟨_, execReadBits_holds hn (sourceHolds_sourceNat hlen ha), fun j hj => ?_⟩
    rw [BitVec.getLsbD_ofNat, Nat.testBit_mod_two_pow, State.testBit_sourceNat]
    simp [hj]
  · exact execReadBits_underflow hn ((State.srcLeft_lt_iff hpos).2 hpast)

/-! ### Pure queries (R144, R145, R146, R150, R151) -/

/-- Settles O29: the stream invariant makes the two differences of R144 and R151 exact, and the two numbers returned fit a word. -/
theorem streamQueriesReturn : Obligations.StreamQueriesReturn := by
  intro s hs
  obtain ⟨hcur, hpos, -⟩ := hs
  have hbytes : (BitVec.ofNat 64 (ceilDiv s.sinkCursor.toNat 8)).toNat = (s.sinkCursor.toNat + 7) / 8 := by
    rw [BitVec.toNat_ofNat, ceilDiv_eight]
    omega
  have hleft : (BitVec.ofNat 64 s.srcLeft).toNat = s.srcSize.toNat - s.srcPos.toNat := by
    rw [BitVec.toNat_ofNat, State.srcLeft]
    omega
  refine ⟨?_, rfl, ⟨BitVec.ofNat 64 (ceilDiv s.sinkCursor.toNat 8), rfl, ?_⟩, ?_, ⟨BitVec.ofNat 64 s.srcLeft, rfl, ?_⟩⟩
  · have hspace : s.arg0.toNat ≤ s.sinkRoom ↔ s.sinkCursor.toNat + s.arg0.toNat ≤ s.sinkCap.toNat := by
      simpa using not_congr (State.sinkRoom_lt_iff (n := s.arg0.toNat) hcur)
    simp [exec, execHasSpace, returnValue, State.complete, hspace]
  · omega
  · simp [exec, execAtEnd, returnValue, State.complete, BitVec.toNat_inj]
  · omega

/-! ### Moving in the source (R152, R153, R154) -/

theorem execSkipBits_of_left {s : State} (hleft : s.arg0.toNat ≤ s.srcLeft) : execSkipBits s = .next
    { s.endedWith .ok with srcPos := BitVec.ofNat 64 (s.srcPos.toNat + s.arg0.toNat) } := by
  rw [execSkipBits, if_neg (by omega), State.advanceSource_eq, succeed_eq, State.complete]

theorem execSkipBits_underflow {s : State} (hleft : s.srcLeft < s.arg0.toNat) :
    execSkipBits s = .next (s.endedWith .bufferUnderflow) := by
  rw [execSkipBits, if_pos hleft, raise_nonfatal _ _ rfl, State.complete]

theorem execSrcAlign_of_left {s : State} {pad : Nat} (hpad : padTo8 s.srcPos.toNat = pad) (hleft : pad ≤ s.srcLeft) :
    execSrcAlign s = .next { s.endedWith .ok with srcPos := BitVec.ofNat 64 (s.srcPos.toNat + pad) } := by
  rw [execSrcAlign, hpad, if_neg (by omega), State.advanceSource_eq, succeed_eq, State.complete]

theorem execSrcAlign_underflow {s : State} {pad : Nat} (hpad : padTo8 s.srcPos.toNat = pad) (hleft : s.srcLeft < pad) :
    execSrcAlign s = .next (s.endedWith .bufferUnderflow) := by
  rw [execSrcAlign, hpad, if_pos hleft, raise_nonfatal _ _ rfl, State.complete]

/-- Settles O32: with SRC_POS inside the source, the unread bits decide between moving and underflow. -/
theorem sourceMoves : Obligations.SourceMoves := by
  intro s hs
  obtain ⟨-, hpos, -⟩ := hs
  have hleft (n : Nat) : s.srcLeft < n ↔ s.srcSize.toNat < s.srcPos.toNat + n := State.srcLeft_lt_iff hpos
  refine ⟨fun h => ?_, fun h => ?_, rfl, fun pad hlt hmod => ?_⟩
  · exact execSkipBits_of_left (State.le_srcLeft h)
  · exact execSkipBits_underflow ((hleft _).2 h)
  · have hpad := padTo8_eq hlt hmod
    refine ⟨fun h => ?_, fun h => ?_⟩
    · exact execSrcAlign_of_left hpad (State.le_srcLeft h)
    · exact execSrcAlign_underflow hpad ((hleft _).2 h)

/-! ### Write, then read (R155) -/

/-- A source opened over what a command appended, its position where the cursor was, holds the string (R81, R82). -/
theorem Appended.sourceHolds {bits : Bits} {s t u : State} (h : Appended bits s t) (ha : SinkAdmits s bits.length)
    (hmem : u.mem = t.mem) (hplat : u.plat = s.plat) (hbase : u.srcBase = s.sinkBase) (hpos : u.srcPos = s.sinkCursor)
    (hlen : u.srcPos.toNat + bits.length ≤ u.srcSize.toNat) : SourceHolds u bits := by
  have htbase : t.sinkBase = s.sinkBase := by rw [h.frame]
  refine ⟨hlen, ?_, fun j hj => ?_⟩
  · rwa [SourceAdmits, hplat, hbase, hpos]
  · simpa only [State.sourceBit, State.sinkBit, hmem, hbase, hpos, htbase] using h.written j hj

/-- Settles O33: what the write appended is what the source holds, and a read returns what the source holds. -/
theorem writeThenReadDuality : Obligations.WriteThenReadDuality := by
  intro s t u hm hs hmem hplat hbase hpos
  refine ⟨fun hn ha hexec hok harg hlen => ?_, fun ha hexec hok hlen => ?_⟩
  · obtain ⟨hroom, rfl⟩ := execWriteBits_of_ok hexec hok
    have happ := putBits_appends .stream (lsb (s.arg0.toNat % 2 ^ s.arg1.toNat) s.arg1.toNat) s hm hs
      (by simpa using hroom) (by simpa using ha)
    have hholds := happ.sourceHolds (by simpa using ha) hmem hplat hbase hpos (by simpa using hlen)
    rw [← harg] at hn hholds ⊢
    refine ⟨_, execReadBits_holds hn hholds, rfl, ?_⟩
    have hlt : s.arg0.toNat % 2 ^ u.arg0.toNat < 2 ^ 64 := (Nat.mod_le _ _).trans_lt s.arg0.isLt
    rw [Nat.mod_mod, BitVec.toNat_ofNat, Nat.mod_eq_of_lt hlt]
  · obtain ⟨hbit, hroom⟩ := execWriteBit_checks hs hexec hok
    obtain rfl : putBits .stream [s.arg0.getLsbD 0] s = t :=
      Host.Outcome.next.inj ((execWriteBit_of_room hbit hroom).symm.trans hexec)
    have happ := putBits_appends .stream [s.arg0.getLsbD 0] s hm hs (State.le_sinkRoom hroom) ha
    refine ⟨_, execReadBit_holds (happ.sourceHolds ha hmem hplat hbase hpos hlen), rfl, ?_⟩
    obtain h | h : s.arg0 = 0 ∨ s.arg0 = 1 := by bv_omega
    all_goals simp [h]

end Sys2Proof.Machine
end

