-- ==== Sys2Proof/Proofs/CodewordLengths.lean ====
section
/-! PROOFS. The lengths of the Elias codewords (42_codec_common.md R194, 43_codec_universal.md R212, R214, R216), each a monotone
function of bitlen. -/
namespace Sys2Proof.Machine

/-! ### bitlen (R16) -/

/-- R16 as a bound: `v` fits `k` bits. -/
theorem bitlen_le_iff {v k : Nat} : bitlen v ≤ k ↔ v < 2 ^ k := by
  unfold bitlen
  split
  next h => simp [h]
  next h => rw [Nat.add_one_le_iff, Nat.log2_lt h]

theorem bitlen_mono {u v : Nat} (h : u ≤ v) : bitlen u ≤ bitlen v :=
  bitlen_le_iff.2 (h.trans_lt (bitlen_le_iff.1 le_rfl))

theorem bitlen_le_self (v : Nat) : bitlen v ≤ v := bitlen_le_iff.2 Nat.lt_two_pow_self

/-! ### Gamma (R189, R212) and Delta (R214) -/

theorem length_gamma (m : Nat) : (gamma m).length = gammaLen m := by
  simp only [gamma, zeros, gammaLen, List.length_append, List.length_replicate, length_msb]
  omega

theorem gammaLen_mono {u v : Nat} (h : u ≤ v) : gammaLen u ≤ gammaLen v := by
  have hb := bitlen_mono h
  unfold gammaLen
  omega

/-- R214: Delta is the γ of the bit length and then the bits below the leading one. -/
theorem length_deltaCodec_word (u : Nat) : (deltaCodec.word u).length = gammaLen (bitlen u) + (bitlen u - 1) := by
  simp [deltaCodec, length_gamma]

/-! ### The loop of Omega (R216) -/

theorem omegaLoop_of_le_one {bound n : Nat} (s : Bits) (h : n ≤ 1) : omegaLoop bound n s = s := by
  cases bound with
  | zero => rfl
  | succ bound => exact if_neg (by omega)

theorem omegaLoop_of_one_lt {bound n : Nat} (s : Bits) (h : 1 < n) :
    omegaLoop (bound + 1) n s = omegaLoop bound (bitlen n - 1) (msb n (bitlen n) ++ s) := if_pos h

/-- The loop only puts bits in front. -/
theorem length_le_length_omegaLoop (bound n : Nat) (s : Bits) : s.length ≤ (omegaLoop bound n s).length := by
  induction bound generalizing n s with
  | zero => exact le_rfl
  | succ bound ih =>
    obtain h | h := Nat.lt_or_ge 1 n
    · rw [omegaLoop_of_one_lt s h]
      exact le_trans (by simp) (ih _ _)
    · rw [omegaLoop_of_le_one s h]

/-- The loop runs at least as long from the greater number, and every group it puts in front there is at least as long. Only the loop
of the greater number needs a bound that lets it finish. -/
theorem length_omegaLoop_mono {a b u v : Nat} {s t : Bits} (huv : u ≤ v) (hvb : v ≤ b) (hst : s.length ≤ t.length) :
    (omegaLoop a u s).length ≤ (omegaLoop b v t).length := by
  induction a generalizing b u v s t with
  | zero => exact hst.trans (length_le_length_omegaLoop b v t)
  | succ a ih =>
    obtain hu | hu := Nat.lt_or_ge 1 u
    · obtain ⟨b, rfl⟩ : ∃ c, b = c + 1 := ⟨b - 1, by omega⟩
      rw [omegaLoop_of_one_lt s hu, omegaLoop_of_one_lt t (hu.trans_le huv)]
      have hlen := bitlen_mono huv
      have hself := bitlen_le_self v
      refine ih (by omega) (by omega) ?_
      simp only [List.length_append, length_msb]
      omega
    · rw [omegaLoop_of_le_one s hu]
      exact hst.trans (length_le_length_omegaLoop b v t)

/-! ### Monotonic length (R194) -/

theorem length_gammaCodec_word_mono {u v : Nat} (h : u ≤ v) : (gammaCodec.word u).length ≤ (gammaCodec.word v).length := by
  change (gamma u).length ≤ (gamma v).length
  rw [length_gamma, length_gamma]
  exact gammaLen_mono h

theorem length_deltaCodec_word_mono {u v : Nat} (h : u ≤ v) : (deltaCodec.word u).length ≤ (deltaCodec.word v).length := by
  rw [length_deltaCodec_word, length_deltaCodec_word]
  have hb := bitlen_mono h
  exact Nat.add_le_add (gammaLen_mono hb) (Nat.sub_le_sub_right hb 1)

theorem length_omegaCodec_word_mono {u v : Nat} (h : u ≤ v) : (omegaCodec.word u).length ≤ (omegaCodec.word v).length :=
  length_omegaLoop_mono h le_rfl le_rfl

/-- Settles O40: Gamma's and Delta's lengths are monotone in bitlen; Omega's by running the two loops side by side. -/
theorem eliasLengthsAreMonotone : Obligations.EliasLengthsAreMonotone :=
  fun _ _ _ h _ => ⟨length_gammaCodec_word_mono h, length_deltaCodec_word_mono h, length_omegaCodec_word_mono h⟩

end Sys2Proof.Machine
end

section
/-! PROOFS. Rice with K is Golomb with M = 2^K (44_codec_parametric.md R271): the truncated binary code of a power of two has no short
form, so it is K plain bits to write and to read. -/
namespace Sys2Proof.Machine

/-! ### The truncated binary code of a power of two (R262) -/

theorem tbWidth_two_pow (k : Nat) : tbWidth (2 ^ k) = k := by
  have hpos := Nat.two_pow_pos k
  have hle : bitlen (2 ^ k - 1) ≤ k := bitlen_le_iff.2 (by omega)
  have hfits : 2 ^ k - 1 < 2 ^ bitlen (2 ^ k - 1) := bitlen_le_iff.1 le_rfl
  have hge : k ≤ bitlen (2 ^ k - 1) := (Nat.pow_le_pow_iff_right Nat.one_lt_two).1 (by omega)
  exact le_antisymm hle hge

theorem tbCut_two_pow (k : Nat) : tbCut (2 ^ k) = 0 := by rw [tbCut, tbWidth_two_pow, Nat.sub_self]

theorem tbWord_two_pow (k r : Nat) : tbWord (2 ^ k) r = msb r k := by simp [tbWord, tbCut_two_pow, tbWidth_two_pow]

theorem tbLen_two_pow (k r : Nat) : tbLen (2 ^ k) r = k := by simp [tbLen, tbCut_two_pow, tbWidth_two_pow]

/-! ### The codewords (R260, R263) -/

/-- Domain, length and codeword agree. -/
theorem golombCodec_two_pow (k : Nat) : golombCodec (2 ^ k) = riceCodec k := by
  simp only [golombCodec, riceCodec, tbLen_two_pow, tbWord_two_pow]

/-! ### The parsers (R261, R262, R264) -/

/-- Two continuations may differ on the values the parser before them never answers. -/
theorem bind_congr_of_ok {α β : Type} {p : Parser α} {f g : α → Parser β} (h : ∀ k a k', p k = .ok (a, k') → f a = g a) :
    p >>= f = p >>= g := by
  funext k
  cases hp : p k with
  | error e => rw [bind_error hp, bind_error hp]
  | ok r =>
    obtain ⟨a, k'⟩ := r
    rw [bind_ok hp, bind_ok hp, h k a k' hp]

/-- The last of `n + 1` bits taken apart from the first `n` (R91). -/
theorem getBitsMSBFrom_succ_last (s : State) (n v : Nat) :
    getBitsMSBFrom s (n + 1) v = getBitsMSBFrom s n v >>= fun x => getBit s >>= fun y => pure (2 * x + y.toNat) := by
  induction n generalizing v with
  | zero => simp [getBitsMSBFrom]
  | succ n ih =>
    calc getBitsMSBFrom s (n + 1 + 1) v
      _ = getBit s >>= fun b => getBitsMSBFrom s (n + 1) (2 * v + b.toNat) := rfl
      _ = getBit s >>= fun b => getBitsMSBFrom s n (2 * v + b.toNat) >>= fun x => getBit s >>= fun y =>
            pure (2 * x + y.toNat) := by simp only [ih]
      _ = getBitsMSBFrom s (n + 1) v >>= fun x => getBit s >>= fun y => pure (2 * x + y.toNat) := (bind_assoc _ _ _).symm

/-- `n` more bits keep the value below the next power (R91). -/
theorem getBitsMSBFrom_lt {s : State} {n v k r k' : Nat} (h : getBitsMSBFrom s n v k = .ok (r, k')) : r < (v + 1) * 2 ^ n := by
  induction n generalizing v k with
  | zero =>
    rw [getBitsMSBFrom, pure_run, Except.ok.injEq, Prod.mk.injEq] at h
    omega
  | succ n ih =>
    obtain ⟨b, k₁, -, hrest⟩ := bind_inv h
    have hb := Bool.toNat_le b
    calc r
      _ < (2 * v + b.toNat + 1) * 2 ^ n := ih hrest
      _ ≤ (2 * (v + 1)) * 2 ^ n := Nat.mul_le_mul_right _ (by omega)
      _ = (v + 1) * 2 ^ (n + 1) := by ring

theorem getBitsMSB_lt {s : State} {n k r k' : Nat} (h : getBitsMSB s n k = .ok (r, k')) : r < 2 ^ n := by
  simpa using getBitsMSBFrom_lt h

/-- With no short form, TBParse takes its K bits in two steps: all but the last, then the last. -/
theorem tbParse_two_pow (k : Nat) (s : State) : tbParse (2 ^ k) s = getBitsMSB s k := by
  unfold tbParse getBitsMSB
  rw [tbWidth_two_pow, tbCut_two_pow]
  cases k with
  | zero => rfl
  | succ n => simp [getBitsMSBFrom_succ_last]

/-- Parse_Golomb's second range check (R264) never fails here: an admitted quotient and `k` bits make a 64-bit value. -/
theorem quotient_add_lt {k q r : Nat} (hk : k ≤ 63) (hq : q ≤ (2 ^ 64 - 1) / 2 ^ k) (hr : r < 2 ^ k) :
    q * 2 ^ k + r < 2 ^ 64 := by
  have hpow : 2 ^ (64 - k) * 2 ^ k = 2 ^ 64 := by rw [← pow_add, Nat.sub_add_cancel (by omega)]
  have hlt : q < 2 ^ (64 - k) := by
    rw [Nat.le_div_iff_mul_le (Nat.two_pow_pos k)] at hq
    exact Nat.lt_of_mul_lt_mul_right (a := 2 ^ k) (by omega)
  calc q * 2 ^ k + r
    _ < (q + 1) * 2 ^ k := by rw [Nat.add_mul, Nat.one_mul]; omega
    _ ≤ 2 ^ (64 - k) * 2 ^ k := Nat.mul_le_mul_right _ hlt
    _ = 2 ^ 64 := hpow

theorem golombParse_two_pow {k : Nat} (hk : k ≤ 63) : golombParse (2 ^ k) = riceParse k := by
  funext s
  unfold golombParse riceParse
  congr 1
  funext q
  split
  next => rfl
  next hq =>
    rw [tbParse_two_pow]
    refine bind_congr_of_ok fun c r c' hr => if_neg ?_
    have := quotient_add_lt hk (Nat.le_of_not_lt hq) (getBitsMSB_lt hr)
    omega

/-! ### The commands -/

/-- The two parameter checks pass together (R117, R263). -/
theorem modulusParam_two_pow {k : Nat} (hk : k ≤ 63) : modulusParam (2 ^ k) = shiftParam k := by
  simp [modulusParam, shiftParam, hk]

theorem execEncGolomb_two_pow {k : Nat} (hk : k ≤ 63) (sgn : Bool) {s : State} (hm : s.arg1.toNat = 2 ^ k) :
    execEncGolomb sgn s = execEncRice k sgn s := by
  rw [execEncGolomb, execEncRice, hm, modulusParam_two_pow hk, golombCodec_two_pow]

theorem execDecGolomb_two_pow {k : Nat} (hk : k ≤ 63) (sgn : Bool) {s : State} (hm : s.arg1.toNat = 2 ^ k) :
    execDecGolomb sgn s = execDecRice k sgn s := by
  rw [execDecGolomb, execDecRice, hm, modulusParam_two_pow hk, golombParse_two_pow hk]

/-- Settles O50: with M = 2^K Golomb's codec, parser and parameter check are Rice's, so the commands are the same function. -/
theorem riceIsGolombOfPowerOfTwo : Obligations.RiceIsGolombOfPowerOfTwo := by
  intro k hk
  refine ⟨tbWidth_two_pow k, tbCut_two_pow k, fun r _ => tbWord_two_pow k r, fun u => ?_, fun s sgn hm => ⟨?_, ?_⟩⟩
  · rw [golombCodec_two_pow]
  · exact (execEncGolomb_two_pow hk sgn hm).symm
  · exact (execDecGolomb_two_pow hk sgn hm).symm

end Sys2Proof.Machine
end

