-- ==== Sys2Proof/Proofs/Succinct.lean ====
section
/-! PROOFS. The succinct bit-vector commands (45_succinct.md §2, §3): the cells, the index that SV_BUILD stores, and what SV_RANK and
SV_SELECT find through it. -/
namespace Sys2Proof.Machine

/-! ### Making a vector (R312) -/

/-- A fill of 0 or 1 is its low bit. -/
theorem toNat_beq_one_of_le {w : Word} (h : w.toNat ≤ 1) : (w.toNat == 1) = w.getLsbD 0 := by
  obtain h | h : w.toNat = 0 ∨ w.toNat = 1 := by omega
  all_goals simp [BitVec.getLsbD, h]

theorem execSvInit_of_valid {s : State} (hlen : s.arg0.toNat ≤ s.plat.vmax) (hfill : s.arg1.toNat ≤ 1) :
    execSvInit s = .next { s with
      busy := false, err := .ok, svLen := s.arg0, svBits := List.replicate s.arg0.toNat (s.arg1.getLsbD 0)
      index := .unindexed, svTotal := 0
      sb := (List.range (superCount s.arg0.toNat)).map (Config.freeSuper s.draws)
      bk := (List.range (blockCount s.arg0.toNat)).map (Config.freeBlock s.draws)
      draws := s.draws + 1 } := by
  rw [execSvInit, if_neg (Nat.not_lt.2 hlen), if_neg (Nat.not_lt.2 hfill), toNat_beq_one_of_le hfill]
  rfl

theorem execSvInit_invalid {s : State} (h : s.plat.vmax < s.arg0.toNat ∨ 1 < s.arg1.toNat) :
    execSvInit s = .next (s.endedWith .invalidParameter) := by
  rw [execSvInit, ← ite_or, if_pos h, raise_nonfatal _ _ rfl, State.complete]

/-- Settles O52: the two checks of R312, and SB and BK are the free values drawn. -/
theorem vectorInitFills : Obligations.VectorInitFills :=
  fun _ => ⟨fun hlen hfill => ⟨_, _, _, execSvInit_of_valid hlen hfill⟩, execSvInit_invalid⟩

/-! ### Writing and reading one cell (R313 to R316) -/

/-- The value each of the three cell writes gives cell ARG0. -/
def CellWrite (s : State) (i : Instr) (b : Bool) : Prop :=
  (i = .svSet ∧ b = true) ∨ (i = .svReset ∧ b = false) ∨ (i = .svFlip ∧ b = !s.svBits.getD s.arg0.toNat false)

/-- SV_SET, SV_RESET and SV_FLIP are one command but for the value. -/
theorem CellWrite.exec_eq {s : State} {i : Instr} {b : Bool} (h : CellWrite s i b) : exec i s = .next
    (if s.svLen.toNat ≤ s.arg0.toNat then raise .invalidParameter s else succeed (s.writeCell s.arg0.toNat b)) := by
  obtain ⟨rfl, rfl⟩ | ⟨rfl, rfl⟩ | ⟨rfl, rfl⟩ := h
  · rfl
  · rfl
  · rfl

theorem CellWrite.exec_of_lt {s : State} {i : Instr} {b : Bool} (h : CellWrite s i b) (hi : s.arg0.toNat < s.svLen.toNat) :
    exec i s = .next ((s.writeCell s.arg0.toNat b).endedWith .ok) := by
  rw [h.exec_eq, if_neg (Nat.not_le.2 hi), succeed_eq, State.complete]

theorem CellWrite.exec_of_le {s : State} {i : Instr} {b : Bool} (h : CellWrite s i b) (hi : s.svLen.toNat ≤ s.arg0.toNat) :
    exec i s = .next (s.endedWith .invalidParameter) := by
  rw [h.exec_eq, if_pos hi, raise_nonfatal _ _ rfl, State.complete]

theorem execSvGet_of_lt {s : State} (hi : s.arg0.toNat < s.svLen.toNat) : execSvGet s = .next
    { s with busy := false, err := .ok, result := if s.svBits.getD s.arg0.toNat false then 1 else 0 } := by
  rw [execSvGet, if_neg (Nat.not_le.2 hi)]
  rfl

theorem execSvGet_of_le {s : State} (hi : s.svLen.toNat ≤ s.arg0.toNat) :
    execSvGet s = .next (s.endedWith .invalidParameter) := by
  rw [execSvGet, if_pos hi, raise_nonfatal _ _ rfl, State.complete]

/-- A cell after a write to the same and to another cell. -/
theorem getD_set_cell {bits : Bits} {i j : Nat} (b : Bool) (hj : j < bits.length) :
    (bits.set i b).getD j false = if j = i then b else bits.getD j false := by
  rw [List.getD_eq_getElem _ _ (by simpa using hj), List.getD_eq_getElem _ _ hj, List.getElem_set]
  exact if_congr eq_comm rfl rfl

/-- Settles O53: the three writes through the one `CellWrite`, and SV_GET beside them. -/
theorem cellCommands : Obligations.CellCommands := by
  intro s hlen
  refine ⟨fun hi => ⟨fun i b hw => ?_, execSvGet_of_lt hi⟩, fun hi i hmem => ?_⟩
  · refine ⟨_, CellWrite.exec_of_lt hw hi, rfl, by simp [hlen], fun j hj => ?_⟩
    exact getD_set_cell b (hlen ▸ hj)
  · simp only [List.mem_cons, List.not_mem_nil, or_false] at hmem
    obtain rfl | rfl | rfl | rfl := hmem
    · exact CellWrite.exec_of_le (.inl ⟨rfl, rfl⟩) hi
    · exact CellWrite.exec_of_le (.inr (.inl ⟨rfl, rfl⟩)) hi
    · exact CellWrite.exec_of_le (.inr (.inr ⟨rfl, rfl⟩)) hi
    · exact execSvGet_of_le hi

/-! ### The counts SV_BUILD stores (R57, R58, R310, R317) -/

theorem lt_superCount_iff {k n : Nat} : k < superCount n ↔ 65536 * k < n := by
  unfold superCount ceilDiv
  omega

theorem lt_blockCount_iff {j n : Nat} : j < blockCount n ↔ 512 * j < n := by
  unfold blockCount ceilDiv
  omega

@[simp] theorem length_buildSuper (n : Nat) (bits : Bits) : (buildSuper n bits).length = superCount n := by simp [buildSuper]

@[simp] theorem length_buildBlock (n : Nat) (bits : Bits) : (buildBlock n bits).length = blockCount n := by simp [buildBlock]

/-- R57: a superblock's absolute count fits its 32 bits, for the superblock begins below n. -/
theorem toNat_getD_buildSuper {n k : Nat} (bits : Bits) (hn : n ≤ 2 ^ 32) (hk : k < superCount n) :
    ((buildSuper n bits).getD k 0).toNat = pc bits 0 (65536 * k) := by
  have hfits : pc bits 0 (65536 * k) < 2 ^ 32 := by
    have hle := pc_le bits 0 (65536 * k)
    have hlt := lt_superCount_iff.1 hk
    omega
  rw [List.getD_eq_getElem _ _ (by simpa using hk)]
  simpa [buildSuper] using hfits

/-- R58: a block's count fits its 16 bits, for at most 127 blocks of 512 bits stand before it in its superblock. -/
theorem toNat_getD_buildBlock {n j : Nat} (bits : Bits) (hj : j < blockCount n) :
    ((buildBlock n bits).getD j 0).toNat = pc bits (65536 * (j / 128)) (512 * j) := by
  have hfits : pc bits (65536 * (j / 128)) (512 * j) < 2 ^ 16 := by
    have hle := pc_le bits (65536 * (j / 128)) (512 * j)
    omega
  rw [List.getD_eq_getElem _ _ (by simpa using hj)]
  simpa [buildBlock] using hfits

/-- R55: the total fits SV_TOTAL. -/
theorem toNat_ofNat_pc (bits : Bits) (n : Word) : (BitVec.ofNat 64 (pc bits 0 n.toNat)).toNat = pc bits 0 n.toNat := by
  have hle := pc_le bits 0 n.toNat
  rw [BitVec.toNat_ofNat, Nat.mod_eq_of_lt (by omega)]

/-- R59, a field at a time. -/
theorem consistent_iff (s : State) : consistent s = true ↔
    s.sb = buildSuper s.svLen.toNat s.svBits ∧ s.bk = buildBlock s.svLen.toNat s.svBits ∧
      s.svTotal.toNat = pc s.svBits 0 s.svLen.toNat := by
  simp [consistent, and_assoc]

/-- R13, R54: a vector's length is below 2^32. -/
theorem VectorInv.svLen_le {s : State} (h : VectorInv s) : s.svLen.toNat ≤ 2 ^ 32 := by
  obtain ⟨⟨-, hvmax⟩, hlen, -⟩ := h
  omega

/-- The state SV_BUILD leaves (R317). -/
def State.built (s : State) : State :=
  { s with
    busy := false, err := .ok, index := .indexed, sb := buildSuper s.svLen.toNat s.svBits
    bk := buildBlock s.svLen.toNat s.svBits, svTotal := BitVec.ofNat 64 (pc s.svBits 0 s.svLen.toNat) }

theorem exec_svBuild (s : State) : exec .svBuild s = .next s.built := rfl

theorem State.built_built (s : State) : s.built.built = s.built := rfl

theorem consistent_built (s : State) : consistent s.built = true :=
  (consistent_iff _).2 ⟨rfl, rfl, toNat_ofNat_pc s.svBits s.svLen⟩

/-- Settles O54: the counts fit their fields, and a second SV_BUILD computes the same ones from the same bits. -/
theorem buildStoresCounts : Obligations.BuildStoresCounts := by
  intro s hs
  refine ⟨s.built, exec_svBuild s, rfl, length_buildSuper _ _, length_buildBlock _ _, fun k hk => ?_, fun j hj => ?_,
    toNat_ofNat_pc s.svBits s.svLen, consistent_built s, (exec_svBuild s.built).trans (congrArg _ s.built_built)⟩
  · exact toNat_getD_buildSuper s.svBits (VectorInv.svLen_le hs) hk
  · exact toNat_getD_buildBlock s.svBits hj

/-! ### Rank (R318, R325) -/

/-- R325: over the counts SV_BUILD stores, superblock, block and scan add up to the count from cell 0. -/
theorem indexedCount_build {n pos upto : Nat} (bits : Bits) (hn : n ≤ 2 ^ 32) (hpos : pos < n) (hup : 512 * (pos / 512) ≤ upto) :
    indexedCount (buildSuper n bits) (buildBlock n bits) bits pos upto = pc bits 0 upto := by
  have hsuper : pos / 65536 < superCount n := lt_superCount_iff.2 (by omega)
  have hblock : pos / 512 < blockCount n := lt_blockCount_iff.2 (by omega)
  have hstart : pos / 512 / 128 = pos / 65536 := Nat.div_div_eq_div_mul ..
  rw [indexedCount, toNat_getD_buildSuper bits hn hsuper, toNat_getD_buildBlock bits hblock, hstart,
    ← pc_split bits 0 (65536 * (pos / 65536)) (512 * (pos / 512)) (by omega) (by omega),
    ← pc_split bits 0 (512 * (pos / 512)) upto (by omega) hup]

/-- R318: the sum of the stored counts and a scan inside one block does not wrap. -/
theorem toNat_ofNat_indexedCount (sb : List (BitVec 32)) (bk : List (BitVec 16)) (bits : Bits) (pos : Nat) :
    (BitVec.ofNat 64 (indexedCount sb bk bits pos pos)).toNat = indexedCount sb bk bits pos pos := by
  have hsuper := (sb.getD (pos / 65536) 0).isLt
  have hblock := (bk.getD (pos / 512) 0).isLt
  have hscan := pc_le bits (512 * (pos / 512)) pos
  refine Nat.mod_eq_of_lt ?_
  unfold indexedCount
  omega

/-- R325: on a consistent index rank is the count of the 1-bits below the position. -/
theorem toNat_rankOf_of_consistent {s : State} (hn : s.svLen.toNat ≤ 2 ^ 32) (hc : consistent s = true) (pos : Nat) :
    (rankOf s pos).toNat = pc s.svBits 0 (min pos s.svLen.toNat) := by
  obtain ⟨hsb, hbk, htotal⟩ := (consistent_iff s).1 hc
  obtain ⟨h0, hr⟩ | ⟨-, hge, hr⟩ | ⟨-, hlt, hr⟩ := rankOf_cases s pos
  · subst h0
    simp [hr]
  · rw [hr, htotal, Nat.min_eq_right hge]
  · rw [hr, toNat_ofNat_indexedCount, hsb, hbk, indexedCount_build _ hn hlt (by omega), Nat.min_eq_left hlt.le]

theorem execSvRank_of_indexed {s : State} (h : s.index = .indexed) :
    execSvRank s = .next { s with busy := false, err := .ok, result := rankOf s s.arg0.toNat } := by
  rw [execSvRank, if_neg (by simp [h])]
  rfl

theorem execSvRank_of_unindexed {s : State} (h : s.index = .unindexed) :
    execSvRank s = .next (s.faultedWith .staleIndex) := by
  rw [execSvRank, if_pos h, raise_fatal _ _ rfl]

/-- Settles O55: the three cases of R318's formula, and the sum over a consistent index. -/
theorem rankReturnsCount : Obligations.RankReturnsCount := by
  intro s hs
  have hpos : s.arg0 ≠ 0 → s.arg0.toNat ≠ 0 := mt fun h => BitVec.eq_of_toNat_eq h
  refine ⟨fun hidx => ⟨_, execSvRank_of_indexed hidx, fun h0 => ?_, fun h0 hge => ?_, fun h0 hlt => ?_, fun hc => ?_⟩,
    execSvRank_of_unindexed⟩
  · simp [rankOf, h0]
  · rw [rankOf, if_neg (hpos h0), if_pos hge]
  · rw [rankOf, if_neg (hpos h0), if_neg (Nat.not_le.2 hlt), toNat_ofNat_indexedCount, indexedCount]
  · exact toNat_rankOf_of_consistent (VectorInv.svLen_le hs) hc _

/-! ### Select (R319, R325) -/

theorem pc_zero (bits : Bits) (p : Nat) : pc bits 0 p = popcount (bits.take p) := rfl

theorem pc_zero_length (bits : Bits) : pc bits 0 bits.length = popcount bits := by rw [pc_zero, List.take_length]

theorem execSvSelect_not_found {s : State} (h : s.index = .indexed) (hk : s.svTotal.toNat ≤ s.arg0.toNat) :
    execSvSelect s = .next { s with busy := false, err := .ok, nf := true, result := BitVec.allOnes 64 } := by
  rw [execSvSelect, if_neg (by simp [h]), if_pos hk]
  rfl

theorem execSvSelect_of_consistent {s : State} (h : s.index = .indexed) (hk : s.arg0.toNat < s.svTotal.toNat)
    (hc : consistent s = true) : execSvSelect s = .next
      { s with busy := false, err := .ok, nf := false, result := BitVec.ofNat 64 (nthOne s.svBits s.arg0.toNat) } := by
  rw [execSvSelect, if_neg (by simp [h]), if_neg (Nat.not_le.2 hk), if_pos hc]
  rfl

theorem execSvSelect_of_inconsistent {s : State} (h : s.index = .indexed) (hk : s.arg0.toNat < s.svTotal.toNat)
    (hc : consistent s = false) : execSvSelect s = .next
      { s with busy := false, err := .ok, nf := false, result := Config.freeWord s.draws, draws := s.draws + 1 } := by
  rw [execSvSelect, if_neg (by simp [h]), if_neg (Nat.not_le.2 hk), if_neg (by simp [hc])]
  rfl

theorem execSvSelect_of_unindexed {s : State} (h : s.index = .unindexed) :
    execSvSelect s = .next (s.faultedWith .staleIndex) := by
  rw [execSvSelect, if_pos h, raise_fatal _ _ rfl]

/-- R319: below the total of a consistent index the k-th 1-bit is there. -/
theorem nthOne_of_consistent {s : State} (hlen : s.svBits.length = s.svLen.toNat) (hc : consistent s = true) {k : Nat}
    (hk : k < s.svTotal.toNat) : nthOne s.svBits k < s.svLen.toNat ∧
      s.svBits.getD (nthOne s.svBits k) false = true ∧ pc s.svBits 0 (nthOne s.svBits k) = k := by
  obtain ⟨-, -, htotal⟩ := (consistent_iff s).1 hc
  rw [htotal, ← hlen, pc_zero_length] at hk
  obtain ⟨hbit, hbelow, hlt⟩ := nthOne_spec s.svBits k hk
  exact ⟨hlen ▸ hlt, hbit, hbelow⟩

/-- Settles O56: the four outcomes of R319; on a consistent index `nthOne` is the position it asks for. -/
theorem selectFindsPosition : Obligations.SelectFindsPosition := by
  intro s ⟨_, _, hlen, _, _⟩
  refine ⟨execSvSelect_not_found, fun hidx hk hc => ?_,
    fun hidx hk hc => ⟨_, _, execSvSelect_of_inconsistent hidx hk hc⟩, execSvSelect_of_unindexed⟩
  obtain ⟨hlt, hbit, hbelow⟩ := nthOne_of_consistent hlen hc hk
  exact ⟨_, hlt, hbit, hbelow, execSvSelect_of_consistent hidx hk hc⟩

end Sys2Proof.Machine
end

