-- ==== Sys2Proof/Proofs/Exceptions.lean ====
section
/-! PROOFS. How a command ends (60_exceptions.md R362, R363, R364, R366): with OK, with an error that changes nothing but the flags, or with
BUS_ERROR inside a sink write. -/
namespace Sys2Proof.Machine

/-! ### The three ends of a command -/

/-- `t` is how a command from `s` ends. -/
inductive CommandEnd (s : State) : State → Prop where
  /-- It succeeds. -/
  | ok {t : State} (h : t.err = .ok) : CommandEnd s t
  /-- It raises a code, from the state it found (R362, R364). -/
  | raised (e : ErrCode) : CommandEnd s (raise e s)
  /-- Its sink write meets an access that is not admitted, after it may have stored bytes (R366). -/
  | sinkBusError (m : Memory) : CommandEnd s { s.faultedWith .busError with mem := m, draws := s.draws + 1 }

theorem CommandEnd.ite {c : Prop} [Decidable c] {s a b : State} (ha : CommandEnd s a) (hb : CommandEnd s b) :
    CommandEnd s (if c then a else b) := by
  split <;> assumption

theorem CommandEnd.putBits (w : SinkWriter) (bits : Bits) (s : State) : CommandEnd s (putBits w bits s) := by
  obtain ⟨_, _, _, h⟩ | ⟨m, h⟩ := putBits_frame w bits s
  · exact .ok (by rw [h])
  · exact h ▸ .sinkBusError m

theorem CommandEnd.encodeWith (ok : Bool) (codec : Codec) (sgn : Bool) (s : State) :
    CommandEnd s (encodeWith ok codec sgn s) := by
  obtain ⟨-, h⟩ | ⟨-, -, h⟩ | ⟨-, -, -, h⟩ | ⟨-, -, -, h⟩ := encodeWith_cases ok codec sgn s
  · exact h ▸ .raised _
  · exact h ▸ .raised _
  · exact h ▸ .raised _
  · exact h ▸ .putBits _ _ s

theorem CommandEnd.decodeWith (ok : Bool) (parse : State → Parser Nat) (sgn : Bool) (s : State) :
    CommandEnd s (decodeWith ok parse sgn s) := by
  obtain ⟨-, h⟩ | ⟨-, e, -, h⟩ | ⟨-, u, n, -, h⟩ := decodeWith_cases ok parse sgn s
  · exact h ▸ .raised _
  · exact h ▸ .raised _
  · exact .ok (by rw [h, returnValue_err])

/-- Every command answers a next state, and ends in one of the three ways. -/
theorem exec_commandEnd (i : Instr) (s : State) : ∃ t, exec i s = .next t ∧ CommandEnd s t := by
  cases i with
  | hasSpace | bitsWritten | bytesWritten | atEnd | remaining | srcReset | svBuild => exact ⟨_, rfl, .ok rfl⟩
  | sinkInit | srcInit | skipBits | srcAlign | svSet | svReset | svFlip | svGet | svRank =>
    exact ⟨_, rfl, .ite (.raised _) (.ok rfl)⟩
  | svInit => exact ⟨_, rfl, .ite (.raised _) (.ite (.raised _) (.ok rfl))⟩
  | svSelect => exact ⟨_, rfl, .ite (.raised _) (.ite (.ok rfl) (.ite (.ok rfl) (.ok rfl)))⟩
  | align => exact ⟨_, rfl, .ite (.raised _) (.putBits _ _ s)⟩
  | writeBit | writeBits | svEncode => exact ⟨_, rfl, .ite (.raised _) (.ite (.raised _) (.putBits _ _ s))⟩
  | readBit =>
    refine ⟨_, rfl, .ite (.raised _) ?_⟩
    split
    · exact .ok rfl
    · exact .raised _
  | readBits =>
    refine ⟨_, rfl, .ite (.raised _) (.ite (.raised _) ?_)⟩
    split
    · exact .ok rfl
    · exact .raised _
  | svDecode =>
    refine ⟨_, rfl, ?_⟩
    split
    · exact .ok rfl
    · exact .raised _
  | encUnary | encGamma | encDelta | encOmega | encFib | encRice | encGolomb | encVByte | encExpG | encFixed =>
    exact ⟨_, rfl, .encodeWith _ _ _ s⟩
  | decUnary | decGamma | decDelta | decOmega | decFib | decRice | decGolomb | decVByte | decExpG | decFixed =>
    exact ⟨_, rfl, .decodeWith _ _ _ s⟩

theorem commandEnd_of_exec {i : Instr} {s t : State} (h : exec i s = .next t) : CommandEnd s t := by
  obtain ⟨u, hu, hend⟩ := exec_commandEnd i s
  obtain rfl : u = t := Host.Outcome.next.inj (hu.symm.trans h)
  exact hend

/-! ### Errors that are not fatal (R362) -/

/-- A code that is neither OK nor fatal was raised from the state the command found. -/
theorem CommandEnd.eq_endedWith {s t : State} (h : CommandEnd s t) (hok : t.err ≠ .ok) (hfatal : t.err.fatal = false) :
    t = s.endedWith t.err := by
  cases h with
  | ok h => exact absurd h hok
  | raised e =>
    rw [raise_err] at hfatal ⊢
    rw [raise_nonfatal e s hfatal, State.complete]
  | sinkBusError m => cases hfatal

/-- Settles O21: of a command's three ends only a raise gives such a code; the check for an illegal word raises one too. -/
theorem nonFatalErrorsChangeOnlyStatus : Obligations.NonFatalErrorsChangeOnlyStatus :=
  ⟨fun _ _ _ h => (commandEnd_of_exec h).eq_endedWith, fun _ _ => engineStep_of_illegal⟩

/-! ### The stale index (R363) -/

theorem execSvEncode_of_unindexed {s : State} (h : s.index = .unindexed) :
    execSvEncode s = .next (s.faultedWith .staleIndex) := by
  rw [execSvEncode, if_pos h, raise_fatal _ _ rfl]

/-- Settles O23: each of the three commands checks the index first. -/
theorem staleIndexFaults : Obligations.StaleIndexFaults :=
  fun _ h => ⟨execSvRank_of_unindexed h, execSvSelect_of_unindexed h, execSvEncode_of_unindexed h⟩

end Sys2Proof.Machine
end

