-- ==== Sys2Proof/Proofs/CommandWord.lean ====
section
/-! PROOFS. Decoding and encoding are inverse to each other (30_encoding.md R110, R113, R120). -/
namespace Sys2Proof

/-! ### The fields of a command word (R110) -/

theorem toNat_commandWord {op p : Nat} (sgn : Bool) (hop : op < 256) (hp : p < 128) :
    (commandWord op p sgn).toNat = op + p * 256 + sgn.toNat * 32768 := by
  have hs := Bool.toNat_le sgn
  rw [commandWord, BitVec.toNat_ofNat]
  omega

theorem opField_commandWord {op p : Nat} (sgn : Bool) (hop : op < 256) (hp : p < 128) :
    opField (commandWord op p sgn) = op := by
  rw [opField, toNat_commandWord sgn hop hp]
  omega

theorem paramField_commandWord {op p : Nat} (sgn : Bool) (hop : op < 256) (hp : p < 128) :
    paramField (commandWord op p sgn) = p := by
  rw [paramField, toNat_commandWord sgn hop hp]
  omega

theorem signField_commandWord {op p : Nat} (sgn : Bool) (hop : op < 256) (hp : p < 128) :
    signField (commandWord op p sgn) = sgn := by
  have hs : (op + p * 256 + sgn.toNat * 32768) / 32768 = sgn.toNat := by omega
  rw [signField, toNat_commandWord sgn hop hp, hs]
  cases sgn <;> rfl

theorem reservedField_commandWord {op p : Nat} (sgn : Bool) (hop : op < 256) (hp : p < 128) :
    reservedField (commandWord op p sgn) = 0 := by
  have hs := Bool.toNat_le sgn
  rw [reservedField, toNat_commandWord sgn hop hp]
  omega

theorem opField_lt (w : Word) : opField w < 256 := Nat.mod_lt _ (by decide)

theorem paramField_lt (w : Word) : paramField w < 128 := Nat.mod_lt _ (by decide)

/-- A word whose reserved bits are 0 is put together from its three other fields. -/
theorem commandWord_fields {w : Word} (h : reservedField w = 0) :
    commandWord (opField w) (paramField w) (signField w) = w := by
  have hsign : (signField w).toNat = w.toNat / 32768 % 2 := by
    unfold signField
    obtain h | h := Nat.mod_two_eq_zero_or_one (w.toNat / 32768) <;> simp [h]
  apply BitVec.eq_of_toNat_eq
  rw [toNat_commandWord _ (opField_lt w) (paramField_lt w), hsign]
  unfold reservedField at h
  unfold opField paramField
  omega

/-! ### From a command to its word and back (R113) -/

/-- Settles O1: the fields of the word select the command's own row, and the checks of that row pass. -/
theorem decodeEncodeAgree : Obligations.DecodeEncodeAgree := by
  intro i hwf
  cases i with
  | sinkInit | writeBit | writeBits | align | hasSpace | bitsWritten | bytesWritten => rfl
  | srcInit | readBit | readBits | atEnd | remaining | skipBits | srcReset | srcAlign => rfl
  | svInit | svSet | svReset | svFlip | svGet | svBuild | svRank | svSelect | svEncode | svDecode => rfl
  | encUnary sgn | decUnary sgn | encGamma sgn | decGamma sgn | encDelta sgn | decDelta sgn | encOmega sgn | decOmega sgn
  | encFib sgn | decFib sgn | encGolomb sgn | decGolomb sgn | encVByte sgn | decVByte sgn =>
    simp [encode, decode, unparameterised, reservedField_commandWord, opField_commandWord, paramField_commandWord,
      signField_commandWord]
  | encRice p sgn | decRice p sgn | encExpG p sgn | decExpG p sgn | encFixed p sgn | decFixed p sgn =>
    have hp : p < 128 := of_decide_eq_true hwf
    simp [encode, decode, reservedField_commandWord, opField_commandWord, paramField_commandWord, signField_commandWord, hp]

/-! ### From a word to its command and back (R113, R115) -/

/-- `i` is a command a word can carry, and `w` is its word. -/
def IsWordOf (w : Word) (i : Instr) : Prop := i.wellFormed = true ∧ encode i = w

theorem isWordOf_of_unparameterised {w : Word} {i j : Instr} (hr : reservedField w = 0) (hi : i.wellFormed = true)
    (he : encode i = commandWord (opField w) 0 (signField w)) (h : unparameterised w i = .ok j) : IsWordOf w j := by
  unfold unparameterised at h
  split at h
  case isTrue => cases h
  case isFalse hp =>
    obtain rfl : i = j := Except.ok.inj h
    rw [← not_not.1 hp, commandWord_fields hr] at he
    exact ⟨hi, he⟩

theorem isWordOf_of_plain {w : Word} {i j : Instr} (hr : reservedField w = 0) (hi : i.wellFormed = true)
    (he : encode i = commandWord (opField w) 0 false) (h : plain w i = .ok j) : IsWordOf w j := by
  unfold plain at h
  split at h
  case isTrue => cases h
  case isFalse hs =>
    rw [← Bool.eq_false_of_not_eq_true hs] at he
    exact isWordOf_of_unparameterised hr hi he h

theorem isWordOf_of_param {w : Word} {i j : Instr} (hr : reservedField w = 0)
    (hi : i.wellFormed = decide (paramField w < 128))
    (he : encode i = commandWord (opField w) (paramField w) (signField w)) (h : Except.ok i = (Except.ok j : Except Illegal Instr)) :
    IsWordOf w j := by
  obtain rfl : i = j := Except.ok.inj h
  exact ⟨hi.trans (decide_eq_true (paramField_lt w)), he.trans (commandWord_fields hr)⟩

/-- Settles O2: a word that decodes is put together from the fields its row reads, which is how `encode` makes it. -/
theorem encodeDecodeAgree : Obligations.EncodeDecodeAgree := by
  intro w i h
  have hr : reservedField w = 0 := ((decode_isOk_iff w).1 ⟨i, h⟩).1
  rw [decode, if_neg (not_not.2 hr)] at h
  change IsWordOf w i
  split at h
  case h_46 => cases h
  case h_26 hop | h_27 hop | h_32 hop | h_33 hop | h_34 hop | h_35 hop =>
    exact isWordOf_of_param hr rfl (by rw [hop]; rfl) h
  case h_16 hop | h_17 hop | h_18 hop | h_19 hop | h_20 hop | h_21 hop | h_22 hop | h_23 hop | h_24 hop | h_25 hop
    | h_28 hop | h_29 hop | h_30 hop | h_31 hop =>
    exact isWordOf_of_unparameterised hr rfl (by rw [hop]; rfl) h
  all_goals
    rename_i hop
    exact isWordOf_of_plain hr rfl (by rw [hop]; rfl) h

/-- Settles O4: each word is closed, so the decoder computes. -/
theorem sampleWordsDecode : Obligations.SampleWordsDecode := by
  refine ⟨?_, ?_, ?_, ?_, ?_, ?_, ?_, ?_, ?_, ?_, ?_, ?_⟩
  all_goals rfl

end Sys2Proof
end

