-- ==== Sys2Proof/Proofs/StepEffects.lean ====
section
/-! PROOFS. All a command that runs can do, and all a step can do, each said once: the proofs of what every step keeps are case
analyses over these. -/
namespace Sys2Proof.Machine

/-! ### The length an encode computes is its codeword's (R184) -/

theorem length_zeros (n : Nat) : (zeros n).length = n := List.length_replicate

theorem length_ones (n : Nat) : (ones n).length = n := List.length_replicate

theorem length_fibDigits (i m : Nat) : (fibDigits i m).length = i := by
  induction i generalizing m with
  | zero => rfl
  | succ i ih =>
    rw [fibDigits]
    split <;> simp [ih]

theorem length_tbWord (m r : Nat) : (tbWord m r).length = tbLen m r := by
  unfold tbWord tbLen
  split <;> simp

theorem length_vbyteWord (u : Nat) : (vbyteWord u).length = 8 * vbyteCount u := by
  simp [vbyteWord, List.length_flatMap, Nat.mul_comm]

/-- The codeword is as long as the length that is checked before it is written. -/
def Codec.Measured (c : Codec) : Prop := ∀ u, (c.word u).length = c.len u

theorem unaryCodec_measured : unaryCodec.Measured := fun u => by simp [unaryCodec, length_ones]

theorem gammaCodec_measured : gammaCodec.Measured := length_gamma

theorem deltaCodec_measured : deltaCodec.Measured := length_deltaCodec_word

theorem omegaCodec_measured : omegaCodec.Measured := fun _ => rfl

theorem fibCodec_measured : fibCodec.Measured := fun u => by simp [fibCodec, fibWord, length_fibDigits]

theorem riceCodec_measured (k : Nat) : (riceCodec k).Measured := fun u => by simp [riceCodec, length_ones, Nat.add_assoc, Nat.add_comm 1]

theorem golombCodec_measured (m : Nat) : (golombCodec m).Measured := fun u => by
  simp [golombCodec, length_ones, length_tbWord, Nat.add_assoc, Nat.add_comm 1]

theorem vbyteCodec_measured : vbyteCodec.Measured := length_vbyteWord

theorem expGolombCodec_measured (k : Nat) : (expGolombCodec k).Measured := fun u => by simp [expGolombCodec, length_gamma]

theorem fixedCodec_measured (n : Nat) : (fixedCodec n).Measured := fun u => by simp [fixedCodec]

/-! ### All a command that runs can do -/

theorem sinkLength_le (i : Instr) (s : State) : sinkLength i s ≤ s.sinkRoom := by
  unfold sinkLength
  split
  · assumption
  · exact Nat.zero_le _

theorem sinkLength_eq {i : Instr} {s : State} (h : wantedLength i s ≤ s.sinkRoom) : sinkLength i s = wantedLength i s := if_pos h

theorem ParseError.errCode_ne_ok (e : ParseError) : e.errCode ≠ .ok := by
  rcases e with ⟨_ | _⟩ | _ | _ <;> simp [ParseError.errCode]

/-- `t` is what command `i` leaves of `s`, by what it changes beside BUSY and ERR. -/
inductive Effect (i : Instr) (s : State) : State → Prop where
  /-- It ends with an error, from the state it found (R362, R364). -/
  | raised (e : ErrCode) (he : e ≠ .ok) : Effect i s (raise e s)
  /-- It returns a value and nothing else (R46). -/
  | returned (v : Word) (hw : writesSink i = false) (hv : returnsValue i = true) : Effect i s (returnValue v s)
  /-- It takes bits of the source and returns a value (R181). -/
  | read (v : Word) (n : Nat) (hw : writesSink i = false) (hv : returnsValue i = true)
      (hn : s.srcPos.toNat ≤ s.srcSize.toNat → n ≤ s.srcLeft) : Effect i s (returnValue v (s.advanceSource n))
  /-- It moves SRC_POS forward (R152, R154). -/
  | moved (n : Nat) (hw : writesSink i = false) (hn : n ≤ s.srcLeft) : Effect i s (succeed (s.advanceSource n))
  /-- It moves SRC_POS back to 0 (R153). -/
  | rewound (hw : writesSink i = false) : Effect i s (succeed { s with srcPos := 0 })
  /-- It opens a sink (R140). -/
  | sinkOpened (hw : writesSink i = false) (h : regionFits s.arg0 s.arg1 = true) :
      Effect i s (succeed { s with sinkBase := s.arg0, sinkCap := s.arg1, sinkCursor := 0, pend := 0 })
  /-- It opens a source (R147). -/
  | sourceOpened (hw : writesSink i = false) (h : regionFits s.arg0 s.arg1 = true) :
      Effect i s (succeed { s with srcBase := s.arg0, srcSize := s.arg1, srcPos := 0 })
  /-- It writes the sink (R86). -/
  | put (bits : Bits) (hw : writesSink i = true) (hlen : bits.length = sinkLength i s) :
      Effect i s (putBits (sinkWriter i) bits s)
  /-- It makes a new vector (R312). -/
  | filled (b : Bool) (d k : Nat) (hw : writesSink i = false) (h : s.arg0.toNat ≤ s.plat.vmax) :
      Effect i s (succeed { s with
        svLen := s.arg0, svBits := List.replicate s.arg0.toNat b, index := .unindexed, svTotal := 0
        sb := (List.range (superCount s.arg0.toNat)).map (Config.freeSuper d)
        bk := (List.range (blockCount s.arg0.toNat)).map (Config.freeBlock d)
        draws := k })
  /-- It writes a cell of the vector (R313, R314, R315). -/
  | cellWritten (b : Bool) (hw : writesSink i = false) : Effect i s (succeed (s.writeCell s.arg0.toNat b))
  /-- It stores the counts of the index (R317). -/
  | built (hw : writesSink i = false) : Effect i s s.built
  /-- It looks for a 1-bit (R319). -/
  | selected (v : Word) (b : Bool) (k : Nat) (hw : writesSink i = false) (hv : returnsValue i = true) :
      Effect i s (returnValue v { s with nf := b, draws := k })
  /-- It reads a vector from the source (R322). -/
  | vectorRead (v : WireVector) (n : Nat) (hw : writesSink i = false) (h : wireParse s 0 = .ok (v, n)) :
      Effect i s (succeed ((s.commitVector v).advanceSource n))

theorem Effect.ite {i : Instr} {c : Prop} [Decidable c] {s a b : State} (ha : c → Effect i s a) (hb : ¬ c → Effect i s b) :
    Effect i s (if c then a else b) := by
  split
  · exact ha ‹_›
  · exact hb ‹_›

/-- A sink write whose length check has passed. -/
theorem Effect.put_of_room {i : Instr} {s : State} {w : SinkWriter} {bits : Bits} (hw : writesSink i = true)
    (hwr : sinkWriter i = w) (hlen : wantedLength i s = bits.length) (hroom : ¬ s.sinkRoom < bits.length) :
    Effect i s (putBits w bits s) := by
  subst hwr
  exact .put bits hw (by rw [sinkLength_eq (by omega), hlen])

theorem Effect.encodeWith {i : Instr} {s : State} {ok sgn : Bool} {codec : Codec} (hw : writesSink i = true)
    (hwr : sinkWriter i = .encode) (hlen : wantedLength i s = codewordLength ok codec sgn s) (hc : codec.Measured) :
    Effect i s (encodeWith ok codec sgn s) := by
  obtain ⟨-, h⟩ | ⟨-, -, h⟩ | ⟨-, -, -, h⟩ | ⟨hok, hdom, hroom, h⟩ := encodeWith_cases ok codec sgn s
  · exact h ▸ .raised _ (by decide)
  · exact h ▸ .raised _ (by decide)
  · exact h ▸ .raised _ (by decide)
  · have hword : wantedLength i s = (codec.word (encodeOperand sgn s)).length := by
      rw [hlen, hc, codewordLength, hok, hdom]
      rfl
    exact h ▸ .put_of_room hw hwr hword (by rw [hc]; omega)

theorem Bounded.le_srcLeft {α : Type} {s : State} {p : Parser α} (hp : Bounded s p) {a : α} {n : Nat} (h : p 0 = .ok (a, n))
    (hpos : s.srcPos.toNat ≤ s.srcSize.toNat) : n ≤ s.srcLeft :=
  State.le_srcLeft (hp 0 a n hpos h).2

theorem Effect.decodeWith {i : Instr} {s : State} {ok sgn : Bool} {parse : State → Parser Nat} (hw : writesSink i = false)
    (hv : returnsValue i = true) (hb : Bounded s (parse s)) : Effect i s (decodeWith ok parse sgn s) := by
  obtain ⟨-, h⟩ | ⟨-, e, -, h⟩ | ⟨-, u, n, hparse, h⟩ := decodeWith_cases ok parse sgn s
  · exact h ▸ .raised _ (by decide)
  · exact h ▸ .raised _ e.errCode_ne_ok
  · exact h ▸ .read _ n hw hv (hb.le_srcLeft hparse)

/-- Every command answers a next state, which one of the effects describes. -/
theorem exec_effect (i : Instr) (s : State) : ∃ t, exec i s = .next t ∧ Effect i s t := by
  cases i with
  | sinkInit => exact ⟨_, rfl, .ite (fun _ => .raised _ (by decide)) fun h => .sinkOpened rfl (by simpa using h)⟩
  | srcInit => exact ⟨_, rfl, .ite (fun _ => .raised _ (by decide)) fun h => .sourceOpened rfl (by simpa using h)⟩
  | writeBit =>
    refine ⟨_, rfl, .ite (fun _ => .raised _ (by decide)) fun h => .ite (fun _ => .raised _ (by decide)) fun hroom => ?_⟩
    exact .put_of_room rfl rfl (if_pos (by omega)) hroom
  | writeBits =>
    refine ⟨_, rfl, .ite (fun _ => .raised _ (by decide)) fun h => .ite (fun _ => .raised _ (by decide)) fun hroom => ?_⟩
    exact .put_of_room rfl rfl ((if_pos (by omega)).trans (length_lsb _ _).symm) (by simpa using hroom)
  | align =>
    refine ⟨_, rfl, .ite (fun _ => .raised _ (by decide)) fun hroom => ?_⟩
    exact .put_of_room rfl rfl (length_zeros _).symm (by simpa [length_zeros] using hroom)
  | svEncode =>
    refine ⟨_, rfl, .ite (fun _ => .raised _ (by decide)) fun h => .ite (fun _ => .raised _ (by decide)) fun hroom => ?_⟩
    refine .put_of_room rfl rfl (if_pos ?_) hroom
    cases hidx : s.index
    · exact absurd hidx h
    · rfl
  | hasSpace | bitsWritten | bytesWritten | atEnd | remaining => exact ⟨_, rfl, .returned _ rfl rfl⟩
  | svGet | svRank => exact ⟨_, rfl, .ite (fun _ => .raised _ (by decide)) fun _ => .returned _ rfl rfl⟩
  | readBit =>
    refine ⟨_, rfl, .ite (fun _ => .raised _ (by decide)) fun hleft => ?_⟩
    split
    · exact .read _ 1 rfl rfl fun _ => Nat.le_of_not_lt hleft
    · exact .raised _ (ParseError.errCode_ne_ok _)
  | readBits =>
    refine ⟨_, rfl, .ite (fun _ => .raised _ (by decide)) fun _ => .ite (fun _ => .raised _ (by decide)) fun hleft => ?_⟩
    split
    · exact .read _ _ rfl rfl fun _ => Nat.le_of_not_lt hleft
    · exact .raised _ (ParseError.errCode_ne_ok _)
  | skipBits | srcAlign =>
    exact ⟨_, rfl, .ite (fun _ => .raised _ (by decide)) fun hleft => .moved _ rfl (Nat.le_of_not_lt hleft)⟩
  | srcReset => exact ⟨_, rfl, .rewound rfl⟩
  | encUnary sgn => exact ⟨_, rfl, .encodeWith rfl rfl rfl unaryCodec_measured⟩
  | encGamma sgn => exact ⟨_, rfl, .encodeWith rfl rfl rfl gammaCodec_measured⟩
  | encDelta sgn => exact ⟨_, rfl, .encodeWith rfl rfl rfl deltaCodec_measured⟩
  | encOmega sgn => exact ⟨_, rfl, .encodeWith rfl rfl rfl omegaCodec_measured⟩
  | encFib sgn => exact ⟨_, rfl, .encodeWith rfl rfl rfl fibCodec_measured⟩
  | encRice k sgn => exact ⟨_, rfl, .encodeWith rfl rfl rfl (riceCodec_measured k)⟩
  | encGolomb sgn => exact ⟨_, rfl, .encodeWith rfl rfl rfl (golombCodec_measured _)⟩
  | encVByte sgn => exact ⟨_, rfl, .encodeWith rfl rfl rfl vbyteCodec_measured⟩
  | encExpG k sgn => exact ⟨_, rfl, .encodeWith rfl rfl rfl (expGolombCodec_measured k)⟩
  | encFixed n sgn => exact ⟨_, rfl, .encodeWith rfl rfl rfl (fixedCodec_measured n)⟩
  | decUnary sgn => exact ⟨_, rfl, .decodeWith rfl rfl (.unaryParse s)⟩
  | decGamma sgn => exact ⟨_, rfl, .decodeWith rfl rfl (.gammaParse s 63)⟩
  | decDelta sgn => exact ⟨_, rfl, .decodeWith rfl rfl (.deltaParse s)⟩
  | decOmega sgn => exact ⟨_, rfl, .decodeWith rfl rfl (.omegaParse s)⟩
  | decFib sgn => exact ⟨_, rfl, .decodeWith rfl rfl (.fibParse s)⟩
  | decRice k sgn => exact ⟨_, rfl, .decodeWith rfl rfl (.riceParse s k)⟩
  | decGolomb sgn => exact ⟨_, rfl, .decodeWith rfl rfl (.golombParse s _)⟩
  | decVByte sgn => exact ⟨_, rfl, .decodeWith rfl rfl (.vbyteParse s)⟩
  | decExpG k sgn => exact ⟨_, rfl, .decodeWith rfl rfl (.expGolombParse s k)⟩
  | decFixed n sgn => exact ⟨_, rfl, .decodeWith rfl rfl (.fixedParse s n)⟩
  | svInit =>
    refine ⟨_, rfl, .ite (fun _ => .raised _ (by decide)) fun h => .ite (fun _ => .raised _ (by decide)) fun _ => ?_⟩
    exact .filled _ _ _ rfl (Nat.le_of_not_lt h)
  | svSet | svReset | svFlip => exact ⟨_, rfl, .ite (fun _ => .raised _ (by decide)) fun _ => .cellWritten _ rfl⟩
  | svBuild => exact ⟨_, rfl, .built rfl⟩
  | svSelect =>
    refine ⟨_, rfl, .ite (fun _ => .raised _ (by decide)) fun _ => .ite (fun _ => ?_) fun _ => .ite (fun _ => ?_) fun _ => ?_⟩
    · exact .selected _ true s.draws rfl rfl
    · exact .selected _ false s.draws rfl rfl
    · exact .selected _ false _ rfl rfl
  | svDecode =>
    refine ⟨_, rfl, ?_⟩
    split
    next h => exact .vectorRead _ _ rfl h
    next => exact .raised _ (ParseError.errCode_ne_ok _)

theorem effect_of_exec {i : Instr} {s t : State} (h : exec i s = .next t) : Effect i s t := by
  obtain ⟨u, hu, heff⟩ := exec_effect i s
  obtain rfl : u = t := Host.Outcome.next.inj (hu.symm.trans h)
  exact heff

/-! ### All a raced command can do (U6) -/

/-- What a raced command leaves before it ends, field by field. -/
def State.afterRace (s : State) (i : Instr) : State :=
  { s with
    raced := false, draws := s.draws + 1
    mem := (raceSink (sinkWriter i) (sinkLength i s) s).mem
    sinkCursor := (raceSink (sinkWriter i) (sinkLength i s) s).sinkCursor
    pend := (raceSink (sinkWriter i) (sinkLength i s) s).pend
    srcPos := if readsSource i then (raceSource s).srcPos else s.srcPos
    result := if readsValue i then Config.freeWord s.draws else s.result
    svLen := if i = .svDecode then (raceVector s).svLen else s.svLen
    svTotal := if i = .svDecode then (raceVector s).svTotal else s.svTotal
    svBits := if i = .svDecode then (raceVector s).svBits else s.svBits
    sb := if i = .svDecode then (raceVector s).sb else s.sb
    bk := if i = .svDecode then (raceVector s).bk else s.bk
    index := if i = .svDecode then (raceVector s).index else s.index }

theorem raceSink_eq (w : SinkWriter) (len : Nat) (s : State) : raceSink w len s =
    { s with mem := (raceSink w len s).mem, sinkCursor := (raceSink w len s).sinkCursor, pend := (raceSink w len s).pend } := by
  unfold raceSink
  split <;> rfl

theorem raceOutcome_eq (i : Instr) (s : State) :
    raceOutcome i s = raise (ErrCode.ofFin (Config.freeCode s.draws)) (s.afterRace i) := by
  rw [raceOutcome, raceSink_eq]
  unfold State.afterRace
  by_cases hd : i = .svDecode
  · subst hd
    rfl
  · cases hs : readsSource i <;> cases hv : readsValue i <;> simp only [hd, if_true, if_false, Bool.false_eq_true] <;> rfl

/-! ### All a step can do -/

/-- `t` is what one step leaves of `s`. Each step but the idle one takes something from the list `host`, so `h` is what is still to come. -/
inductive Move (s : State) : State → Prop where
  /-- Nothing happens, or the host reads or polls. -/
  | quiet (h : List HostEvent) (d : List Byte) (k : Nat) : Move s { s with host := h, hostData := d, draws := k }
  /-- The host writes platform memory. -/
  | stored (h : List HostEvent) (addr : Nat) (bytes : List Byte) :
      Move s { s with host := h, mem := s.mem.writeBytes addr bytes, raced := s.raced || s.anyRace addr bytes.length }
  /-- A register write is dropped (R40). -/
  | dropped (h : List HostEvent) (hb : s.busy = true) : Move s { s with host := h, proto := true }
  /-- A soft or a power-on reset (R34, R400). -/
  | reset (h : List HostEvent) (hr : s.resetComing = true) : Move s { s.engineReset with host := h }
  /-- A CMD write is accepted (R43). -/
  | accepted (h : List HostEvent) (w : Word) (hb : s.busy = false) : Move s { s.accept w with host := h }
  /-- An operand register is written (R44, R45). -/
  | operand (h : List HostEvent) (a b : Word) (hb : s.busy = false) : Move s { s with host := h, arg0 := a, arg1 := b }
  /-- The engine refuses a command in the fault state (R365). -/
  | faulted (h : List HostEvent) (hb : s.busy = true) (hf : s.fault = true) : Move s (raise .faulted { s with host := h })
  /-- The engine refuses an illegal word (R116). -/
  | illegal (h : List HostEvent) (hb : s.busy = true) (hf : s.fault = false) (hd : ∃ e, decode s.cmd = .error e) :
      Move s (raise .illegalCommand { s with host := h })
  /-- The engine ends a raced command (R99). -/
  | raced (h : List HostEvent) (i : Instr) (hb : s.busy = true) (hf : s.fault = false) :
      Move s (raceOutcome i { s with host := h })
  /-- The engine runs a command (R367). -/
  | ran (h : List HostEvent) (i : Instr) {t : State} (hb : s.busy = true) (hf : s.fault = false) (hr : s.raced = false)
      (he : exec i { s with host := h } = .next t) : Move s t

theorem Move.of_engineStep {s t : State} (h : List HostEvent) (hb : s.busy = true)
    (hstep : engineStep { s with host := h } = .next t) : Move s t := by
  obtain ⟨hf, he⟩ | ⟨hf, hd, he⟩ | ⟨hf, i, -, hr, he⟩ | ⟨hf, i, -, hr, he⟩ := engineStep_cases { s with host := h }
  all_goals rw [he] at hstep
  · exact Host.Outcome.next.inj hstep ▸ .faulted h hb hf
  · exact Host.Outcome.next.inj hstep ▸ .illegal h hb hf hd
  · exact Host.Outcome.next.inj hstep ▸ .raced h i hb hf
  · exact .ran h i hb hf hr hstep

/-- A write inside the block that is a whole register is at the offset it names. -/
theorem offset_of_touchesBlock {p : Platform} {addr : Nat} (ht : touchesBlock p addr 8 = true) (h8 : addr % 8 = 0) :
    p.mmioBase ≤ addr := by
  simp only [touchesBlock, decide_eq_true_eq] at ht
  unfold Platform.mmioBase at ht ⊢
  omega

theorem Move.of_write {s t : State} {addr : Word} {bytes : List Byte} {rest : List HostEvent}
    (hhost : s.host = .write addr bytes :: rest) (h : hostWrite addr.toNat bytes { s with host := rest } = .next t) : Move s t := by
  unfold hostWrite at h
  split at h
  case isFalse =>
    split at h
    · cases h
    · exact Host.Outcome.next.inj h ▸ .stored rest addr.toNat bytes
  case isTrue ht =>
    split at h
    case isFalse => cases h
    case isTrue hwhole =>
      obtain rfl := Host.Outcome.next.inj h
      obtain hid | ⟨hb, hw⟩ | ⟨hb, hoff, hbit, hw⟩ | ⟨hb, -, hw⟩ | ⟨hb, -, hw⟩ | ⟨hb, -, hw⟩ :=
        writeReg_cases { s with host := rest } (addr.toNat - s.plat.mmioBase) (BitVec.ofNat 64 (ofLanes bytes))
      · rw [hid]
        exact .quiet rest s.hostData s.draws
      · exact hw ▸ .dropped rest hb
      · refine hw ▸ .reset rest ?_
        have hsize : bytes.length = 8 ∧ addr.toNat % 8 = 0 := of_decide_eq_true hwhole
        have hbase : addr.toNat = s.plat.mmioBase + 8 := by
          have := offset_of_touchesBlock (hsize.1 ▸ ht) hsize.2
          omega
        have hidle : s.busy = false := hb
        have htouch : touchesBlock s.plat addr.toNat bytes.length = true := ht
        rw [hbase] at hwhole htouch
        rw [State.resetComing, hhost]
        simp [hidle, htouch, hwhole, hbit, hbase]
      · exact hw ▸ .accepted rest _ hb
      · exact hw ▸ .operand rest _ s.arg1 hb
      · exact hw ▸ .operand rest s.arg0 _ hb

/-- Every step is one of the moves. -/
theorem move_of_step {s t : State} (h : step s = .next t) : Move s t := by
  obtain ⟨-, -, rfl⟩ | ⟨-, hb, he⟩ | ⟨e, rest, hhost, he⟩ := step_cases h
  · exact .quiet t.host t.hostData t.draws
  · exact .of_engineStep s.host hb he
  · cases e with
    | read addr n =>
      obtain ⟨d, k, hr⟩ | hr | hr := hostRead_cases addr.toNat n { s with host := rest }
      all_goals rw [eventStep, hr] at he
      · exact Host.Outcome.next.inj he ▸ .quiet rest d k
      · cases he
      · cases he
    | write addr bytes => exact .of_write hhost he
    | wait =>
      rw [eventStep] at he
      split at he
      next hb => exact .of_engineStep s.host hb he
      next => exact Host.Outcome.next.inj he ▸ .quiet rest (lanes s.status) s.draws
    | engine =>
      rw [eventStep] at he
      split at he
      next hb => exact .of_engineStep rest hb he
      next => exact Host.Outcome.next.inj he ▸ .quiet rest s.hostData s.draws
    | powerOn => exact Host.Outcome.next.inj he ▸ .reset rest (by rw [State.resetComing, hhost])

end Sys2Proof.Machine
end

