-- ==== Sys2Proof/Proofs/Invariants.lean ====
section
/-! PROOFS. The invariants every step keeps (10_state.md R36 to R59, 20_memory.md R80, R105), each by the effects of a command and the moves of
a step. -/
namespace Sys2Proof.Machine

/-! ### Memory's canonical form (R80) -/

theorem Effect.mem_wf {i : Instr} {s t : State} (h : Effect i s t) (hm : s.mem.wf) : t.mem.wf := by
  cases h with
  | raised e => simpa using hm
  | put bits => exact putBits_wf _ _ s hm
  | returned | read | moved | rewound | sinkOpened | sourceOpened | filled | cellWritten | built | selected | vectorRead => exact hm

theorem raceSink_mem_wf (w : SinkWriter) (len : Nat) {s : State} (hm : s.mem.wf) : (raceSink w len s).mem.wf := by
  unfold raceSink
  split
  · exact hm
  · exact s.scrambleSink_wf w len hm

/-- Settles O14: every write of memory is a run of `Memory.write`. -/
theorem stepKeepsMemoryForm : Obligations.StepKeepsMemoryForm := by
  intro s t hm hstep
  cases move_of_step hstep with
  | quiet | dropped | reset | accepted | operand => exact hm
  | stored h addr bytes => exact Memory.writeBytes_wf _ _ _ hm
  | faulted | illegal => simpa using hm
  | raced h i =>
    rw [raceOutcome_eq, raise_mem]
    exact raceSink_mem_wf _ _ (s := { s with host := h }) hm
  | ran h i _ _ _ he => exact (effect_of_exec he).mem_wf hm

/-! ### The streams (R49, R50, R53, R105) -/

/-- A byte below bit `i`, with bit `i` written, is below bit `i + 1`. -/
theorem toNat_setBit_lt {p : Byte} {i : Nat} (b : Bool) (hi : i < 8) (hp : p.toNat < 2 ^ i) : (setBit p i b).toNat < 2 ^ (i + 1) := by
  refine Nat.lt_pow_two_of_testBit _ fun j hj => ?_
  rw [BitVec.testBit_toNat, getLsbD_setBit _ _ _ _ hi, if_neg (by omega), BitVec.getLsbD]
  exact Nat.testBit_lt_two_pow (hp.trans_le (Nat.pow_le_pow_right (by decide) (by omega)))

/-- `putLoop` moves the cursor by the bits it writes, and leaves PEND zero from the cursor's bit up (R50, R86). -/
theorem putLoop_cursor_pend {plat : Platform} {base c c' : Nat} {bits : Bits} {p p' : Byte} {m m' : Memory}
    (hp : c % 8 ≠ 0 → p.toNat < 2 ^ (c % 8)) (h : putLoop plat base bits c p m = some (c', p', m')) :
    c' = c + bits.length ∧ (c' % 8 ≠ 0 → p'.toNat < 2 ^ (c' % 8)) := by
  induction bits generalizing c p m with
  | nil =>
    simp only [putLoop, Option.some.injEq, Prod.mk.injEq] at h
    obtain ⟨rfl, rfl, -⟩ := h
    exact ⟨rfl, hp⟩
  | cons b rest ih =>
    have hlow : (if c % 8 = 0 then 0 else p).toNat < 2 ^ (c % 8) := by
      split
      · exact Nat.two_pow_pos _
      · exact hp ‹_›
    have hnext : (c + 1) % 8 ≠ 0 → (setBit (if c % 8 = 0 then 0 else p) (c % 8) b).toNat < 2 ^ ((c + 1) % 8) := fun h0 => by
      rw [show (c + 1) % 8 = c % 8 + 1 by omega]
      exact toNat_setBit_lt b (by omega) hlow
    have key {m₁ : Memory} (h : putLoop plat base rest (c + 1) (setBit (if c % 8 = 0 then 0 else p) (c % 8) b) m₁ = some (c', p', m')) :
        c' = c + (b :: rest).length ∧ (c' % 8 ≠ 0 → p'.toNat < 2 ^ (c' % 8)) := by
      obtain ⟨hc, hp'⟩ := ih hnext h
      exact ⟨by rw [hc, List.length_cons]; omega, hp'⟩
    simp only [putLoop] at h
    split at h
    · split at h
      · exact key h
      · cases h
    · exact key h

theorem StreamInv.raise {s : State} (hs : StreamInv s) (e : ErrCode) : StreamInv (raise e s) := by
  rw [raise_eq]
  exact hs

theorem resetOn_streamInv (p : Platform) : StreamInv (State.resetOn p) := by simp [StreamInv, State.resetOn, ceilDiv]

theorem StreamInv.putBits {w : SinkWriter} {bits : Bits} {s : State} (hs : StreamInv s) (hroom : bits.length ≤ s.sinkRoom) :
    StreamInv (putBits w bits s) := by
  obtain ⟨hcur, hpos, hsink, hsrc, hpend⟩ := id hs
  cases bits with
  | nil => exact hs
  | cons b rest =>
    rw [Machine.putBits]
    split
    next c p m hput =>
      obtain ⟨hc, hp⟩ := putLoop_cursor_pend (fun _ => hpend) hput
      unfold State.sinkRoom at hroom
      have htoNat : (BitVec.ofNat 64 c).toNat = c := Nat.mod_eq_of_lt (by omega)
      refine ⟨?_, hpos, hsink, hsrc, ?_⟩
      · show (BitVec.ofNat 64 c).toNat ≤ _
        rw [htoNat]
        show c ≤ s.sinkCap.toNat
        omega
      · show (if c % 8 = 0 then 0 else p).toNat < 2 ^ ((BitVec.ofNat 64 c).toNat % 8)
        rw [htoNat]
        split
        · exact Nat.two_pow_pos _
        · exact hp ‹_›
    next => exact StreamInv.raise (s := { s with mem := s.scrambleSink w (b :: rest).length, draws := s.draws + 1 }) hs _

theorem State.toNat_advanceSource_srcPos {s : State} {n : Nat} (h : s.srcPos.toNat ≤ s.srcSize.toNat) (hn : n ≤ s.srcLeft) :
    (s.advanceSource n).srcPos.toNat = s.srcPos.toNat + n := by
  unfold State.srcLeft at hn
  rw [State.advanceSource_eq]
  exact Nat.mod_eq_of_lt (by omega)

theorem StreamInv.advanceSource {s : State} {n : Nat} (hs : StreamInv s) (hn : n ≤ s.srcLeft) : StreamInv (s.advanceSource n) := by
  obtain ⟨hcur, hpos, hrest⟩ := hs
  refine ⟨hcur, ?_, hrest⟩
  rw [State.toNat_advanceSource_srcPos hpos hn, State.advanceSource_srcSize]
  unfold State.srcLeft at hn
  omega

theorem Effect.streamInv {i : Instr} {s t : State} (h : Effect i s t) (hs : StreamInv s) : StreamInv t := by
  obtain ⟨hcur, hpos, hsink, hsrc, hpend⟩ := id hs
  cases h with
  | raised e => exact hs.raise e
  | put bits _ hlen => exact hs.putBits (hlen ▸ sinkLength_le i s)
  | read v n _ _ hn => exact hs.advanceSource (hn hpos)
  | moved n _ hn => exact hs.advanceSource hn
  | vectorRead v n _ h => exact hs.advanceSource ((Bounded.wireParse s).le_srcLeft h hpos)
  | rewound => exact ⟨hcur, Nat.zero_le _, hsink, hsrc, hpend⟩
  | sinkOpened _ h => exact ⟨Nat.zero_le _, hpos, of_decide_eq_true h, hsrc, Nat.one_pos⟩
  | sourceOpened _ h => exact ⟨hcur, Nat.zero_le _, hsink, of_decide_eq_true h, hpend⟩
  | returned | filled | cellWritten | built | selected => exact hs

theorem StreamInv.raceSink {w : SinkWriter} {len : Nat} {s : State} (hs : StreamInv s) : StreamInv (raceSink w len s) := by
  obtain ⟨hcur, hpos, hsink, hsrc, -⟩ := id hs
  unfold Machine.raceSink
  split
  · exact hs
  · generalize hc : s.sinkCursor.toNat + Config.freeAdvance s.draws % (s.sinkRoom + 1) = c
    have hle : c ≤ s.sinkCap.toNat := by
      have hlt := Nat.mod_lt (Config.freeAdvance s.draws) (Nat.succ_pos s.sinkRoom)
      unfold State.sinkRoom at hlt hc
      rw [Nat.succ_eq_add_one] at hlt
      omega
    have htoNat : (BitVec.ofNat 64 c).toNat = c := Nat.mod_eq_of_lt (by omega)
    refine ⟨htoNat.trans_le hle, hpos, hsink, hsrc, ?_⟩
    show (BitVec.ofNat 8 _).toNat < 2 ^ ((BitVec.ofNat 64 c).toNat % 8)
    rw [htoNat, BitVec.toNat_ofNat]
    exact (Nat.mod_le _ _).trans_lt (Nat.mod_lt _ (Nat.two_pow_pos _))

theorem StreamInv.raceSource {s : State} (hs : StreamInv s) : StreamInv (raceSource s) :=
  hs.advanceSource (Nat.le_of_lt_succ (Nat.mod_lt _ (Nat.succ_pos _)))

theorem StreamInv.afterRace {s : State} (i : Instr) (hs : StreamInv s) : StreamInv (s.afterRace i) := by
  obtain ⟨-, hpos, hsink, hsrc, -⟩ := id hs
  have hrace := hs.raceSink (w := sinkWriter i) (len := sinkLength i s)
  rw [raceSink_eq] at hrace
  obtain ⟨hcur, -, -, -, hpend⟩ := hrace
  refine ⟨hcur, ?_, hsink, hsrc, hpend⟩
  show (if readsSource i then (Machine.raceSource s).srcPos else s.srcPos).toNat ≤ s.srcSize.toNat
  split
  · obtain ⟨-, hpos', -⟩ := hs.raceSource
    exact hpos'
  · exact hpos

/-- Settles O15: a command moves a stream by no more than is left of it, and a raced one by no more either. -/
theorem stepKeepsStreamInvariants : Obligations.StepKeepsStreamInvariants := by
  intro s t hs hstep
  cases move_of_step hstep with
  | quiet | stored | dropped | accepted | operand => exact hs
  | reset => exact resetOn_streamInv s.plat
  | faulted h | illegal h => exact StreamInv.raise (s := { s with host := h }) hs _
  | raced h i =>
    rw [raceOutcome_eq]
    exact (StreamInv.afterRace (s := { s with host := h }) i hs).raise _
  | ran h i _ _ _ he => exact (effect_of_exec he).streamInv hs

/-! ### The bit vector (R13, R54, R56, R57, R58) -/

theorem VectorInv.raise {s : State} (hv : VectorInv s) (e : ErrCode) : VectorInv (raise e s) := by
  rw [raise_eq]
  exact hv

theorem resetOn_vectorInv {p : Platform} (hp : p.Valid) : VectorInv (State.resetOn p) :=
  ⟨hp, Nat.zero_le _, rfl, by simp [State.resetOn, superCount, ceilDiv], by simp [State.resetOn, blockCount, ceilDiv]⟩

theorem putBits_vectorInv {w : SinkWriter} {bits : Bits} {s : State} (hv : VectorInv s) : VectorInv (putBits w bits s) := by
  obtain ⟨_, _, _, h⟩ | ⟨_, h⟩ := putBits_frame w bits s
  · exact h ▸ hv
  · exact h ▸ hv

/-- A length within VMAX fits SV_LEN. -/
theorem toNat_ofNat_of_le_vmax {p : Platform} {n : Nat} (hp : p.Valid) (hn : n ≤ p.vmax) : (BitVec.ofNat 64 n).toNat = n := by
  obtain ⟨-, hmax⟩ := hp
  exact Nat.mod_eq_of_lt (by omega)

theorem Effect.vectorInv {i : Instr} {s t : State} (h : Effect i s t) (hv : VectorInv s) : VectorInv t := by
  obtain ⟨hplat, hlen, hbits, hsb, hbk⟩ := id hv
  cases h with
  | raised e => exact hv.raise e
  | put bits => exact putBits_vectorInv hv
  | filled b d k _ h => exact ⟨hplat, h, by simp, by simp, by simp⟩
  | cellWritten b => exact ⟨hplat, hlen, by simpa using hbits, hsb, hbk⟩
  | built => exact ⟨hplat, hlen, hbits, length_buildSuper _ _, length_buildBlock _ _⟩
  | vectorRead v n _ h =>
    obtain ⟨hmax, hb, hs, hk⟩ := wireParse_shape h
    have htoNat := toNat_ofNat_of_le_vmax hplat hmax
    exact ⟨hplat, by simpa [htoNat] using hmax, by simpa [htoNat] using hb, by simpa [htoNat] using hs, by simpa [htoNat] using hk⟩
  | returned | read | moved | rewound | sinkOpened | sourceOpened | selected => exact hv

theorem raceVector_vectorInv {s : State} (hp : s.plat.Valid) : VectorInv (raceVector s) := by
  have hle : Config.freeLength s.draws % (s.plat.vmax + 1) ≤ s.plat.vmax := Nat.le_of_lt_succ (Nat.mod_lt _ (Nat.succ_pos _))
  have htoNat := toNat_ofNat_of_le_vmax hp hle
  unfold raceVector
  refine ⟨hp, htoNat.trans_le hle, ?_, ?_, ?_⟩
  all_goals simp [htoNat]

theorem VectorInv.afterRace {s : State} (i : Instr) (hv : VectorInv s) : VectorInv (s.afterRace i) := by
  obtain ⟨hplat, -⟩ := id hv
  by_cases hd : i = .svDecode
  · subst hd
    exact raceVector_vectorInv hplat
  · simpa [State.afterRace, hd] using hv

/-- Settles O16: a new vector comes with RAMs of its length, and a cell write keeps them. -/
theorem stepKeepsVectorInvariants : Obligations.StepKeepsVectorInvariants := by
  intro s t hv hstep
  obtain ⟨hplat, -⟩ := id hv
  cases move_of_step hstep with
  | quiet | stored | dropped | accepted | operand => exact hv
  | reset => exact resetOn_vectorInv hplat
  | faulted h | illegal h => exact VectorInv.raise (s := { s with host := h }) hv _
  | raced h i =>
    rw [raceOutcome_eq]
    exact (VectorInv.afterRace (s := { s with host := h }) i hv).raise _
  | ran h i _ _ _ he => exact (effect_of_exec he).vectorInv hv

/-! ### STATUS (R36, R38, R41, R42) -/

theorem State.inFlight_of_idle {s : State} (h : s.busy = false) : s.inFlight = none := by simp [State.inFlight, h]

theorem State.inFlight_of_fault {s : State} (h : s.fault = true) : s.inFlight = none := by simp [State.inFlight, h]

theorem State.inFlight_of_illegal {s : State} (h : ∃ e, decode s.cmd = .error e) : s.inFlight = none := by
  obtain ⟨e, he⟩ := h
  simp [State.inFlight, he, Except.toOption]

/-- An engine with no command that will run has no command that can be raced. -/
theorem StatusInv.not_raced {s : State} (hs : StatusInv s) (h : s.inFlight = none) : s.raced = false := by
  obtain ⟨-, -, -, -, hr⟩ := hs
  rw [← Bool.not_eq_true]
  intro hraced
  simpa [h] using hr hraced

/-- A host write that races meets a command in flight. -/
theorem State.inFlight_of_anyRace {s : State} {addr n : Nat} (h : s.anyRace addr n = true) : s.inFlight.isSome = true := by
  simp only [State.anyRace, List.any_eq_true] at h
  obtain ⟨j, -, hj⟩ := h
  unfold State.writeRaces at hj
  split at hj
  next hi => rw [hi]; rfl
  next => cases hj

/-- The STATUS invariants of an idle engine. -/
theorem statusInv_of_idle {s : State} (hb : s.busy = false) (hnf : s.nf = true → s.err = .ok)
    (hf : s.fault = true → s.fcode.fatal = true) (hf' : s.fault = false → s.fcode = .ok) (hr : s.raced = false) : StatusInv s :=
  ⟨fun h => by simp [hb] at h, hnf, hf, hf', fun h => by simp [hr] at h⟩

/-- The part of the STATUS invariants that the end of a command needs of the state it ends: NF is 0 since its issue. -/
structure Endable (s : State) : Prop where
  nf : s.nf = false
  fault : s.fault = true → s.fcode.fatal = true
  noFault : s.fault = false → s.fcode = .ok
  raced : s.raced = false

theorem StatusInv.endable {s : State} (hs : StatusInv s) (hb : s.busy = true) (hr : s.raced = false) (h : List HostEvent) :
    Endable { s with host := h } := by
  obtain ⟨hbusy, -, hf, hf', -⟩ := hs
  obtain ⟨-, hnf⟩ := hbusy hb
  exact ⟨hnf, hf, hf', hr⟩

theorem Endable.raise {s : State} (h : Endable s) (e : ErrCode) : StatusInv (raise e s) := by
  obtain ⟨hnf, hf, hf', hr⟩ := h
  refine statusInv_of_idle (raise_busy e s) ?_ ?_ ?_ (by simpa using hr)
  · simp [hnf]
  · cases he : e.fatal <;> simp [he]
    exact hf
  · cases he : e.fatal <;> simp [he]
    exact hf'

theorem Endable.succeed {s t : State} (h : Endable s) (hb : t.busy = false) (he : t.err = .ok) (hf : t.fault = s.fault)
    (hfc : t.fcode = s.fcode) (hr : t.raced = s.raced) : StatusInv t := by
  obtain ⟨-, hfault, hfault', hraced⟩ := h
  exact statusInv_of_idle hb (fun _ => he) (by rwa [hf, hfc]) (by rwa [hf, hfc]) (hr.trans hraced)

theorem Endable.putBits {s : State} (h : Endable s) (w : SinkWriter) (bits : Bits) : StatusInv (putBits w bits s) := by
  obtain ⟨_, _, _, heq⟩ | ⟨_, heq⟩ := putBits_frame w bits s
  · exact heq ▸ h.succeed rfl rfl rfl rfl rfl
  · obtain ⟨hnf, -, -, hr⟩ := h
    exact heq ▸ statusInv_of_idle rfl (fun hn => absurd (hnf.symm.trans hn) (by decide)) (fun _ => rfl) (fun hf => by cases hf) hr

theorem Effect.statusInv {i : Instr} {s t : State} (h : Effect i s t) (hs : Endable s) : StatusInv t := by
  cases h with
  | raised e => exact hs.raise e
  | put bits => exact hs.putBits _ _
  | returned | read | moved | rewound | sinkOpened | sourceOpened | filled | cellWritten | built | selected | vectorRead =>
    exact hs.succeed rfl rfl rfl rfl rfl

/-- Settles O17: an accepted write clears ERR, NF and the model's `raced`; a command that ends leaves the engine idle. -/
theorem stepKeepsStatusInvariants : Obligations.StepKeepsStatusInvariants := by
  intro s t hs hstep
  obtain ⟨hbusy, hnf, hf, hf', hr⟩ := id hs
  cases move_of_step hstep with
  | quiet | dropped => exact hs
  | stored h addr bytes =>
    refine ⟨hbusy, hnf, hf, hf', fun hraced => ?_⟩
    obtain hraced | hraced := Bool.or_eq_true_iff.1 hraced
    · exact hr hraced
    · exact State.inFlight_of_anyRace hraced
  | reset => exact statusInv_of_idle rfl (fun _ => rfl) (fun h => by cases h) (fun _ => rfl) rfl
  | accepted h w => exact ⟨fun _ => ⟨rfl, rfl⟩, fun _ => rfl, hf, hf', fun h => by cases h⟩
  | operand h a b hb => exact statusInv_of_idle hb hnf hf hf' (hs.not_raced (State.inFlight_of_idle hb))
  | faulted h hb hfault =>
    exact (hs.endable hb (hs.not_raced (State.inFlight_of_fault hfault)) h).raise _
  | illegal h hb _ hd =>
    exact (hs.endable hb (hs.not_raced (State.inFlight_of_illegal hd)) h).raise _
  | raced h i hb =>
    rw [raceOutcome_eq]
    obtain ⟨-, hnf'⟩ := hbusy hb
    exact Endable.raise (s := State.afterRace { s with host := h } i) ⟨hnf', hf, hf', rfl⟩ _
  | ran h i hb _ hraced he => exact (effect_of_exec he).statusInv (hs.endable hb hraced h)

/-- Settles O18: every field the invariants speak of is zero or empty after reset. -/
theorem resetHasInvariants : Obligations.ResetHasInvariants := by
  intro p hp
  refine ⟨⟨List.Pairwise.nil, by simp [State.resetOn]⟩, resetOn_streamInv p,
    resetOn_vectorInv hp, ?_⟩
  exact statusInv_of_idle rfl (fun _ => rfl) (fun h => by cases h) (fun _ => rfl) rfl

end Sys2Proof.Machine
end

