-- ==== Sys2Proof/Proofs/FaultAndRace.lean ====
section
/-! PROOFS. The fault state, RESULT, races, and where the engine's step and the resets fall (60_exceptions.md §2, 10_state.md R34, R46,
20_memory.md R97, R99). -/
namespace Sys2Proof.Machine

/-! ### Fatal errors (R364, R366) -/

/-- Settles O22: a fatal code was raised from the state the command found, or by its sink write. -/
theorem fatalErrorsEnterFaultState : Obligations.FatalErrorsEnterFaultState := by
  intro i s t hexec hfatal
  cases commandEnd_of_exec hexec with
  | ok hok => simp [hok, ErrCode.fatal] at hfatal
  | raised e =>
    rw [raise_err] at hfatal
    rw [raise_fatal e s hfatal]
    exact ⟨rfl, fun _ => rfl⟩
  | sinkBusError m => exact ⟨rfl, fun hstale => by cases hstale⟩

/-- Settles O20: a command word in the fault state is refused, and nothing else that is not a reset touches these fields. -/
theorem faultStateIsSticky : Obligations.FaultStateIsSticky := by
  intro s t hfault hstep hreset
  cases move_of_step hstep with
  | quiet | stored | dropped | accepted | operand =>
    exact ⟨hfault, rfl, rfl, rfl, rfl, rfl, rfl, rfl, rfl, rfl, rfl, rfl, rfl, rfl, rfl, rfl⟩
  | reset h hr => simp [hreset] at hr
  | faulted h =>
    rw [raise_nonfatal _ _ rfl]
    exact ⟨hfault, rfl, rfl, rfl, rfl, rfl, rfl, rfl, rfl, rfl, rfl, rfl, rfl, rfl, rfl, rfl⟩
  | illegal h _ hf | raced h i _ hf | ran h i _ hf => simp [hfault] at hf

/-! ### RESULT (R46) -/

theorem putBits_result (w : SinkWriter) (bits : Bits) (s : State) : (putBits w bits s).result = s.result := by
  obtain ⟨_, _, _, h⟩ | ⟨_, h⟩ := putBits_frame w bits s
  all_goals rw [h]

/-- Settles O24: the effects that write RESULT are those of the commands that return a value, and they end with OK. -/
theorem resultOnlyOnSuccess : Obligations.ResultOnlyOnSuccess := by
  intro i s t hexec hwhy
  cases effect_of_exec hexec with
  | raised e => exact raise_result e s
  | put bits => exact putBits_result _ _ s
  | returned v _ hv | read v n _ hv | selected v b k _ hv =>
    obtain herr | hno := hwhy
    · exact absurd rfl herr
    · simp [hv] at hno
  | moved | rewound | sinkOpened | sourceOpened | filled | cellWritten | built | vectorRead => rfl

/-! ### Races (R99, U6) -/

theorem sinkLength_of_no_write {i : Instr} (h : writesSink i = false) (s : State) : sinkLength i s = 0 := by
  have hwanted : wantedLength i s = 0 := by
    cases i with
    | writeBit | writeBits | align | svEncode => cases h
    | encUnary | encGamma | encDelta | encOmega | encFib | encRice | encGolomb | encVByte | encExpG | encFixed => cases h
    | _ => rfl
  rw [sinkLength, hwanted, ite_self]

theorem raceSink_zero (w : SinkWriter) (s : State) : raceSink w 0 s = s := if_pos rfl

theorem raceSink_mem_read {w : SinkWriter} {len : Nat} {s : State} (hm : s.mem.wf) {a : Nat} (h : s.storesByte w len a = false) :
    (raceSink w len s).mem.read a = s.mem.read a := by
  unfold raceSink
  split
  · rfl
  · show (s.scrambleSink w len).read a = s.mem.read a
    rw [s.scrambleSink_read w len a hm, if_neg (by simp [h])]

/-- Settles O60: what a raced command leaves is written out field by field in `State.afterRace`. -/
theorem racedCommandStaysInItsBuffers : Obligations.RacedCommandStaysInItsBuffers := by
  intro s i hm hhost hb hf hr hd
  have hstep : step s = .next (raise (ErrCode.ofFin (Config.freeCode s.draws)) (s.afterRace i)) := by
    rw [step_busy hhost hb, ← raceOutcome_eq]
    simp [engineStep, hf, hd, hr]
  refine ⟨_, hstep, raise_busy _ _, ?_⟩
  simp only [raise_raced, raise_cmd, raise_arg0, raise_arg1, raise_nf, raise_nfBefore, raise_proto, raise_plat, raise_sinkBase,
    raise_sinkCap, raise_srcBase, raise_srcSize, raise_mem, raise_sinkCursor, raise_pend, raise_srcPos, raise_result, raise_svLen,
    raise_svTotal, raise_svBits, raise_sb, raise_bk, raise_index]
  refine ⟨rfl, rfl, rfl, rfl, rfl, rfl, rfl, rfl, rfl, rfl, rfl, rfl, fun a ha => raceSink_mem_read hm ha, fun hno => ?_,
    fun hno => ?_, fun hno => ?_, fun hno => ?_⟩
  · have hlen : sinkLength i s = 0 := hno.elim (sinkLength_of_no_write · s) id
    simp [State.afterRace, hlen, raceSink_zero]
  · simp [State.afterRace, hno]
  · simp [State.afterRace, hno]
  · simp [State.afterRace, hno]

/-! ### Where the engine's step and the resets fall (R34, R97, R400) -/

theorem engineStep_eq_exec {s : State} {i : Instr} (hf : s.fault = false) (hr : s.raced = false) (hd : decode s.cmd = .ok i) :
    engineStep s = exec i s := by
  simp [engineStep, hf, hd, hr]

/-- Settles O5: each of the three places is the engine's step, past its checks. -/
theorem stepRunsDecodedCommand : Obligations.StepRunsDecodedCommand := by
  intro s i hb hf hr hd
  refine ⟨fun hhost => ?_, fun rest hhost => ?_, fun rest hhost => ?_⟩
  · rw [step_busy hhost hb, engineStep_eq_exec hf hr hd]
  · rw [step_event hhost, eventStep, if_pos hb, engineStep_eq_exec (s := { s with host := rest }) hf hr hd]
  · rw [step_event hhost, eventStep, if_pos hb, engineStep_eq_exec hf hr hd]

theorem writeReg_ctrl (s : State) (w : Word) :
    s.writeReg 0x08 w = if s.busy then s.dropWrite else if w.getLsbD 0 then s.engineReset else s := rfl

/-- Settles O8: a CTRL write by BUSY and its bit 0, and a power-on reset. -/
theorem resetsRestartTheEngine : Obligations.ResetsRestartTheEngine := by
  intro s rest
  refine ⟨fun w hhost => ?_, fun hhost => ?_⟩
  · rw [step_regWrite (by decide) (by decide) hhost, writeReg_ctrl]
    refine ⟨fun hb hw => ?_, fun hb hw => ?_, fun hb _ => ?_⟩
    all_goals simp only [hb, if_true, Bool.false_eq_true, if_false]
    · rw [if_pos hw]
      rfl
    · rw [hw]
      rfl
    · rfl
  · rw [step_event hhost]
    rfl

end Sys2Proof.Machine
end

