-- ==== Sys2Proof/Proofs/RegisterBlock.lean ====
section
/-! PROOFS. The register block as the host reads and writes it, and the host's accesses of platform memory (10_state.md §1 to §3,
20_memory.md R98, R99). -/
namespace Sys2Proof.Machine

/-! ### STATUS, bit by bit (R35) -/

/-- The number STATUS reads as. -/
def State.statusNat (s : State) : Nat :=
  s.busy.toNat + 2 * s.fault.toNat + 4 * s.nfRead.toNat + 8 * s.index.bit.toNat + 16 * s.proto.toNat + 256 * s.err.code.toNat
    + 65536 * s.fcode.code.toNat

/-- The five flags are below bit 5, and each code has eight bits. -/
theorem State.statusNat_fields (s : State) : ∃ flags < 32, s.statusNat = flags + 256 * s.err.code.toNat + 65536 * s.fcode.code.toNat ∧
    flags % 2 = s.busy.toNat ∧ flags / 2 % 2 = s.fault.toNat ∧ flags / 4 % 2 = s.nfRead.toNat ∧
    flags / 8 % 2 = s.index.bit.toNat ∧ flags / 16 = s.proto.toNat := by
  have h0 := Bool.toNat_le s.busy
  have h1 := Bool.toNat_le s.fault
  have h2 := Bool.toNat_le s.nfRead
  have h3 := Bool.toNat_le s.index.bit
  have h4 := Bool.toNat_le s.proto
  refine ⟨_, ?_, rfl, ?_, ?_, ?_, ?_, ?_⟩
  all_goals omega

theorem State.statusNat_lt (s : State) : s.statusNat < 2 ^ 24 := by
  obtain ⟨flags, hflags, hnat, -⟩ := s.statusNat_fields
  have he := s.err.code.isLt
  have hf := s.fcode.code.isLt
  omega

theorem State.status_toNat (s : State) : s.status.toNat = s.statusNat := by
  have hlt := s.statusNat_lt
  exact Nat.mod_eq_of_lt (show s.statusNat < 2 ^ 64 by omega)

theorem State.status_getLsbD_of_div {s : State} {k : Nat} {b : Bool} (h : s.statusNat / 2 ^ k % 2 = b.toNat) :
    s.status.getLsbD k = b := by
  rw [BitVec.getLsbD, s.status_toNat, Nat.testBit_eq_decide_div_mod_eq, h]
  cases b <;> rfl

theorem State.status_err (s : State) : s.status.extractLsb' 8 8 = s.err.code := by
  obtain ⟨flags, hflags, hnat, -⟩ := s.statusNat_fields
  have he := s.err.code.isLt
  apply BitVec.eq_of_toNat_eq
  rw [BitVec.extractLsb'_toNat, s.status_toNat, Nat.shiftRight_eq_div_pow]
  omega

theorem State.status_fcode (s : State) : s.status.extractLsb' 16 8 = s.fcode.code := by
  obtain ⟨flags, hflags, hnat, -⟩ := s.statusNat_fields
  have he := s.err.code.isLt
  have hf := s.fcode.code.isLt
  apply BitVec.eq_of_toNat_eq
  rw [BitVec.extractLsb'_toNat, s.status_toNat, Nat.shiftRight_eq_div_pow]
  omega

/-- What bit `k` of STATUS reads (R35). -/
def State.statusBit (s : State) (k : Nat) : Bool :=
  match k with
  | 0 => s.busy
  | 1 => s.fault
  | 2 => s.nfRead
  | 3 => s.index.bit
  | 4 => s.proto
  | k => if 8 ≤ k ∧ k < 16 then s.err.code.getLsbD (k - 8) else if 16 ≤ k ∧ k < 24 then s.fcode.code.getLsbD (k - 16) else false

theorem State.status_getLsbD (s : State) (k : Nat) : s.status.getLsbD k = s.statusBit k := by
  obtain ⟨flags, hflags, hnat, hb, hf, hn, hi, hp⟩ := s.statusNat_fields
  unfold State.statusBit
  split
  case h_6 h0 h1 h2 h3 h4 =>
    split
    next hk =>
      rw [← s.status_err, BitVec.getLsbD_extractLsb', show 8 + (k - 8) = k by omega, decide_eq_true (by omega), Bool.true_and]
    next herr =>
      split
      next hk =>
        rw [← s.status_fcode, BitVec.getLsbD_extractLsb', show 16 + (k - 16) = k by omega, decide_eq_true (by omega),
          Bool.true_and]
      next hfc =>
        obtain hk | hk : k < 8 ∨ 24 ≤ k := by omega
        · have h5 : 5 ≤ k := Nat.lt_of_le_of_ne (Nat.lt_of_le_of_ne (Nat.lt_of_le_of_ne (Nat.lt_of_le_of_ne
            (Nat.pos_of_ne_zero h0) (Ne.symm h1)) (Ne.symm h2)) (Ne.symm h3)) (Ne.symm h4)
          refine State.status_getLsbD_of_div ?_
          interval_cases k <;> simp <;> omega
        · rw [BitVec.getLsbD, s.status_toNat]
          exact Nat.testBit_lt_two_pow (s.statusNat_lt.trans_le (Nat.pow_le_pow_right (by decide) hk))
  all_goals
    refine State.status_getLsbD_of_div ?_
    omega

/-- The bits that hold no field (R35). -/
theorem State.statusBit_reserved (s : State) {k : Nat} (h : 5 ≤ k ∧ k < 8 ∨ 24 ≤ k) : s.statusBit k = false := by
  unfold State.statusBit
  split
  case h_6 => rw [if_neg (by omega), if_neg (by omega)]
  all_goals omega

theorem State.caps_fields {s : State} (h : s.plat.Valid) :
    (s.caps.extractLsb' 0 32).toNat = s.plat.vmax ∧ s.caps.extractLsb' 32 32 = 0 := by
  obtain ⟨-, hmax⟩ := id h
  have hnat : s.caps.toNat = s.plat.vmax := by
    rw [State.caps_eq_vmax h]
    exact Nat.mod_eq_of_lt (by omega)
  refine ⟨?_, BitVec.eq_of_toNat_eq ?_⟩
  · rw [BitVec.extractLsb'_toNat, hnat, Nat.shiftRight_zero]
    omega
  · rw [BitVec.extractLsb'_toNat, hnat, Nat.shiftRight_eq_div_pow]
    show _ = 0
    omega

/-- No step changes the platform (R13, R14). -/
theorem Move.plat {s t : State} (h : Move s t) : t.plat = s.plat := by
  cases h with
  | quiet | stored | dropped | reset | accepted | operand => rfl
  | faulted | illegal => exact raise_plat _ _
  | raced h i => rw [raceOutcome_eq, raise_plat]; rfl
  | ran h i _ _ _ he =>
    obtain ⟨u, hu, hun⟩ := exec_untouched i { s with host := h }
    obtain rfl := Host.Outcome.next.inj (he.symm.trans hu)
    exact hun.plat

/-- Settles O12: the fields through `State.statusBit`, the codes one by one, and CAPS by the platform. -/
theorem statusAndCapsFields : Obligations.StatusAndCapsFields := by
  refine ⟨fun s => ?_, rfl, fun e => ?_, fun s t hstep => ?_⟩
  · have bit (k : Nat) : s.status.getLsbD k = s.statusBit k := s.status_getLsbD k
    refine ⟨bit 0, bit 1, bit 2, (bit 3).trans ?_, bit 4, s.status_err, s.status_fcode,
      fun k hk => (bit k).trans (s.statusBit_reserved hk), State.caps_fields⟩
    show s.index.bit = _
    cases s.index <;> rfl
  · cases e <;> simp [ErrCode.fatal]
  · have hplat := (move_of_step hstep).plat
    exact ⟨hplat, by rw [State.caps, hplat]; rfl⟩

/-! ### Register writes (R36, R40, R43, R44, R45) -/

/-- After an accepted CMD write every register but STATUS and CMD reads as before (R406). -/
theorem accept_readReg {s : State} (w : Word) (h : List HostEvent) {off : Nat} (h10 : off ≠ 0x10) (h18 : off ≠ 0x18) :
    State.readReg { s.accept w with host := h } off = s.readReg off := by
  unfold State.readReg
  split
  case h_2 => exact absurd rfl h10
  case h_3 => exact absurd rfl h18
  all_goals rfl

/-- While BUSY = 1, what a step that leaves it so can change: none of it is read in the block, but for PROTO. -/
theorem Move.eq_of_busy {s t : State} (h : Move s t) (hb : s.busy = true) (ht : t.busy = true) :
    t = { s with host := t.host, hostData := t.hostData, mem := t.mem, proto := t.proto, raced := t.raced, draws := t.draws } := by
  cases h with
  | quiet | stored | dropped => rfl
  | reset => cases ht
  | accepted h w hidle | operand h a b hidle => simp [hb] at hidle
  | faulted | illegal => simp at ht
  | raced h i => simp [raceOutcome_eq] at ht
  | ran h i _ _ _ he =>
    obtain ⟨u, hu, hun⟩ := exec_untouched i { s with host := h }
    obtain rfl := Host.Outcome.next.inj (he.symm.trans hu)
    simp [hun.busy] at ht

theorem readReg_of_eq {s t : State}
    (h : t = { s with host := t.host, hostData := t.hostData, mem := t.mem, proto := t.proto, raced := t.raced, draws := t.draws })
    {off : Nat} (hoff : off ≠ 0x10) : t.readReg off = s.readReg off := by
  rw [h]
  unfold State.readReg
  split
  case h_2 => exact absurd rfl hoff
  all_goals rfl

theorem statusBit_of_eq {s t : State}
    (h : t = { s with host := t.host, hostData := t.hostData, mem := t.mem, proto := t.proto, raced := t.raced, draws := t.draws })
    {k : Nat} (hk : k ≠ 4) : t.statusBit k = s.statusBit k := by
  rw [h]
  unfold State.statusBit
  split
  case h_5 => exact absurd rfl hk
  all_goals rfl

/-- After an accepted CMD write STATUS reads as before but for BUSY and ERR (R406). -/
theorem accept_statusBit {s : State} (w : Word) (rest : List HostEvent) (hb : s.busy = false) {k : Nat}
    (hk : 1 ≤ k ∧ k < 8 ∨ 16 ≤ k) : State.statusBit { s.accept w with host := rest } k = s.statusBit k := by
  unfold State.statusBit
  split
  case h_1 => omega
  case h_3 => exact (State.nfRead_idle s hb).symm
  case h_6 =>
    simp only [show ¬ (8 ≤ k ∧ k < 16) by omega, if_false]
    rfl
  all_goals rfl

/-- Settles O9: the three writes, what an early read then returns, and that no step on the way to the end changes it. -/
theorem idleRegisterWritesLand : Obligations.IdleRegisterWritesLand := by
  refine ⟨fun s rest w hb => ⟨fun hhost => ?_, fun hhost => ?_, fun hhost => ?_⟩, fun s t hb hstep ht => ?_⟩
  · rw [step_regWrite (by decide) (by decide) hhost]
    refine ⟨{ s.accept w with host := rest }, ?_, rfl, rfl, fun off => accept_readReg w rest, State.status_getLsbD _ 0,
      State.status_err _, State.status_getLsbD _ 2, fun k hk => ?_⟩
    · simp only [State.writeReg, hb, Bool.false_eq_true, if_false]
      rfl
    · rw [State.status_getLsbD, State.status_getLsbD, accept_statusBit w rest hb hk]
  · rw [step_regWrite (by decide) (by decide) hhost]
    simp [State.writeReg, hb]
  · rw [step_regWrite (by decide) (by decide) hhost]
    simp [State.writeReg, hb]
  · have heq := (move_of_step hstep).eq_of_busy hb ht
    refine ⟨heq, fun off => readReg_of_eq heq, fun k hk => ?_⟩
    rw [State.status_getLsbD, State.status_getLsbD, statusBit_of_eq heq hk]

/-- R40: the four offsets whose write is dropped while BUSY = 1. -/
theorem writeReg_of_busy {s : State} {off : Nat} (w : Word) (hoff : off ∈ [0x08, 0x18, 0x20, 0x28]) (hb : s.busy = true) :
    s.writeReg off w = s.dropWrite := by
  simp only [List.mem_cons, List.not_mem_nil, or_false] at hoff
  obtain rfl | rfl | rfl | rfl := hoff
  all_goals exact if_pos hb

theorem Move.proto {s t : State} (h : Move s t) (hp : s.proto = true) : t.proto = true ∨ s.resetComing = true := by
  cases h with
  | quiet | stored | accepted | operand => exact .inl hp
  | dropped => exact .inl rfl
  | reset h hr => exact .inr hr
  | faulted | illegal => exact .inl (by simpa using hp)
  | raced h i => exact .inl (by rw [raceOutcome_eq, raise_proto]; exact hp)
  | ran h i _ _ _ he =>
    obtain ⟨u, hu, hun⟩ := exec_untouched i { s with host := h }
    obtain rfl := Host.Outcome.next.inj (he.symm.trans hu)
    exact .inl (hun.proto.trans hp)

/-- Settles O10: the dropped write, and the one move that clears PROTO. -/
theorem busyWritesSetProto : Obligations.BusyWritesSetProto := by
  refine ⟨fun s rest off w hoff hb hhost => ?_, fun s t hp hstep => (move_of_step hstep).proto hp⟩
  have hblock : off < 256 ∧ off % 8 = 0 := by
    simp only [List.mem_cons, List.not_mem_nil, or_false] at hoff
    omega
  rw [step_regWrite hblock.1 hblock.2 hhost, writeReg_of_busy (s := { s with host := rest }) w hoff hb]
  rfl

/-! ### What each offset reads, ignored writes and refused accesses (R30, R31) -/

theorem readReg_reserved (s : State) {off : Nat} (h : off ∈ [0x38, 0x58, 0x78] ∨ 0x90 ≤ off) : s.readReg off = 0 := by
  simp only [List.mem_cons, List.not_mem_nil, or_false] at h
  unfold State.readReg
  split
  case h_15 => rfl
  all_goals omega

theorem writeReg_ignored (s : State) {off : Nat} (w : Word) (h : off ∉ [0x08, 0x18, 0x20, 0x28]) : s.writeReg off w = s := by
  unfold State.writeReg
  split
  case h_5 => rfl
  all_goals simp at h

theorem wholeRegister_eq_false {addr n : Nat} (h : ¬ (n = 8 ∧ addr % 8 = 0)) : wholeRegister addr n = false := decide_eq_false h

/-- Settles O11: the reads offset by offset, and the two checks of an access that is no register access. -/
theorem registerAccessRules : Obligations.RegisterAccessRules := by
  intro s rest
  refine ⟨fun off hoff h8 hhost => ⟨step_regRead hoff h8 hhost, ?_⟩, fun off hoff h8 hign w hhost => ?_,
    fun addr n ht hno hhost => ?_, fun addr bytes ht hno hhost => ?_⟩
  · refine ⟨?_, ?_, ?_, ?_, ?_, ?_, ?_, ?_, ?_, ?_, ?_, ?_, ?_, ?_, ?_, readReg_reserved s⟩
    all_goals
      rintro rfl
      rfl
  · rw [step_regWrite hoff h8 hhost, writeReg_ignored _ w hign]
  · rw [step_event hhost, eventStep, hostRead, if_pos ht, wholeRegister_eq_false hno]
    rfl
  · rw [step_event hhost, eventStep, hostWrite, if_pos ht, wholeRegister_eq_false hno]
    rfl

/-! ### Platform memory (R98, R99, R408) -/

theorem State.inFlight_eq_some_iff (s : State) (i : Instr) :
    s.inFlight = some i ↔ s.busy = true ∧ s.fault = false ∧ decode s.cmd = .ok i := by
  unfold State.inFlight
  cases s.busy <;> cases s.fault <;> cases decode s.cmd <;> simp [Except.toOption]

theorem State.readRaces_iff (s : State) (a : Nat) : s.readRaces a = true ↔ ∃ i, s.inFlight = some i ∧ s.stores i a = true := by
  unfold State.readRaces
  split
  next i hi => simp [hi]
  next hn => simp [hn]

theorem State.writeRaces_iff (s : State) (a : Nat) : s.writeRaces a = true ↔ ∃ i, s.inFlight = some i ∧
    (writesSink i = true ∧ inBuffer s.sinkBase s.sinkCap a = true ∨ readsSource i = true ∧ inBuffer s.srcBase s.srcSize a = true) := by
  unfold State.writeRaces
  split
  next i hi => simp [hi]
  next hn => simp [hn]

theorem State.anyRace_iff (s : State) (addr n : Nat) : s.anyRace addr n = true ↔ ∃ j < n, s.writeRaces (addr + j) = true := by
  simp [State.anyRace]

/-- Settles O13: the access by its checks, and what races by the command in flight. -/
theorem hostMemoryAccesses : Obligations.HostMemoryAccesses := by
  intro s rest addr hm
  refine ⟨fun n ht hhost => ⟨fun hfit => ?_, fun hpast => ?_⟩, fun bytes ht hhost => ⟨fun hfit => ?_, fun hpast => ?_⟩,
    fun a => ?_, fun a => ?_⟩
  · have hstep : step s = .next { s with
        host := rest, hostData := (List.range n).map fun j => s.hostByte (addr.toNat + j), draws := s.draws + 1 } := by
      rw [step_event hhost, eventStep, hostRead, if_neg (by simp [ht]), if_neg (Nat.not_lt.2 hfit)]
      rfl
    refine ⟨_, hstep, by simp, fun j hj hrace => ?_⟩
    simp [hj, State.hostByte, hrace]
  · rw [step_event hhost, eventStep, hostRead, if_neg (by simp [ht]), if_pos hpast]
  · have hstep : step s = .next { s with
        host := rest, mem := s.mem.writeBytes addr.toNat bytes, raced := s.raced || s.anyRace addr.toNat bytes.length } := by
      rw [step_event hhost, eventStep, hostWrite, if_neg (by simp [ht]), if_neg (Nat.not_lt.2 hfit)]
      rfl
    refine ⟨_, hstep, rfl, ?_, fun a => Memory.read_writeBytes _ _ _ _ hm⟩
    rw [Bool.or_eq_true, State.anyRace_iff]
  · rw [step_event hhost, eventStep, hostWrite, if_neg (by simp [ht]), if_pos hpast]
  · simp only [State.readRaces_iff, State.inFlight_eq_some_iff]
    exact ⟨fun ⟨i, ⟨hb, hf, hd⟩, hs⟩ => ⟨hb, hf, i, hd, hs⟩, fun ⟨hb, hf, i, hd, hs⟩ => ⟨i, ⟨hb, hf, hd⟩, hs⟩⟩
  · simp only [State.writeRaces_iff, State.inFlight_eq_some_iff, inBuffer, decide_eq_true_eq]
    exact ⟨fun ⟨i, ⟨hb, hf, hd⟩, hs⟩ => ⟨hb, hf, i, hd, hs⟩, fun ⟨hb, hf, i, hd, hs⟩ => ⟨i, ⟨hb, hf, hd⟩, hs⟩⟩

end Sys2Proof.Machine
end

