-- ==== Sys2Proof/Proofs/Codewords.lean ====
section
/-! PROOFS. The codewords the machine computes are those of the spec's text (43_codec_universal.md, 44_codec_parametric.md). -/
namespace Sys2Proof.Machine

/-! ### Bit strings (R17) -/

/-- `msb` looks at the low bits alone. -/
theorem msb_mod_two_pow {n k : Nat} (v : Nat) (h : n ≤ k) : msb (v % 2 ^ k) n = msb v n := by
  induction n with
  | zero => rfl
  | succ n ih =>
    rw [msb, msb, ih (by omega), Nat.testBit_mod_two_pow]
    simp [show n < k by omega]

theorem lsb_mod_two_pow (v n : Nat) : lsb (v % 2 ^ n) n = lsb v n := by
  refine List.map_congr_left fun j hj => ?_
  rw [Nat.testBit_mod_two_pow]
  simp [List.mem_range.1 hj]

theorem bitlen_pos {v : Nat} (h : 1 ≤ v) : 1 ≤ bitlen v := by
  unfold bitlen
  split <;> omega

/-- R16: the leading bit of a number is bit bitlen − 1. -/
theorem two_pow_bitlen_le {v : Nat} (h : 1 ≤ v) : 2 ^ (bitlen v - 1) ≤ v := by
  have hpos := bitlen_pos h
  by_contra hlt
  have := bitlen_le_iff.2 (Nat.lt_of_not_le hlt)
  omega

theorem lt_two_pow_bitlen (v : Nat) : v < 2 ^ bitlen v := bitlen_le_iff.1 le_rfl

/-- The bit length of a number between two neighbouring powers of 2. -/
theorem bitlen_eq {v k : Nat} (hlo : 2 ^ k ≤ v) (hhi : v < 2 ^ (k + 1)) : bitlen v = k + 1 :=
  le_antisymm (bitlen_le_iff.2 hhi) (Nat.lt_of_not_le fun h => by have := bitlen_le_iff.1 h; omega)

theorem testBit_bitlen {v : Nat} (h : 1 ≤ v) : v.testBit (bitlen v - 1) = true := by
  have hpos := bitlen_pos h
  have hlo := two_pow_bitlen_le h
  have hhi := lt_two_pow_bitlen v
  obtain ⟨k, hk⟩ : ∃ k, bitlen v = k + 1 := ⟨bitlen v - 1, by omega⟩
  rw [hk] at hlo hhi ⊢
  rw [Nat.pow_succ] at hhi
  rw [Nat.add_sub_cancel] at hlo ⊢
  have hdiv : v / 2 ^ k = 1 := Nat.div_eq_of_lt_le (by omega) (by omega)
  rw [Nat.testBit_eq_decide_div_mod_eq, hdiv]
  rfl

/-- A number in binary: its leading 1, then the bits below it. -/
theorem msb_bitlen {v : Nat} (h : 1 ≤ v) : msb v (bitlen v) = true :: msb (v % 2 ^ (bitlen v - 1)) (bitlen v - 1) := by
  have hpos := bitlen_pos h
  have hbit := testBit_bitlen h
  obtain ⟨k, hk⟩ : ∃ k, bitlen v = k + 1 := ⟨bitlen v - 1, by omega⟩
  rw [hk, Nat.add_sub_cancel] at hbit
  rw [hk, Nat.add_sub_cancel, msb_mod_two_pow v le_rfl, msb, hbit]

/-! ### Gamma (R189, R212) -/

theorem gammaBits_eq {m : Nat} (h : 1 ≤ m) : gammaBits m = gamma m := by
  rw [gammaBits, gamma, msb_bitlen h, List.append_assoc]
  rfl

/-- R214: Delta's codeword with L = bitlen(u) − 1. -/
theorem deltaCodec_word {u L : Nat} (h : 1 ≤ u) (hL : L = bitlen u - 1) :
    deltaCodec.word u = gammaBits (L + 1) ++ msb (u % 2 ^ L) L := by
  have hlen : L + 1 = bitlen u := by
    have := bitlen_pos h
    omega
  rw [gammaBits_eq (Nat.le_add_left 1 L), hlen, hL]
  rfl

/-! ### Omega (R216) -/

theorem exists_omegaGroups {n : Nat} (h : 1 ≤ n) : ∃ g, OmegaGroups n g := by
  induction n using Nat.strong_induction_on with
  | _ n ih =>
    obtain rfl | hn := Nat.eq_or_lt_of_le h
    · exact ⟨_, .one⟩
    · have hle := bitlen_le_self n
      have hlen : 1 ≤ bitlen n - 1 := by
        by_contra hlt
        have := bitlen_le_iff.1 (show bitlen n ≤ 1 by omega)
        omega
      obtain ⟨g, hg⟩ := ih (bitlen n - 1) (by omega) hlen
      exact ⟨_, .group n g hn hg⟩

theorem OmegaGroups.pos {n : Nat} {g : Bits} (h : OmegaGroups n g) : 1 ≤ n := by
  cases h with
  | one => exact le_rfl
  | group _ _ hn => exact hn.le

theorem OmegaGroups.omegaLoop_eq {n : Nat} {g : Bits} (h : OmegaGroups n g) {bound : Nat} (hb : n ≤ bound) (s : Bits) :
    omegaLoop bound n s = g ++ s := by
  induction h generalizing bound s with
  | one => exact omegaLoop_of_le_one s le_rfl
  | group n g hn _ ih =>
    obtain ⟨b, rfl⟩ : ∃ b, bound = b + 1 := ⟨bound - 1, by omega⟩
    have hle := bitlen_le_self n
    rw [omegaLoop_of_one_lt s hn, ih (by omega), List.append_assoc]

theorem OmegaGroups.omegaWord_eq {n : Nat} {g : Bits} (h : OmegaGroups n g) : omegaWord n = g ++ [false] :=
  h.omegaLoop_eq le_rfl [false]

/-! ### Fibonacci (R218, R219) -/

theorem fibPair_eq (i : Nat) : fibPair i = (Nat.fib (i + 1), Nat.fib (i + 2)) := by
  induction i with
  | zero => rfl
  | succ i ih => rw [fibPair, ih, ← Nat.fib_add_two]

theorem fib_eq (i : Nat) : fib i = Nat.fib (i + 1) := by rw [fib, fibPair_eq]

/-- The sum of the weights of the 1-digits (R219). -/
def digitSum (d : Bits) : Nat := ((List.range d.length).map fun j => if d.getD j false then Nat.fib (j + 2) else 0).sum

/-- No two consecutive digits are both 1. -/
def Sparse (d : Bits) : Prop := ∀ j < d.length, d.getD j false = true → d.getD (j + 1) false = false

theorem getD_snoc (d : Bits) (b : Bool) (j : Nat) :
    (d ++ [b]).getD j false = if j < d.length then d.getD j false else if j = d.length then b else false := by
  split
  next h => exact List.getD_append _ _ _ _ h
  next h =>
    rw [List.getD_append_right _ _ _ _ (Nat.le_of_not_lt h)]
    split
    next heq => simp [heq]
    next hne => rw [List.getD_eq_default _ _ (by simp; omega)]

theorem digitSum_snoc (d : Bits) (b : Bool) : digitSum (d ++ [b]) = digitSum d + if b then Nat.fib (d.length + 2) else 0 := by
  have hmap : (List.range d.length).map (fun j => if (d ++ [b]).getD j false then Nat.fib (j + 2) else 0) =
      (List.range d.length).map fun j => if d.getD j false then Nat.fib (j + 2) else 0 :=
    List.map_congr_left fun j hj => by rw [getD_snoc, if_pos (List.mem_range.1 hj)]
  simp only [digitSum, List.length_append, List.length_singleton, List.range_succ, List.map_append, List.sum_append, hmap]
  simp

/-- The last digit, 0 for no digits. -/
def lastDigit (d : Bits) : Bool := d.getD (d.length - 1) false

theorem lastDigit_snoc (d : Bits) (b : Bool) : lastDigit (d ++ [b]) = b := by simp [lastDigit]

theorem sparse_nil : Sparse [] := fun j hj => absurd hj (Nat.not_lt_zero j)

/-- One more digit keeps a string sparse unless two 1-digits meet. -/
theorem sparse_snoc (d : Bits) (b : Bool) : Sparse (d ++ [b]) ↔ Sparse d ∧ (b = true → lastDigit d = false) := by
  constructor
  · intro h
    refine ⟨fun j hj hbit => ?_, fun hb => ?_⟩
    · have := h j (by simp; omega)
      rw [getD_snoc, getD_snoc, if_pos hj] at this
      by_cases hlt : j + 1 < d.length
      · simpa [hlt] using this hbit
      · exact List.getD_eq_default _ _ (by omega)
    · subst hb
      rw [← Bool.not_eq_true]
      intro hlast
      obtain h0 | hpos := Nat.eq_zero_or_pos d.length
      · simp [lastDigit, List.length_eq_zero_iff.1 h0] at hlast
      · have := h (d.length - 1) (by simp)
        rw [getD_snoc, getD_snoc, if_pos (by omega), Nat.sub_add_cancel hpos, if_neg (by omega), if_pos rfl] at this
        exact Bool.noConfusion (this hlast)
  · rintro ⟨hd, hlast⟩ j hj hbit
    rw [getD_snoc] at hbit ⊢
    split at hbit
    next hlt =>
      split
      next => exact hd j hlt hbit
      next hge =>
        split
        next heq =>
          rw [← Bool.not_eq_true]
          intro hb
          have := hlast hb
          rw [lastDigit, ← heq, Nat.add_sub_cancel, hbit] at this
          cases this
        next => rfl
    next hge => rw [if_neg (by omega), if_neg (by omega)]

/-- The weights of a sparse string stay below the next weight but one: R219's greedy choice. -/
theorem digitSum_lt {d : Bits} (h : Sparse d) :
    digitSum d < Nat.fib (d.length + 2) ∧ (lastDigit d = false → digitSum d < Nat.fib (d.length + 1)) := by
  induction d using List.reverseRecOn with
  | nil => simp [digitSum]
  | append_singleton d b ih =>
    obtain ⟨hd, hlast⟩ := (sparse_snoc d b).1 h
    obtain ⟨hlt, hlt'⟩ := ih hd
    have hfib : Nat.fib (d.length + 1 + 2) = Nat.fib (d.length + 1) + Nat.fib (d.length + 2) := Nat.fib_add_two
    rw [digitSum_snoc, lastDigit_snoc, List.length_append, List.length_singleton, hfib,
      show d.length + 1 + 1 = d.length + 2 from rfl]
    cases b with
    | false => simp; omega
    | true =>
      have := hlt' (hlast rfl)
      simp
      omega

/-- A sparse string is the greedy digits of its sum. -/
theorem fibDigits_digitSum {d : Bits} (h : Sparse d) : fibDigits d.length (digitSum d) = d := by
  induction d using List.reverseRecOn with
  | nil => rfl
  | append_singleton d b ih =>
    obtain ⟨hd, -⟩ := (sparse_snoc d b).1 h
    obtain ⟨hlt, -⟩ := digitSum_lt hd
    rw [List.length_append, List.length_singleton, fibDigits, fib_eq, digitSum_snoc]
    cases b with
    | false => simp [Nat.not_le.2 hlt, ih hd]
    | true => simp [ih hd]

/-- The greedy digits of a number below the weight past the top one are sparse and sum to it. -/
theorem sparse_fibDigits {i m : Nat} (h : m < Nat.fib (i + 2)) : Sparse (fibDigits i m) ∧ digitSum (fibDigits i m) = m ∧
    (m < Nat.fib (i + 1) → lastDigit (fibDigits i m) = false) := by
  induction i generalizing m with
  | zero =>
    have h0 : m = 0 := by simpa using h
    exact ⟨sparse_nil, by simp [fibDigits, digitSum, h0], fun _ => rfl⟩
  | succ i ih =>
    have hfib : Nat.fib (i + 1 + 2) = Nat.fib (i + 1) + Nat.fib (i + 2) := Nat.fib_add_two
    rw [fibDigits, fib_eq, show i + 1 + 1 = i + 2 from rfl]
    split
    next hle =>
      have hrem : m - Nat.fib (i + 2) < Nat.fib (i + 1) := by omega
      have hmono : Nat.fib (i + 1) ≤ Nat.fib (i + 2) := Nat.fib_le_fib_succ
      obtain ⟨hsparse, hsum, hlast⟩ := ih (hrem.trans_le hmono)
      refine ⟨(sparse_snoc _ _).2 ⟨hsparse, fun _ => hlast hrem⟩, ?_, fun hlt => absurd hle (by omega)⟩
      rw [digitSum_snoc, hsum, length_fibDigits, if_pos rfl]
      omega
    next hlt =>
      obtain ⟨hsparse, hsum, -⟩ := ih (Nat.lt_of_not_le hlt)
      refine ⟨(sparse_snoc _ _).2 ⟨hsparse, fun hb => by cases hb⟩, ?_, fun _ => lastDigit_snoc _ _⟩
      rw [digitSum_snoc, hsum]
      rfl

theorem fibTop_le (m b : Nat) : fibTop m b ≤ b := by
  induction b with
  | zero => exact le_rfl
  | succ b ih =>
    rw [fibTop]
    split <;> omega

/-- R219: the greatest index whose weight is within m, when the bound reaches it. -/
theorem fibTop_eq {m b n : Nat} (hn : n ≤ b) (hpos : 1 ≤ n) (hlo : fib n ≤ m) (hhi : m < fib (n + 1)) : fibTop m b = n := by
  induction b with
  | zero => omega
  | succ b ih =>
    rw [fibTop]
    obtain rfl | hlt := Nat.eq_or_lt_of_le hn
    · rw [if_pos hlo]
    · have hmono : fib (n + 1) ≤ fib (b + 1) := by
        rw [fib_eq, fib_eq]
        exact Nat.fib_mono (by omega)
      rw [if_neg (by omega), ih (by omega)]

/-- R219: the top index is there for every m ≥ 1 below the weight past the bound. -/
theorem fibTop_spec {m b : Nat} (hm : 1 ≤ m) (hb : m < fib (b + 1)) :
    1 ≤ fibTop m b ∧ fib (fibTop m b) ≤ m ∧ m < fib (fibTop m b + 1) := by
  induction b with
  | zero => simp [fib_eq] at hb; omega
  | succ b ih =>
    rw [fibTop]
    split
    next hle => exact ⟨by omega, hle, hb⟩
    next hlt => exact ih (Nat.lt_of_not_le hlt)

/-- R218: f_93, the weight past the largest one used, is past every u + 1. -/
theorem lt_fib_93 {m : Nat} (h : m ≤ 2 ^ 64) : m < fib 93 := by
  have hfib : fib 93 = 19740274219868223167 := by
    rw [fib_eq]
    norm_num
  omega

theorem zeckendorf_iff {d : Bits} {m : Nat} : Zeckendorf d m ↔ d.getLast? = some true ∧ Sparse d ∧ digitSum d = m := Iff.rfl

/-- The top digit of a Zeckendorf string is 1, so its weight is the greatest within the number. -/
theorem Zeckendorf.bounds {d : Bits} {m : Nat} (h : Zeckendorf d m) :
    1 ≤ d.length ∧ fib d.length ≤ m ∧ m < fib (d.length + 1) := by
  obtain ⟨hlast, hsparse, hsum⟩ := zeckendorf_iff.1 h
  obtain ⟨hlt, -⟩ := digitSum_lt hsparse
  obtain ⟨e, rfl⟩ := List.getLast?_eq_some_iff.1 hlast
  rw [fib_eq, fib_eq, ← hsum]
  refine ⟨by simp, ?_, hlt⟩
  rw [digitSum_snoc]
  simp

/-- R218: the digits of a 64-bit value plus 1 are at most 92. -/
theorem Zeckendorf.length_le {d : Bits} {m : Nat} (h : Zeckendorf d m) (hm : m ≤ 2 ^ 64) : d.length ≤ 92 := by
  obtain ⟨-, hlo, -⟩ := h.bounds
  by_contra hlen
  have hmono : fib 93 ≤ fib d.length := by
    rw [fib_eq, fib_eq]
    exact Nat.fib_mono (by omega)
  have := lt_fib_93 hm
  omega

/-- Zeckendorf's theorem for the machine's greedy digits: no other string has the property. -/
theorem Zeckendorf.fibWord_eq {d : Bits} {u : Nat} (h : Zeckendorf d (u + 1)) (hu : u < 2 ^ 64) : fibWord u = d ++ [true] := by
  obtain ⟨hpos, hlo, hhi⟩ := h.bounds
  obtain ⟨-, hsparse, hsum⟩ := zeckendorf_iff.1 h
  rw [fibWord, fibTop_eq (h.length_le hu) hpos hlo hhi, ← hsum, fibDigits_digitSum hsparse]

theorem exists_zeckendorf {u : Nat} (hu : u < 2 ^ 64) : ∃ d, Zeckendorf d (u + 1) ∧ d.length ≤ 92 := by
  obtain ⟨hpos, hlo, hhi⟩ := fibTop_spec (b := 92) (Nat.succ_pos u) (lt_fib_93 hu)
  generalize htop : fibTop (u + 1) 92 = t at hpos hlo hhi
  have hle : t ≤ 92 := htop ▸ fibTop_le _ _
  rw [fib_eq] at hhi
  obtain ⟨hsparse, hsum, -⟩ := sparse_fibDigits hhi
  refine ⟨fibDigits t (u + 1), zeckendorf_iff.2 ⟨?_, hsparse, hsum⟩, (length_fibDigits _ _).trans_le hle⟩
  obtain ⟨i, rfl⟩ : ∃ i, t = i + 1 := ⟨t - 1, by omega⟩
  rw [fibDigits, if_pos hlo, List.getLast?_concat]

/-! ### VByte (R265) -/

/-- A bit string given by position, a byte at a time. -/
theorem map_range_eight_mul {α : Type} (f : Nat → α) (k : Nat) :
    (List.range (8 * k)).map f = (List.range k).flatMap fun j => (List.range 8).map fun i => f (8 * j + i) := by
  induction k with
  | zero => rfl
  | succ k ih =>
    rw [Nat.mul_succ, List.range_add, List.map_append, ih, List.range_succ (n := k), List.flatMap_append, List.flatMap_singleton,
      List.map_map]
    rfl

theorem testBit_vbyteByte {u k j i : Nat} (hi : i < 8) :
    (vbyteByte u k j).testBit i = if i = 7 then decide (j + 1 < k) else u.testBit (7 * j + i) := by
  have hbyte : vbyteByte u k j = 2 ^ 7 * (if j < k - 1 then 1 else 0) + u / 2 ^ (7 * j) % 2 ^ 7 := by
    unfold vbyteByte
    split <;> omega
  rw [hbyte, Nat.testBit_two_pow_mul_add _ (Nat.mod_lt _ (by decide))]
  by_cases h7 : i = 7
  · subst h7
    by_cases hj : j < k - 1
    · simp [hj, show j + 1 < k by omega]
    · simp [hj, show ¬ j + 1 < k by omega]
  · rw [if_pos (by omega), if_neg h7, Nat.testBit_mod_two_pow, Nat.testBit_div_two_pow]
    simp [show i < 7 by omega, Nat.add_comm]

theorem vbyteBits_eq (v k : Nat) : vbyteBits v k = (List.range k).flatMap fun j => lsb (vbyteByte v k j) 8 := by
  rw [vbyteBits, map_range_eight_mul]
  refine List.flatMap_congr fun j _ => List.map_congr_left fun i hi => ?_
  have hlt : i < 8 := List.mem_range.1 hi
  rw [testBit_vbyteByte hlt, show (8 * j + i) % 8 = i by omega, show (8 * j + i) / 8 = j by omega]

theorem length_vbyteBits (v k : Nat) : (vbyteBits v k).length = 8 * k := by simp [vbyteBits]

theorem vbyteCount_eq (u : Nat) : vbyteCount u = max 1 ((bitlen u + 6) / 7) := rfl

theorem vbyteWord_eq (u : Nat) : vbyteWord u = vbyteBits u (vbyteCount u) := (vbyteBits_eq u _).symm

end Sys2Proof.Machine
end

