-- ==== Sys2Proof/Proofs/SinkWrites.lean ====
section
/-! PROOFS. What the commands that write the sink append, their errors in order, and the bytes they leave alone (41_bitstream.md R142,
42_codec_common.md R180 to R187, 45_succinct.md R321, 20_memory.md R87). -/
namespace Sys2Proof.Machine

/-! ### One encode (R180, R185) -/

theorem encodeWith_invalid {codec : Codec} {sgn : Bool} {s : State} (hdom : codec.dom (encodeOperand sgn s) = false) :
    encodeWith true codec sgn s = s.endedWith .invalidInput := by
  simp [encodeWith, hdom, raise_nonfatal .invalidInput s rfl, State.complete]

theorem encodeWith_overflow {codec : Codec} {sgn : Bool} {s : State} (hc : codec.Measured)
    (hdom : codec.dom (encodeOperand sgn s) = true) (hroom : s.sinkRoom < (codec.word (encodeOperand sgn s)).length) :
    encodeWith true codec sgn s = s.endedWith .bufferOverflow := by
  rw [hc] at hroom
  simp [encodeWith, hdom, hroom, raise_nonfatal .bufferOverflow s rfl, State.complete]

theorem encodeWith_of_room {codec : Codec} {sgn : Bool} {s : State} (hc : codec.Measured)
    (hdom : codec.dom (encodeOperand sgn s) = true) (hroom : (codec.word (encodeOperand sgn s)).length ≤ s.sinkRoom) :
    encodeWith true codec sgn s = putBits .encode (codec.word (encodeOperand sgn s)) s := by
  rw [hc] at hroom
  simp [encodeWith, hdom, Nat.not_lt.2 hroom]

/-- An encode whose operand is in the codec's domain appends its codeword. -/
theorem encodeWith_appends {codec : Codec} {sgn : Bool} {s : State} {bits : Bits} (hm : s.mem.wf) (hs : StreamInv s)
    (hc : codec.Measured) (hdom : codec.dom (encodeOperand sgn s) = true) (hword : codec.word (encodeOperand sgn s) = bits)
    (hroom : bits.length ≤ s.sinkRoom) (ha : SinkAdmits s bits.length) : Appended bits s (encodeWith true codec sgn s) := by
  subst hword
  rw [encodeWith_of_room hc hdom hroom]
  exact putBits_appends .encode _ s hm hs hroom ha

/-- Settles O34: the three codewords, Omega's for every way to split a value into groups. -/
theorem eliasEncodesAppend : Obligations.EliasEncodesAppend := by
  intro s sgn u L hm hs hu hpos hL
  have hop : encodeOperand sgn s = u := hu.symm
  have hdom : positive (encodeOperand sgn s) = true := decide_eq_true (hop ▸ hpos)
  refine ⟨fun hroom ha => ?_, fun hroom ha => ?_, exists_omegaGroups hpos, fun g hg hroom ha => ?_⟩
  · exact ⟨_, rfl, encodeWith_appends hm hs gammaCodec_measured hdom (hop ▸ (gammaBits_eq hpos).symm) hroom ha⟩
  · exact ⟨_, rfl, encodeWith_appends hm hs deltaCodec_measured hdom (by rw [hop, deltaCodec_word hpos hL]) hroom ha⟩
  · refine ⟨_, rfl, encodeWith_appends hm hs omegaCodec_measured hdom ?_ (by simpa using hroom) (by simpa using ha)⟩
    rw [hop]
    exact hg.omegaWord_eq

theorem encodeOperand_lt (sgn : Bool) (s : State) : encodeOperand sgn s < 2 ^ 64 := BitVec.isLt _

/-- Settles O35: the greedy digits are a Zeckendorf string, and the only one. -/
theorem fibonacciEncodeAppends : Obligations.FibonacciEncodeAppends := by
  intro s sgn u hm hs hu
  have hop : encodeOperand sgn s = u := hu.symm
  have hlt : u < 2 ^ 64 := hop ▸ encodeOperand_lt sgn s
  refine ⟨exists_zeckendorf hlt, fun d hd hroom ha => ?_⟩
  refine ⟨_, rfl, encodeWith_appends hm hs fibCodec_measured rfl ?_ (by simpa using hroom) (by simpa using ha)⟩
  rw [hop]
  exact hd.fibWord_eq hlt

theorem shiftParam_of_le {k : Nat} (h : k ≤ 63) : shiftParam k = true := decide_eq_true h

theorem modulusParam_of_ne {m : Nat} (h : m ≠ 0) : modulusParam m = true := decide_eq_true h

theorem widthParam_of_bounds {n : Nat} (h1 : 1 ≤ n) (h64 : n ≤ 64) : widthParam n = true := decide_eq_true ⟨h1, h64⟩

/-- Settles O36: each codeword is the codec's own, a shift being a division by a power of 2. -/
theorem unaryRiceGolombEncodesAppend : Obligations.UnaryRiceGolombEncodesAppend := by
  intro s sgn u hm hs hu
  have hop : encodeOperand sgn s = u := hu.symm
  refine ⟨fun hroom ha => ?_, fun k hk bits hbits hroom ha => ?_, fun m b c r bits hmod hm0 hb hc hr hbits hroom ha => ?_⟩
  · exact ⟨_, rfl, encodeWith_appends hm hs unaryCodec_measured rfl (by rw [hop]; rfl) hroom ha⟩
  · refine ⟨_, rfl, ?_⟩
    rw [shiftParam_of_le hk]
    refine encodeWith_appends hm hs (riceCodec_measured k) rfl ?_ hroom ha
    rw [hop, hbits, Nat.shiftRight_eq_div_pow]
    rfl
  · refine ⟨_, rfl, ?_⟩
    subst hmod hb hc hr
    rw [modulusParam_of_ne hm0]
    refine encodeWith_appends hm hs (golombCodec_measured _) rfl ?_ hroom ha
    rw [hop, hbits]
    rfl

/-- Settles O37: VByte's bits by position are its bytes in turn, and Exp-Golomb's quotient is a γ. -/
theorem vByteExpGolombFixedEncodesAppend : Obligations.VByteExpGolombFixedEncodesAppend := by
  intro s sgn u hm hs hu
  have hop : encodeOperand sgn s = u := hu.symm
  refine ⟨fun bits hbits hroom ha => ?_, fun k hk bits hbits hroom ha => ?_, fun n h1 h64 hlt hroom ha => ?_⟩
  · refine ⟨_, rfl, encodeWith_appends hm hs vbyteCodec_measured rfl ?_ hroom ha⟩
    rw [hop, hbits, ← vbyteCount_eq]
    exact vbyteWord_eq u
  · refine ⟨_, rfl, ?_⟩
    rw [shiftParam_of_le hk]
    refine encodeWith_appends hm hs (expGolombCodec_measured k) rfl ?_ hroom ha
    rw [hop, hbits, Nat.shiftRight_eq_div_pow, gammaBits_eq (Nat.succ_pos _)]
    rfl
  · refine ⟨_, rfl, ?_⟩
    rw [widthParam_of_bounds h1 h64]
    refine encodeWith_appends hm hs (fixedCodec_measured n) ?_ (by rw [hop]; rfl) (by simpa using hroom) (by simpa using ha)
    exact decide_eq_true (hop ▸ hlt)

/-! ### The errors of every encode (R180, R184, R187) -/

/-- Every encode is the template over the row of `encoderOf`. -/
theorem exec_encoder {i : Instr} {s : State} {ok sgn : Bool} {codec : Codec} (h : encoderOf i s = some (ok, codec, sgn)) :
    exec i s = .next (encodeWith ok codec sgn s) ∧ codec.Measured := by
  cases i with
  | encUnary => cases h; exact ⟨rfl, unaryCodec_measured⟩
  | encGamma => cases h; exact ⟨rfl, gammaCodec_measured⟩
  | encDelta => cases h; exact ⟨rfl, deltaCodec_measured⟩
  | encOmega => cases h; exact ⟨rfl, omegaCodec_measured⟩
  | encFib => cases h; exact ⟨rfl, fibCodec_measured⟩
  | encRice k => cases h; exact ⟨rfl, riceCodec_measured k⟩
  | encVByte => cases h; exact ⟨rfl, vbyteCodec_measured⟩
  | encExpG k => cases h; exact ⟨rfl, expGolombCodec_measured k⟩
  | encFixed n => cases h; exact ⟨rfl, fixedCodec_measured n⟩
  | encGolomb =>
    cases h
    have hne : modulusParam s.arg1.toNat = decide (s.arg1 ≠ 0) := by
      unfold modulusParam
      congr 1
      simp [← BitVec.toNat_inj]
    exact ⟨by rw [exec, execEncGolomb, hne], golombCodec_measured _⟩
  | _ => cases h

/-- A sink write that meets a byte that is not admitted ends with BUS_ERROR and changes nothing but bytes it may store (R184, R366). -/
theorem putBits_rejected {w : SinkWriter} {bits : Bits} {s : State} (hm : s.mem.wf) (ha : ¬ SinkAdmits s bits.length) :
    ∃ m d, putBits w bits s = { s.faultedWith .busError with mem := m, draws := d } ∧
      ∀ a, s.storesByte w bits.length a = false → m.read a = s.mem.read a := by
  refine ⟨s.scrambleSink w bits.length, s.draws + 1, ?_, fun a hno => ?_⟩
  · rw [putBits_busError w bits s ha, sinkBusError, raise_fatal _ _ rfl]
  · rw [s.scrambleSink_read w _ a hm, if_neg (by simp [hno])]

/-- A sink write that ends with OK appended its bits, in admitted bytes. -/
theorem putBits_of_ok {w : SinkWriter} {bits : Bits} {s : State} (hm : s.mem.wf) (hs : StreamInv s) (hroom : bits.length ≤ s.sinkRoom)
    (h : (putBits w bits s).err = .ok) : SinkAdmits s bits.length ∧ Appended bits s (putBits w bits s) := by
  by_cases ha : SinkAdmits s bits.length
  · exact ⟨ha, putBits_appends w bits s hm hs hroom ha⟩
  · obtain ⟨m, d, hput, -⟩ := putBits_rejected (w := w) hm ha
    rw [hput] at h
    cases h

/-- R87: the bytes a sink write may store. -/
theorem State.storesByte_iff (s : State) (w : SinkWriter) (len a : Nat) : s.storesByte w len a = true ↔
    (0 < len ∧ s.sinkBase.toNat + s.sinkCursor.toNat / 8 ≤ a ∧ a < s.sinkBase.toNat + ceilDiv (s.sinkCursor.toNat + len) 8) ∧
      (w = .encode ∨ s.plat.admits a = true) := by
  simp [State.storesByte]

theorem State.storesByte_outside {s : State} (w : SinkWriter) {len a : Nat}
    (h : a < s.sinkBase.toNat + s.sinkCursor.toNat / 8 ∨ s.sinkBase.toNat + ceilDiv (s.sinkCursor.toNat + len) 8 ≤ a) :
    s.storesByte w len a = false := by
  rw [← Bool.not_eq_true, s.storesByte_iff]
  omega

/-- Settles O38: the template's checks in order, and the sink write that meets a byte that is not admitted. -/
theorem encodeErrorsInOrder : Obligations.EncodeErrorsInOrder := by
  intro i s ok sgn codec hrow
  obtain ⟨hexec, hc⟩ := exec_encoder hrow
  rw [hexec]
  refine ⟨fun hok => ?_, fun hok hdom => ?_, fun hok hdom hroom => ?_, fun hok hdom hroom ha hm => ?_⟩
  all_goals subst hok
  · rfl
  · exact congrArg _ (encodeWith_invalid hdom)
  · exact congrArg _ (encodeWith_overflow hc hdom hroom)
  · obtain ⟨m, d, hput, hother⟩ := putBits_rejected (w := .encode) hm ha
    refine ⟨m, d, ?_, fun a hout => hother a (State.storesByte_outside _ hout)⟩
    exact congrArg _ ((encodeWith_of_room hc hdom hroom).trans hput)

/-! ### WRITE_BITS (R142) -/

/-- The low bits of a word as `lsb` takes them. -/
theorem lsb_word (w : Word) (n : Nat) : lsb (w.toNat % 2 ^ n) n = (List.range n).map fun j => w.getLsbD j := lsb_mod_two_pow _ n

theorem execWriteBits_of_room {s : State} (hn : s.arg1.toNat ≤ 64) (hroom : s.arg1.toNat ≤ s.sinkRoom) :
    execWriteBits s = .next (putBits .stream ((List.range s.arg1.toNat).map fun j => s.arg0.getLsbD j) s) := by
  rw [execWriteBits, if_neg (by omega), if_neg (by omega), lsb_word]

/-- Settles O27: R142's two checks, then the sink write. -/
theorem writeBitsAppends : Obligations.WriteBitsAppends := by
  intro s hm hs
  obtain ⟨hcur, -⟩ := id hs
  refine ⟨fun hn hroom ha => ?_, fun hn => ?_, fun hn hfull => ?_, fun hn hroom ha => ?_⟩
  · have hle := State.le_sinkRoom hroom
    exact ⟨_, execWriteBits_of_room hn hle, putBits_appends _ _ _ hm hs (by simpa using hle) (by simpa using ha)⟩
  · rw [exec, execWriteBits, if_pos hn, raise_nonfatal _ _ rfl, State.complete]
  · rw [exec, execWriteBits, if_neg (by omega), if_pos ((State.sinkRoom_lt_iff hcur).2 hfull), raise_nonfatal _ _ rfl,
      State.complete]
  · obtain ⟨m, d, hput, hother⟩ := putBits_rejected (w := .stream)
      (bits := (List.range s.arg1.toNat).map fun j => s.arg0.getLsbD j) hm (by simpa using ha)
    refine ⟨m, d, (execWriteBits_of_room hn (State.le_sinkRoom hroom)).trans (congrArg _ hput), fun a hout => hother a ?_⟩
    simp only [List.length_map, List.length_range]
    rw [← Bool.not_eq_true, s.storesByte_iff]
    rintro ⟨⟨-, hlo, hhi⟩, hadm⟩
    obtain hout | hout | hout := hout
    · omega
    · omega
    · simp [hout] at hadm

/-! ### SV_ENCODE (R320, R321) -/

theorem length_vbyteWord_eq (n : Nat) : (vbyteWord n).length = 8 * max 1 ((bitlen n + 6) / 7) := length_vbyteWord n

/-- The wire form in the spec's own terms (R320). -/
theorem wire_eq (c : Nat) (s : State) : wire c s =
    vbyteBits s.svLen.toNat (max 1 ((bitlen s.svLen.toNat + 6) / 7)) ++ s.svBits
      ++ zeros ((8 - (c + 8 * max 1 ((bitlen s.svLen.toNat + 6) / 7) + s.svLen.toNat) % 8) % 8)
      ++ (s.sb.map fun x => lsb x.toNat 32).flatten ++ (s.bk.map fun x => lsb x.toNat 16).flatten := by
  rw [wire, length_vbyteWord_eq, vbyteWord_eq, vbyteCount_eq, List.flatMap_def, List.flatMap_def]
  rfl

theorem execSvEncode_of_room {s : State} (hidx : s.index = .indexed)
    (hroom : (wire s.sinkCursor.toNat s).length ≤ s.sinkRoom) :
    execSvEncode s = .next (putBits .encode (wire s.sinkCursor.toNat s) s) := by
  rw [execSvEncode, if_neg (by simp [hidx]), if_neg (Nat.not_lt.2 hroom)]

/-- Settles O57: the index check, the length check, then the sink write. -/
theorem vectorEncodeAppendsWire : Obligations.VectorEncodeAppendsWire := by
  intro s bits hm hs hv hidx hbits
  rw [← wire_eq s.sinkCursor.toNat s] at hbits
  subst hbits
  refine ⟨fun hroom ha => ?_, fun hfull => ?_, fun hroom ha => ?_⟩
  · exact ⟨_, execSvEncode_of_room hidx hroom, putBits_appends _ _ _ hm hs hroom ha⟩
  · rw [exec, execSvEncode, if_neg (by simp [hidx]), if_pos hfull, raise_nonfatal _ _ rfl, State.complete]
  · obtain ⟨m, d, hput, hother⟩ := putBits_rejected (w := .encode) hm ha
    exact ⟨m, d, (execSvEncode_of_room hidx hroom).trans (congrArg _ hput), fun a hout =>
      hother a (State.storesByte_outside _ hout)⟩

/-! ### What a command leaves of memory (R87, R184, R366) -/

theorem ceilDiv_eight_mono {a b : Nat} (h : a ≤ b) : ceilDiv a 8 ≤ ceilDiv b 8 := by
  rw [ceilDiv_eight, ceilDiv_eight]
  omega

theorem State.stores_range {s : State} {i : Instr} {a : Nat} (h : s.stores i a = true) :
    s.sinkBase.toNat + s.sinkCursor.toNat / 8 ≤ a ∧ a < s.sinkBase.toNat + ceilDiv (s.sinkCursor.toNat + sinkLength i s) 8 := by
  rw [State.stores, s.storesByte_iff] at h
  obtain ⟨⟨-, hlo, hhi⟩, -⟩ := h
  exact ⟨hlo, hhi⟩

/-- The byte of every bit of a sink write that appends is admitted, so a byte it does not store is outside its range. -/
theorem SinkAdmits.outside_of_not_storesByte {s : State} {w : SinkWriter} {len a : Nat} (ha : SinkAdmits s len) (hpos : 0 < len)
    (h : s.storesByte w len a = false) :
    a < s.sinkBase.toNat + s.sinkCursor.toNat / 8 ∨ s.sinkBase.toNat + ceilDiv (s.sinkCursor.toNat + len) 8 ≤ a := by
  rw [← Bool.not_eq_true, s.storesByte_iff] at h
  by_contra hin
  rw [ceilDiv_eight] at h hin
  refine h ⟨by omega, .inr ?_⟩
  obtain ⟨j, hj, hbyte⟩ : ∃ j < len, s.sinkBase.toNat + (s.sinkCursor.toNat + j) / 8 = a := by
    obtain heq | hlt := Nat.eq_or_lt_of_le (show s.sinkBase.toNat + s.sinkCursor.toNat / 8 ≤ a by omega)
    · exact ⟨0, hpos, heq⟩
    · exact ⟨8 * (a - s.sinkBase.toNat) - s.sinkCursor.toNat, by omega, by omega⟩
  exact hbyte ▸ ha j hj

/-- What a sink write leaves of memory: a byte it may not store is as it was, and the cursor says how far a write that succeeds went. -/
theorem putBits_memory {w : SinkWriter} {bits : Bits} {s : State} (hm : s.mem.wf) (hs : StreamInv s) (hroom : bits.length ≤ s.sinkRoom) :
    (∀ a, s.storesByte w bits.length a = false → (putBits w bits s).mem.read a = s.mem.read a) ∧
    ((putBits w bits s).err = .busError ∨ (putBits w bits s).sinkCursor.toNat = s.sinkCursor.toNat + bits.length) := by
  by_cases ha : SinkAdmits s bits.length
  · have happ := putBits_appends w bits s hm hs hroom ha
    refine ⟨fun a hno => ?_, .inr happ.cursor⟩
    obtain hnil | hpos := Nat.eq_zero_or_pos bits.length
    · rw [(happ.empty (List.length_eq_zero_iff.1 hnil)).2]
    · exact happ.outside a (ha.outside_of_not_storesByte hpos hno)
  · obtain ⟨m, d, hput, hother⟩ := putBits_rejected (w := w) hm ha
    rw [hput]
    exact ⟨hother, .inl rfl⟩

/-- A command that does not write the sink leaves memory alone; so does one that raises an error. -/
theorem Effect.mem_eq {i : Instr} {s t : State} (h : Effect i s t) :
    t.mem = s.mem ∧ (writesSink i = true → t.err ≠ .ok) ∨
    ∃ bits, bits.length = sinkLength i s ∧ t = putBits (sinkWriter i) bits s := by
  cases h with
  | raised e he => exact .inl ⟨raise_mem e s, fun _ => by rwa [raise_err]⟩
  | put bits hw hlen => exact .inr ⟨bits, hlen, rfl⟩
  | returned _ hw | read _ _ hw | moved _ hw | rewound hw | sinkOpened hw | sourceOpened hw | filled _ _ _ hw | cellWritten _ hw
  | built hw | selected _ _ _ hw | vectorRead _ _ hw => exact .inl ⟨rfl, fun h => by simp [hw] at h⟩

/-- Settles O19: only a sink write changes memory, and `State.stores` is what it may store. -/
theorem onlySinkBytesChange : Obligations.OnlySinkBytesChange := by
  intro i s t hm hs hexec
  obtain ⟨hcur, -⟩ := id hs
  have hlen := sinkLength_le i s
  have hcap : s.sinkCursor.toNat + sinkLength i s ≤ s.sinkCap.toNat := by
    unfold State.sinkRoom at hlen
    omega
  obtain ⟨hmem, hnok⟩ | ⟨bits, hbits, rfl⟩ := (effect_of_exec hexec).mem_eq
  · exact ⟨fun a _ => by rw [hmem], fun _ a _ => by rw [hmem], fun a _ => by rw [hmem], fun a => State.stores_range,
      fun hw hok => absurd hok (hnok hw)⟩
  · obtain ⟨hkeep, hend⟩ := putBits_memory (w := sinkWriter i) hm hs (hbits ▸ hlen)
    rw [hbits] at hkeep hend
    refine ⟨fun a hout => hkeep a (State.storesByte_outside _ ?_), fun hbus a hout => hkeep a (State.storesByte_outside _ ?_),
      hkeep, fun a => State.stores_range, fun _ hok => ?_⟩
    · have := ceilDiv_eight_mono hcap
      omega
    · rwa [← hend.resolve_left hbus]
    · exact hend.resolve_left (by rw [hok]; decide)

end Sys2Proof.Machine
end

