-- ==== Sys2Proof/Proofs/CodewordLimits.lean ====
section
/-! PROOFS. The greatest codeword length of each codec (42_codec_common.md R191), and zigzag (R186). -/
namespace Sys2Proof.Machine

/-! ### Zigzag (R22, R186) -/

theorem toNat_zz (v : Word) : (zz v).toNat = if v.toNat < 2 ^ 63 then 2 * v.toNat else 2 * (2 ^ 64 - v.toNat) - 1 := by
  have hlt := v.isLt
  have hmsb : v.msb = decide (2 ^ 63 ≤ v.toNat) := BitVec.msb_eq_decide v
  unfold zz
  by_cases h : v.toNat < 2 ^ 63
  · have hxor : v <<< 1 ^^^ (0 : BitVec 64) = v <<< 1 := BitVec.xor_zero
    rw [hmsb, decide_eq_false (by omega), if_pos h, if_neg Bool.false_ne_true, hxor, BitVec.toNat_shiftLeft, Nat.shiftLeft_eq]
    omega
  · rw [hmsb, decide_eq_true (by omega), if_neg h, if_pos rfl, BitVec.xor_allOnes, BitVec.toNat_not, BitVec.toNat_shiftLeft,
      Nat.shiftLeft_eq]
    omega

theorem toNat_unzz (u : Word) : (unzz u).toNat = if u.toNat % 2 = 0 then u.toNat / 2 else 2 ^ 64 - 1 - u.toNat / 2 := by
  have hlt := u.isLt
  have hbit : u.getLsbD 0 = decide (u.toNat % 2 = 1) := Nat.testBit_zero _
  unfold unzz
  by_cases h : u.toNat % 2 = 0
  · rw [hbit, decide_eq_false (by omega), if_pos h]
    simp [Nat.shiftRight_eq_div_pow]
  · rw [hbit, decide_eq_true (by omega), if_neg h, if_pos rfl, BitVec.xor_allOnes, BitVec.toNat_not, BitVec.toNat_ushiftRight,
      Nat.shiftRight_eq_div_pow]

theorem unzz_zz (v : Word) : unzz (zz v) = v := by
  have hlt := v.isLt
  apply BitVec.eq_of_toNat_eq
  rw [toNat_unzz, toNat_zz]
  split <;> split <;> omega

theorem zz_unzz (u : Word) : zz (unzz u) = u := by
  have hlt := u.isLt
  apply BitVec.eq_of_toNat_eq
  rw [toNat_zz, toNat_unzz]
  split <;> split <;> omega

/-- Settles O51: zigzag and its inverse as arithmetic on the numbers the words carry. -/
theorem zigzagIsBijection : Obligations.ZigzagIsBijection := by
  intro v
  refine ⟨?_, unzz_zz v, zz_unzz v⟩
  have hlt := v.isLt
  rw [toNat_zz, BitVec.toInt_eq_toNat_cond]
  split <;> split <;> split <;> omega

/-! ### The greatest length of each codec (R191) -/

theorem bitlen_le_64 {u : Nat} (h : u < 2 ^ 64) : bitlen u ≤ 64 := bitlen_le_iff.2 h

theorem bitlen_eq_64 {u : Nat} (h : u < 2 ^ 64) (hu : 2 ^ 63 ≤ u) : bitlen u = 64 := bitlen_eq hu h

theorem length_gammaCodec_word (u : Nat) : (gammaCodec.word u).length = 2 * bitlen u - 1 := length_gamma u

theorem length_deltaCodec_word_top {u : Nat} (h : u < 2 ^ 64) (hu : 2 ^ 63 ≤ u) : (deltaCodec.word u).length = 76 := by
  rw [length_deltaCodec_word, bitlen_eq_64 h hu, gammaLen, show bitlen 64 = 7 from bitlen_eq (k := 6) (by decide) (by decide)]

/-- The groups of a value of 64 bits: 2, 5 and 63 before it. -/
theorem length_omegaCodec_word_top {u : Nat} (h : u < 2 ^ 64) (hu : 2 ^ 63 ≤ u) : (omegaCodec.word u).length = 76 := by
  have h2 : OmegaGroups 2 _ := .group 2 [] (by decide) .one
  have h5 : OmegaGroups 5 _ := .group 5 _ (by decide) h2
  have h63 : OmegaGroups 63 _ := .group 63 _ (by decide) h5
  have hgroups : OmegaGroups u _ := .group u _ (by omega) (by rw [bitlen_eq_64 h hu]; exact h63)
  rw [show omegaCodec.word u = omegaWord u from rfl, hgroups.omegaWord_eq]
  simp only [List.length_append, length_msb, bitlen_eq_64 h hu, List.length_singleton]
  rfl

theorem length_fibCodec_word (u : Nat) : (fibCodec.word u).length = fibTop (u + 1) 92 + 1 := fibCodec_measured u

theorem fibTop_two_pow_64 : fibTop (2 ^ 64) 92 = 92 := by
  refine fibTop_eq le_rfl (by decide) ?_ (lt_fib_93 le_rfl)
  rw [fib_eq]
  norm_num

theorem length_vbyteCodec_word (u : Nat) : (vbyteCodec.word u).length = 8 * max 1 ((bitlen u + 6) / 7) := length_vbyteWord_eq u

theorem length_riceCodec_word (k u : Nat) : ((riceCodec k).word u).length = u / 2 ^ k + 1 + k := riceCodec_measured k u

/-- R267: the value above its k low bits, plus 1, has at most 65 − k bits, and that many when those are all ones. -/
theorem length_expGolombCodec_word {k u : Nat} (hk : k ≤ 63) (hu : u < 2 ^ 64) :
    ((expGolombCodec k).word u).length ≤ 129 - k ∧
      (2 ^ 64 - 2 ^ k ≤ u → ((expGolombCodec k).word u).length = 129 - k) := by
  have hlen : ((expGolombCodec k).word u).length = 2 * bitlen (u / 2 ^ k + 1) - 1 + k := expGolombCodec_measured k u
  have hpow : 2 ^ (64 - k) * 2 ^ k = 2 ^ 64 := by rw [← pow_add, Nat.sub_add_cancel (by omega)]
  have hpos := Nat.two_pow_pos k
  have htop : u / 2 ^ k < 2 ^ (64 - k) := Nat.div_lt_of_lt_mul (by rw [Nat.mul_comm, hpow]; exact hu)
  have hsucc : 2 ^ (64 - k + 1) = 2 * 2 ^ (64 - k) := Nat.pow_succ'
  have hpos' := Nat.two_pow_pos (64 - k)
  rw [hlen]
  refine ⟨?_, fun hbig => ?_⟩
  · have hle : bitlen (u / 2 ^ k + 1) ≤ 64 - k + 1 := bitlen_le_iff.2 (by omega)
    omega
  · have hlow : 2 ^ (64 - k) - 1 ≤ u / 2 ^ k := by
      rw [Nat.le_div_iff_mul_le hpos, Nat.sub_mul, hpow, Nat.one_mul]
      exact hbig
    rw [bitlen_eq (k := 64 - k) (by omega) (by omega)]
    omega

/-- R262: with M ≥ 2 the remainder M − 1 is never in the short form. -/
theorem tbCut_le_pred {m : Nat} (h : 2 ≤ m) : tbCut m ≤ m - 1 := by
  have hlow := two_pow_bitlen_le (v := m - 1) (by omega)
  have hpos := bitlen_pos (v := m - 1) (by omega)
  have hpow : 2 ^ bitlen (m - 1) = 2 * 2 ^ (bitlen (m - 1) - 1) := by
    rw [← Nat.pow_succ']
    congr 1
    omega
  unfold tbCut tbWidth
  omega

/-- R262: there is a short form only when the long one has a bit. -/
theorem tbWidth_pos_of_lt_tbCut {m r : Nat} (hm : 1 ≤ m) (h : r < tbCut m) : 1 ≤ tbWidth m := by
  by_contra h0
  have hz : tbWidth m = 0 := by omega
  rw [tbCut, hz] at h
  omega

theorem length_golombCodec_word (m u : Nat) : ((golombCodec m).word u).length = u / m + 1 + tbLen m (u % m) :=
  golombCodec_measured m u

/-- R191: Golomb's greatest length. A shorter quotient costs at least the bit a longer remainder could give back. -/
theorem length_golombCodec_word_le {m u top : Nat} (hm : 1 ≤ m) (hu : u < 2 ^ 64)
    (htop : top = (2 ^ 64 - 1) / m + tbWidth m + if tbCut m ≤ (2 ^ 64 - 1) % m then 1 else 0) :
    ((golombCodec m).word u).length ≤ top := by
  rw [length_golombCodec_word, tbLen, htop]
  have hq : u / m ≤ (2 ^ 64 - 1) / m := Nat.div_le_div_right (by omega)
  obtain hlt | heq := Nat.lt_or_eq_of_le hq
  · split <;> omega
  · have hu' := Nat.div_add_mod u m
    have htop' := Nat.div_add_mod (2 ^ 64 - 1) m
    rw [heq] at hu'
    have hr : u % m ≤ (2 ^ 64 - 1) % m := by omega
    split
    next hshort =>
      have := tbWidth_pos_of_lt_tbCut hm hshort
      omega
    next hlong =>
      rw [if_pos (by omega)]
      omega

/-- R191: the values that reach Golomb's greatest length. -/
theorem length_golombCodec_word_eq {m u top : Nat} (hm : 1 ≤ m) (hm' : m < 2 ^ 64)
    (htop : top = (2 ^ 64 - 1) / m + tbWidth m + if tbCut m ≤ (2 ^ 64 - 1) % m then 1 else 0)
    (h : u = 2 ^ 64 - 1 ∨ (2 ^ 64 - 1) % m < tbCut m ∧ u = (2 ^ 64 - 1) / m * m - 1) :
    ((golombCodec m).word u).length = top := by
  rw [length_golombCodec_word, tbLen, htop]
  obtain rfl | ⟨hr, rfl⟩ := h
  · split
    next hshort =>
      have := tbWidth_pos_of_lt_tbCut hm hshort
      rw [if_neg (by omega)]
      omega
    next hlong => rw [if_pos (by omega)]; omega
  · have hm2 : 2 ≤ m := by
      by_contra hlt
      obtain rfl : m = 1 := by omega
      have hcut : tbCut 1 = 0 := tbCut_two_pow 0
      omega
    have hcut := tbCut_le_pred hm2
    have hq : 1 ≤ (2 ^ 64 - 1) / m := Nat.div_pos (by omega) (by omega)
    generalize (2 ^ 64 - 1) / m = q at hq
    obtain ⟨p, rfl⟩ : ∃ p, q = p + 1 := ⟨q - 1, by omega⟩
    have hval : (p + 1) * m - 1 = m * p + (m - 1) := by
      rw [Nat.add_mul, Nat.one_mul, Nat.mul_comm p m]
      omega
    have hdiv : ((p + 1) * m - 1) / m = p := by
      rw [hval, Nat.mul_add_div (by omega), Nat.div_eq_of_lt (by omega), Nat.add_zero]
    have hmod : ((p + 1) * m - 1) % m = m - 1 := by rw [hval, Nat.mul_add_mod, Nat.mod_eq_of_lt (by omega)]
    rw [hdiv, hmod, if_neg (by omega), if_neg (by omega)]
    omega

/-- R210: the codeword of 2^64−1 is longer than any sink. -/
theorem execEncUnary_top {s : State} (h : s.arg0 = BitVec.allOnes 64) :
    execEncUnary false s = .next (s.endedWith .bufferOverflow) := by
  have hop : encodeOperand false s = 2 ^ 64 - 1 := by
    rw [encodeOperand, h]
    rfl
  have hlen : (unaryCodec.word (2 ^ 64 - 1)).length = 2 ^ 64 := unaryCodec_measured _
  have hroom : s.sinkRoom < 2 ^ 64 := (Nat.sub_le _ _).trans_lt s.sinkCap.isLt
  exact congrArg _ (encodeWith_overflow unaryCodec_measured rfl (by rwa [hop, hlen]))

/-- Settles O39: each length is a function of the bit length, of a quotient or of the top digit, and each of those has its greatest value. -/
theorem codewordLengths : Obligations.CodewordLengths := by
  refine ⟨fun i s ok sgn codec hrow _ u _ _ => (exec_encoder hrow).2 u, fun u hu => ?_, fun s h => execEncUnary_top h⟩
  have htop : u ≤ 2 ^ 64 - 1 := by omega
  have hfib := fibTop_le (u + 1) 92
  have hbl := bitlen_le_64 hu
  refine ⟨?_, ?_, fun hpos => ⟨?_, ?_, ?_⟩, fun hbig => ⟨?_, length_deltaCodec_word_top hu hbig, length_omegaCodec_word_top hu hbig⟩,
    ?_, ?_, ?_, fun hbig => ?_, fun k hk => ⟨?_, ?_⟩, fun k hk => length_expGolombCodec_word hk hu, fun n => fixedCodec_measured n u,
    fun m q r b c top hm hm' hq hr hb hc htop => ?_⟩
  · rw [unaryCodec_measured]
    exact hu
  · rintro rfl
    rw [unaryCodec_measured]
    rfl
  · rw [length_gammaCodec_word]
    omega
  · exact (length_deltaCodec_word_mono htop).trans (length_deltaCodec_word_top (by decide) (by decide)).le
  · exact (length_omegaCodec_word_mono htop).trans (length_omegaCodec_word_top (by decide) (by decide)).le
  · rw [length_gammaCodec_word, bitlen_eq_64 hu hbig]
  · rw [length_fibCodec_word]
    omega
  · rintro rfl
    rw [length_fibCodec_word]
    exact congrArg (· + 1) fibTop_two_pow_64
  · rw [length_vbyteCodec_word]
    omega
  · rw [length_vbyteCodec_word, bitlen_eq_64 hu hbig]
    rfl
  · rw [length_riceCodec_word, Nat.shiftRight_eq_div_pow]
    have := Nat.div_le_div_right (c := 2 ^ k) htop
    omega
  · rintro rfl
    rw [length_riceCodec_word, Nat.shiftRight_eq_div_pow]
  · subst hq hr hb hc
    exact ⟨length_golombCodec_word_le hm hu htop, length_golombCodec_word_eq hm hm' htop⟩

end Sys2Proof.Machine
end

