-- ==== Sys2Proof/Proofs/ParserReads.lean ====
section
/-! PROOFS. What a parser does on a bit string, said once for the three ways it can go: the source holds the whole string, it ends inside it, or
a byte inside it is not admitted (20_memory.md R90, 42_codec_common.md R182, R366). -/
namespace Sys2Proof.Machine

/-! ### Parsers on a bit string -/

/-- The parser stops wherever the source does before the end of `bits`: with the code `GetBit` has there. -/
def Cuts {α : Type} (s : State) (k : Nat) (p : Parser α) (bits : Bits) : Prop :=
  ∀ n e, n < bits.length → HoldsAt s k (bits.take n) → getBit s (k + n) = .error e → ∃ e', p k = .error e' ∧ e'.errCode = e.errCode

/-- What a parser that has taken its bits gives: a value, or CORRUPT. -/
def answer {α : Type} (r : Option α) (k : Nat) : Except ParseError (α × Nat) :=
  match r with
  | some a => .ok (a, k)
  | none => .error .corrupt

/-- From `k` bits after SRC_POS the parser takes exactly `bits` and gives `r`, and it stops where the source stops inside them. -/
structure Reads {α : Type} (s : State) (k : Nat) (p : Parser α) (bits : Bits) (r : Option α) : Prop where
  whole : HoldsAt s k bits → p k = answer r (k + bits.length)
  cut : Cuts s k p bits

theorem Cuts.nil {α : Type} (s : State) (k : Nat) (p : Parser α) : Cuts s k p [] := fun _ _ hn => absurd hn (Nat.not_lt_zero _)

theorem Cuts.take {α : Type} {s : State} {k : Nat} {p : Parser α} {bits : Bits} (h : Cuts s k p bits) (n : Nat) :
    Cuts s k p (bits.take n) := by
  intro m e hm hholds hstop
  rw [List.length_take] at hm
  rw [List.take_take, Nat.min_eq_left (by omega)] at hholds
  exact h m e (by omega) hholds hstop

theorem Cuts.bind_left {α β : Type} {s : State} {k : Nat} {p : Parser α} {bits : Bits} (h : Cuts s k p bits) (f : α → Parser β) :
    Cuts s k (p >>= f) bits := by
  intro n e hn hholds hstop
  obtain ⟨e', he, hcode⟩ := h n e hn hholds hstop
  exact ⟨e', bind_error he, hcode⟩

theorem Reads.cut_bind {α β : Type} {s : State} {k : Nat} {p : Parser α} {f : α → Parser β} {a : α} {b₁ b₂ : Bits}
    (hp : Reads s k p b₁ (some a)) (hf : HoldsAt s k b₁ → Cuts s (k + b₁.length) (f a) b₂) : Cuts s k (p >>= f) (b₁ ++ b₂) := by
  intro n e hn hholds hstop
  rw [List.take_append] at hholds
  obtain hlt | hge := Nat.lt_or_ge n b₁.length
  · rw [Nat.sub_eq_zero_of_le hlt.le, List.take_zero, List.append_nil] at hholds
    exact hp.cut.bind_left f n e hlt hholds hstop
  · rw [List.take_of_length_le hge, holdsAt_append] at hholds
    obtain ⟨h₁, h₂⟩ := hholds
    rw [show k + n = k + b₁.length + (n - b₁.length) by omega] at hstop
    obtain ⟨e', he, hcode⟩ := hf h₁ (n - b₁.length) e (by rw [List.length_append] at hn; omega) h₂ hstop
    exact ⟨e', by rw [bind_ok (hp.whole h₁), he], hcode⟩

/-- One parser after another, where the second may rest on what the first has found in the source. -/
theorem Reads.bind_of_holds {α β : Type} {s : State} {k : Nat} {p : Parser α} {f : α → Parser β} {a : α} {b₁ b₂ : Bits}
    {r : Option β} (hp : Reads s k p b₁ (some a)) (hf : HoldsAt s k b₁ → Reads s (k + b₁.length) (f a) b₂ r) :
    Reads s k (p >>= f) (b₁ ++ b₂) r where
  whole h := by
    obtain ⟨h₁, h₂⟩ := (holdsAt_append s k b₁ b₂).1 h
    rw [bind_ok (hp.whole h₁), (hf h₁).whole h₂, List.length_append, Nat.add_assoc]
  cut := hp.cut_bind fun h₁ => (hf h₁).cut

theorem Reads.bind {α β : Type} {s : State} {k : Nat} {p : Parser α} {f : α → Parser β} {a : α} {b₁ b₂ : Bits} {r : Option β}
    (hp : Reads s k p b₁ (some a)) (hf : Reads s (k + b₁.length) (f a) b₂ r) : Reads s k (p >>= f) (b₁ ++ b₂) r :=
  hp.bind_of_holds fun _ => hf

theorem Reads.bind_corrupt {α β : Type} {s : State} {k : Nat} {p : Parser α} {bits : Bits} (hp : Reads s k p bits none)
    (f : α → Parser β) : Reads s k (p >>= f) bits none where
  whole h := bind_error (hp.whole h)
  cut := hp.cut.bind_left f

theorem Reads.pure {α : Type} (s : State) (k : Nat) (a : α) : Reads s k (pure a) [] (some a) := ⟨fun _ => rfl, .nil s k _⟩

theorem Reads.corrupt {α : Type} (s : State) (k : Nat) : Reads s k (corrupt : Parser α) [] none := ⟨fun _ => rfl, .nil s k _⟩

theorem Reads.getBit (s : State) (k : Nat) (b : Bool) : Reads s k (getBit s) [b] (some b) where
  whole h := getBit_holds h
  cut n e hn _ hstop := by
    rw [List.length_singleton, Nat.lt_one_iff] at hn
    exact ⟨e, by rwa [hn] at hstop, rfl⟩

/-- The next bit, then the rest. -/
theorem Reads.getBit_bind {β : Type} {s : State} {k : Nat} {b : Bool} {f : Bool → Parser β} {bits : Bits} {r : Option β}
    (hf : Reads s (k + 1) (f b) bits r) : Reads s k (Machine.getBit s >>= f) (b :: bits) r :=
  (Reads.getBit s k b).bind hf

/-- A last step that takes no bits. -/
theorem Reads.bind_nil {α β : Type} {s : State} {k : Nat} {p : Parser α} {f : α → Parser β} {a : α} {bits : Bits} {r : Option β}
    (hp : Reads s k p bits (some a)) (hf : ∀ k, Reads s k (f a) [] r) : Reads s k (p >>= f) bits r :=
  List.append_nil bits ▸ hp.bind (hf _)

/-! ### Fixed-width fields (R91) -/

theorem Reads.getBitsMSBFrom (s : State) (k n v x : Nat) :
    Reads s k (getBitsMSBFrom s n v) (msb x n) (some (v * 2 ^ n + x % 2 ^ n)) := by
  refine ⟨fun h => (getBitsMSBFrom_holds h).trans (by rw [length_msb]; rfl), ?_⟩
  induction n generalizing k v with
  | zero => exact .nil s k _
  | succ n ih => exact (Reads.getBit s k _).cut_bind fun _ => ih _ _

theorem Reads.getBitsMSB (s : State) (k n x : Nat) : Reads s k (getBitsMSB s n) (msb x n) (some (x % 2 ^ n)) := by
  simpa [Machine.getBitsMSB] using Reads.getBitsMSBFrom s k n 0 x

theorem Reads.getBitsLSB (s : State) (k n x : Nat) : Reads s k (getBitsLSB s n) (lsb x n) (some (x % 2 ^ n)) := by
  refine ⟨fun h => (getBitsLSB_holds h).trans (by rw [length_lsb]; rfl), ?_⟩
  induction n generalizing k x with
  | zero => exact .nil s k _
  | succ n ih =>
    rw [lsb_succ]
    exact (Reads.getBit s k _).cut_bind fun _ => (ih _ _).bind_left _

theorem Reads.getBools (s : State) (k : Nat) (bits : Bits) : Reads s k (getBools s bits.length) bits (some bits) := by
  refine ⟨getBools_holds, ?_⟩
  induction bits generalizing k with
  | nil => exact .nil s k _
  | cons b rest ih => exact (Reads.getBit s k b).cut_bind fun _ => (ih _).bind_left _

/-! ### Unary (R188) -/

/-- A source that holds `n` bits from `k` on has them within SRC_SIZE, so the loop's bound outlasts them (R412). -/
theorem HoldsAt.lt_bitBudget {s : State} {k : Nat} {bits : Bits} (h : HoldsAt s k bits) : k + bits.length < s.bitBudget ∨ bits = [] := by
  obtain rfl | ⟨rest, b, rfl⟩ := bits.eq_nil_or_concat
  · exact .inr rfl
  · have hlast := (h rest.length (by simp)).1
    unfold State.bitBudget
    simp
    omega

theorem unaryLoop_cut {s : State} {n bound q k : Nat} {e : ParseError} (hb : n < bound) (h : HoldsAt s k (ones n))
    (hstop : getBit s (k + n) = .error e) : unaryLoop s bound q k = .error e := by
  induction n generalizing bound q k with
  | zero =>
    obtain ⟨bound, rfl⟩ : ∃ b, bound = b + 1 := ⟨bound - 1, by omega⟩
    exact bind_error hstop
  | succ n ih =>
    obtain ⟨bound, rfl⟩ : ∃ b, bound = b + 1 := ⟨bound - 1, by omega⟩
    obtain ⟨h₁, h₂⟩ := (holdsAt_cons s k true (ones n)).1 h
    rw [unaryLoop, bind_ok (getBit_holds h₁), if_pos rfl]
    exact ih (by omega) h₂ (by rwa [show k + 1 + n = k + (n + 1) by omega])

theorem Reads.unaryParse (s : State) (k q : Nat) : Reads s k (unaryParse s) (ones q ++ [false]) (some q) where
  whole h := (unaryParse_holds h).trans (by simp [ones, answer, Nat.add_assoc])
  cut n e hn h hstop := by
    rw [List.length_append, length_ones, List.length_singleton] at hn
    have htake : (ones q ++ [false]).take n = ones n := by
      rw [List.take_append_of_le_length (by rw [length_ones]; omega), ones, List.take_replicate, Nat.min_eq_left (by omega)]
      rfl
    rw [htake] at h
    refine ⟨e, unaryLoop_cut ?_ h hstop, rfl⟩
    obtain hlt | hnil := h.lt_bitBudget
    · rw [length_ones] at hlt
      omega
    · have := congrArg List.length hnil
      rw [length_ones, List.length_nil] at this
      exact this ▸ Nat.succ_pos _

/-! ### Gamma (R190, R213) -/

theorem Reads.gammaZeros (s : State) (k : Nat) {n room : Nat} (L : Nat) (h : n ≤ room) :
    Reads s k (gammaZeros s room L) (zeros n ++ [true]) (some (L + n)) := by
  induction n generalizing k room L with
  | zero => cases room <;> exact .getBit_bind (.pure s _ _)
  | succ n ih =>
    obtain ⟨room, rfl⟩ : ∃ m, room = m + 1 := ⟨room - 1, by omega⟩
    have := ih (k + 1) (L + 1) (Nat.le_of_succ_le_succ h)
    rw [show L + 1 + n = L + (n + 1) by omega] at this
    exact .getBit_bind this

theorem Reads.gammaZeros_corrupt (s : State) (k room L : Nat) : Reads s k (Machine.gammaZeros s room L) (zeros (room + 1)) none := by
  induction room generalizing k L with
  | zero => exact .getBit_bind (.corrupt s _)
  | succ room ih => exact .getBit_bind (ih _ _)

/-- A number is its leading bit and the bits below it. -/
theorem two_pow_add_mod_two_pow {u : Nat} (h : 1 ≤ u) : 2 ^ (bitlen u - 1) + u % 2 ^ (bitlen u - 1) = u := by
  have hpos := bitlen_pos h
  have hlo := two_pow_bitlen_le h
  have hhi := lt_two_pow_bitlen u
  rw [show bitlen u = bitlen u - 1 + 1 by omega, Nat.pow_succ] at hhi
  rw [Nat.mod_eq_sub_mod hlo, Nat.mod_eq_of_lt (by omega)]
  omega

theorem Reads.gammaParse (s : State) (k : Nat) {lmax m : Nat} (hm : 1 ≤ m) (h : bitlen m - 1 ≤ lmax) :
    Reads s k (gammaParse lmax s) (gammaBits m) (some m) := by
  have hread := (Reads.gammaZeros s k 0 h).bind
    (f := fun L => Machine.getBitsMSB s L >>= fun r => Pure.pure (2 ^ L + r))
    ((Reads.getBitsMSB s _ (0 + (bitlen m - 1)) (m % 2 ^ (bitlen m - 1))).bind_nil fun _ => .pure s _ _)
  rw [Nat.zero_add, Nat.mod_mod, two_pow_add_mod_two_pow hm] at hread
  exact hread

theorem Reads.gammaParse_corrupt (s : State) (k lmax : Nat) : Reads s k (Machine.gammaParse lmax s) (zeros (lmax + 1)) none :=
  (Reads.gammaZeros_corrupt s k lmax 0).bind_corrupt _

/-- More zeros than `lmax` in front of γ(m). -/
theorem HoldsAt.zeros_of_gammaBits {s : State} {k n m : Nat} (h : HoldsAt s k (gammaBits m)) (hn : n ≤ bitlen m - 1) :
    HoldsAt s k (zeros n) := by
  have hsplit : zeros (bitlen m - 1) = zeros n ++ zeros (bitlen m - 1 - n) := by
    rw [zeros, zeros, zeros, List.replicate_append_replicate, Nat.add_sub_cancel' hn]
  rw [gammaBits, hsplit, List.append_assoc, List.append_assoc, holdsAt_append] at h
  exact h.1

/-! ### Delta (R215) -/

theorem bitlen_sub_one_le_63 {u : Nat} (h : u < 2 ^ 64) : bitlen u - 1 ≤ 63 := by
  have := bitlen_le_64 h
  omega

theorem Reads.deltaParse (s : State) (k : Nat) {u L : Nat} (hpos : 1 ≤ u) (hu : u < 2 ^ 64) (hL : L = bitlen u - 1) :
    Reads s k (deltaParse s) (gammaBits (L + 1) ++ msb (u % 2 ^ L) L) (some u) := by
  have hle : L ≤ 63 := hL ▸ bitlen_sub_one_le_63 hu
  have hgamma : Reads s k (Machine.gammaParse 63 s) (gammaBits (L + 1)) (some (L + 1)) :=
    .gammaParse s k (Nat.le_add_left 1 L) (bitlen_sub_one_le_63 (by omega))
  refine hgamma.bind ?_
  rw [Nat.add_sub_cancel, if_neg (by omega)]
  have hvalue : 2 ^ L + u % 2 ^ L % 2 ^ L = u := by rw [Nat.mod_mod, hL, two_pow_add_mod_two_pow hpos]
  exact (Reads.getBitsMSB s _ L (u % 2 ^ L)).bind_nil fun k => by
    rw [hvalue]
    exact .pure s k u

theorem Reads.deltaParse_corrupt (s : State) (k : Nat) {m : Nat} (hm : 64 < m) (h : m < 2 ^ 64) :
    Reads s k (Machine.deltaParse s) (gammaBits m) none :=
  (Reads.gammaParse s k (by omega) (bitlen_sub_one_le_63 h)).bind_nil fun k => by
    rw [if_pos (by omega)]
    exact .corrupt s k

/-! ### Omega (R217) -/

theorem omegaParseLoop_stop (s : State) (k b acc : Nat) : Reads s k (omegaParseLoop s (b + 1) acc) [false] (some acc) :=
  .getBit_bind (.pure s _ acc)

theorem omegaParseLoop_corrupt (s : State) (k b : Nat) {acc : Nat} (h : 63 < acc) :
    Reads s k (omegaParseLoop s (b + 1) acc) [true] none := by
  refine .getBit_bind ?_
  rw [Bool.not_true, if_neg Bool.false_ne_true, if_pos h]
  exact .corrupt s _

/-- One group: a 1, and the bits of the next value below it. -/
def omegaStep (s : State) (acc : Nat) : Parser Nat :=
  getBit s >>= fun _ => getBitsMSB s acc >>= fun r => pure (2 ^ acc + r)

theorem Reads.omegaStep (s : State) (k : Nat) {n : Nat} (hn : 1 ≤ n) :
    Reads s k (omegaStep s (bitlen n - 1)) (msb n (bitlen n)) (some n) := by
  rw [msb_bitlen hn]
  have hread := (Reads.getBitsMSB s (k + 1) (bitlen n - 1) (n % 2 ^ (bitlen n - 1))).bind_nil
    (f := fun r => Pure.pure (2 ^ (bitlen n - 1) + r)) fun _ => .pure s _ _
  rw [Nat.mod_mod, two_pow_add_mod_two_pow hn] at hread
  exact .getBit_bind hread

/-- After a 1 the loop takes one group and goes on with its value. -/
theorem omegaParseLoop_of_true {s : State} {k b acc : Nat} (h : acc ≤ 63) (h1 : HoldsAt s k [true]) :
    omegaParseLoop s (b + 1) acc k = (omegaStep s acc >>= omegaParseLoop s b) k := by
  have hstep : (Machine.omegaStep s acc >>= omegaParseLoop s b) k =
      ((Machine.getBitsMSB s acc >>= fun r => Pure.pure (2 ^ acc + r)) >>= omegaParseLoop s b) (k + 1) := by
    rw [Machine.omegaStep, bind_assoc, bind_ok (getBit_holds h1)]
  rw [hstep, omegaParseLoop, bind_ok (getBit_holds h1), Bool.not_true, if_neg Bool.false_ne_true, if_neg (by omega), bind_assoc]
  rfl

theorem holdsAt_true_of_msb {s : State} {k n : Nat} (hn : 1 ≤ n) (h : HoldsAt s k (msb n (bitlen n))) : HoldsAt s k [true] := by
  rw [msb_bitlen hn, holdsAt_cons] at h
  exact h.1

/-- The loop through all the groups of a value: it stands at the value, with at most one step gone for each bit. -/
theorem OmegaGroups.omegaParseLoop_eq {n : Nat} {g : Bits} (hg : OmegaGroups n g) (hn : n < 2 ^ 64) (s : State) (k : Nat) :
    ∃ c ≤ g.length, ∀ b, HoldsAt s k g → omegaParseLoop s (b + c) 1 k = omegaParseLoop s b n (k + g.length) := by
  induction hg with
  | one => exact ⟨0, le_rfl, fun _ _ => rfl⟩
  | group n g hn1 hg ih =>
    have hle := bitlen_le_self n
    have hpos := bitlen_pos hn1.le
    obtain ⟨c, hc, heq⟩ := ih (by omega)
    refine ⟨c + 1, by rw [List.length_append, length_msb]; omega, fun b h => ?_⟩
    obtain ⟨h₁, h₂⟩ := (holdsAt_append s k g _).1 h
    rw [show b + (c + 1) = b + 1 + c by omega, heq (b + 1) h₁,
      omegaParseLoop_of_true (bitlen_sub_one_le_63 hn) (holdsAt_true_of_msb hn1.le h₂),
      bind_ok ((Reads.omegaStep s _ hn1.le).whole h₂), List.length_append, Nat.add_assoc]

/-- The loop stops where the source stops inside the groups of a value. -/
theorem OmegaGroups.omegaParseLoop_cut {n : Nat} {g : Bits} (hg : OmegaGroups n g) (hn : n < 2 ^ 64) {s : State} {k m b : Nat}
    {e : ParseError} (hm : m < g.length) (hb : m < b) (h : HoldsAt s k (g.take m)) (hstop : getBit s (k + m) = .error e) :
    ∃ e', omegaParseLoop s b 1 k = .error e' ∧ e'.errCode = e.errCode := by
  induction hg with
  | one => exact absurd hm (Nat.not_lt_zero m)
  | group n g hn1 hg ih =>
    have hle := bitlen_le_self n
    obtain hlt | hge := Nat.lt_or_ge m g.length
    · exact ih (by omega) hlt (by rwa [List.take_append_of_le_length hlt.le] at h)
    · rw [List.take_append, List.take_of_length_le hge, holdsAt_append] at h
      obtain ⟨h₁, h₂⟩ := h
      obtain ⟨c, hc, heq⟩ := hg.omegaParseLoop_eq (by omega) s k
      obtain ⟨b, rfl⟩ : ∃ b', b = b' + 1 + c := ⟨b - 1 - c, by omega⟩
      rw [heq _ h₁]
      rw [show k + m = k + g.length + (m - g.length) by omega] at hstop
      obtain h0 | hpos := Nat.eq_zero_or_pos (m - g.length)
      · rw [h0] at hstop
        exact ⟨e, bind_error hstop, rfl⟩
      · have h1 : HoldsAt s (k + g.length) [true] := by
          obtain ⟨i, hi⟩ : ∃ i, m - g.length = i + 1 := ⟨m - g.length - 1, by omega⟩
          rw [hi, msb_bitlen hn1.le, List.take_succ_cons, holdsAt_cons] at h₂
          exact h₂.1
        rw [omegaParseLoop_of_true (bitlen_sub_one_le_63 hn) h1]
        refine (Reads.omegaStep s _ hn1.le).cut.bind_left _ (m - g.length) e ?_ h₂ hstop
        rw [List.length_append] at hm
        omega

/-- All the groups of a value, and then what the loop does at the value. -/
theorem OmegaGroups.reads {n : Nat} {g : Bits} (hg : OmegaGroups n g) (hn : n < 2 ^ 64) (s : State) {b : Bool} {r : Option Nat}
    (hlast : ∀ k bound, Reads s k (omegaParseLoop s (bound + 1) n) [b] r) : Reads s 0 (omegaParse s) (g ++ [b]) r where
  whole h := by
    obtain ⟨h₁, h₂⟩ := (holdsAt_append s 0 g [b]).1 h
    obtain ⟨c, hc, heq⟩ := hg.omegaParseLoop_eq hn s 0
    obtain hlt | hnil := h.lt_bitBudget
    · rw [List.length_append, List.length_singleton] at hlt
      rw [omegaParse, show s.bitBudget = s.bitBudget - c - 1 + 1 + c by omega, heq _ h₁, (hlast _ _).whole h₂, List.length_append,
        Nat.add_assoc]
    · exact absurd hnil (by simp)
  cut m e hm h hstop := by
    rw [List.length_append, List.length_singleton] at hm
    have hbudget : m < s.bitBudget := by
      obtain hlt | hnil := h.lt_bitBudget
      · rw [List.length_take, List.length_append, List.length_singleton] at hlt
        omega
      · have := congrArg List.length hnil
        rw [List.length_take, List.length_append, List.length_singleton, List.length_nil] at this
        unfold State.bitBudget
        omega
    obtain hlt | heq := Nat.lt_or_eq_of_le (Nat.le_of_lt_succ hm)
    · rw [List.take_append_of_le_length hlt.le] at h
      exact hg.omegaParseLoop_cut hn hlt hbudget h hstop
    · subst heq
      rw [List.take_left' rfl] at h
      obtain ⟨c, hc, hloop⟩ := hg.omegaParseLoop_eq hn s 0
      rw [omegaParse, show s.bitBudget = s.bitBudget - c - 1 + 1 + c by omega, hloop _ h]
      exact ⟨e, bind_error hstop, rfl⟩

theorem OmegaGroups.reads_value {n : Nat} {g : Bits} (hg : OmegaGroups n g) (hn : n < 2 ^ 64) (s : State) :
    Reads s 0 (omegaParse s) (g ++ [false]) (some n) := hg.reads hn s fun k bound => omegaParseLoop_stop s k bound n

theorem OmegaGroups.reads_corrupt {n : Nat} {g : Bits} (hg : OmegaGroups n g) (hn : n < 2 ^ 64) (h63 : 63 < n) (s : State) :
    Reads s 0 (omegaParse s) (g ++ [true]) none := hg.reads hn s fun k bound => omegaParseLoop_corrupt s k bound h63

/-! ### Fibonacci (R220) -/

/-- No two consecutive digits are both 1, `prev` before the first. -/
def NoPair : Bool → Bits → Prop
  | _, [] => True
  | prev, b :: rest => (b && prev) = false ∧ NoPair b rest

/-- The weights of the 1-digits, f_i that of the first. -/
def weigh (i : Nat) : Bits → Nat
  | [] => 0
  | b :: rest => (if b then fib i else 0) + weigh (i + 1) rest

theorem noPair_of_getD {prev : Bool} {d : Bits} {n : Nat} (hn : d.length ≤ n + 1) (h0 : prev = true → d.getD 0 false = false)
    (h : ∀ j < n, d.getD j false = true → d.getD (j + 1) false = false) : NoPair prev d := by
  induction d generalizing prev n with
  | nil => trivial
  | cons b rest ih =>
    refine ⟨?_, ?_⟩
    · cases prev with
      | false => exact Bool.and_false b
      | true => rw [Bool.and_true]; exact h0 rfl
    · cases n with
      | zero =>
        have hnil : rest = [] := List.length_eq_zero_iff.1 (by rw [List.length_cons] at hn; omega)
        rw [hnil]
        trivial
      | succ n => exact ih (Nat.le_of_succ_le_succ hn) (fun hb => h 0 (Nat.succ_pos n) hb) fun j hj => h (j + 1) (by omega)

theorem Sparse.noPair {d : Bits} (h : Sparse d) : NoPair false d :=
  noPair_of_getD (Nat.le_succ _) (fun h => by cases h) h

theorem weigh_eq (i : Nat) (d : Bits) :
    weigh i d = ((List.range d.length).map fun j => if d.getD j false then Nat.fib (i + j + 1) else 0).sum := by
  induction d generalizing i with
  | nil => rfl
  | cons b rest ih =>
    rw [weigh, ih, fib_eq, List.length_cons, List.range_succ_eq_map, List.map_cons, List.map_map, List.sum_cons]
    congr 2
    refine List.map_congr_left fun j _ => ?_
    rw [Function.comp, Nat.succ_eq_add_one, List.getD_cons_succ, show i + (j + 1) + 1 = i + 1 + j + 1 by omega]

theorem weigh_one (d : Bits) : weigh 1 d = digitSum d := by
  rw [weigh_eq, digitSum]
  refine congrArg List.sum (List.map_congr_left fun j _ => ?_)
  rw [show 1 + j + 1 = j + 2 by omega]

/-- The value of a digit sum (R220). -/
def fibResult (m : Nat) : Option Nat := if 2 ^ 64 < m then none else some (m - 1)

theorem Reads.fibValue (s : State) (k m : Nat) : Reads s k (fibValue m) [] (fibResult m) := by
  unfold Machine.fibValue fibResult
  split
  · exact .corrupt s k
  · exact .pure s k _

/-- A digit that does not end the string. -/
theorem Reads.fibLoop_digit {s : State} {k room i m : Nat} {prev b : Bool} {bits : Bits} {r : Option Nat} (hb : (b && prev) = false)
    (h : Reads s (k + 1) (fibLoop s room (i + 1) (if b then m + fib i else m) b) bits r) :
    Reads s k (fibLoop s (room + 1) i m prev) (b :: bits) r := by
  refine .getBit_bind ?_
  rw [hb, if_neg Bool.false_ne_true]
  exact h

theorem add_weigh (b : Bool) (m i : Nat) (rest : Bits) :
    (if b then m + fib i else m) + weigh (i + 1) rest = m + weigh i (b :: rest) := by
  cases b <;> simp [weigh, Nat.add_assoc]

/-- Digits with no two 1s together, the last one a 1, and the 1 that ends them. -/
theorem Reads.fibLoop {s : State} {k room i m : Nat} {prev : Bool} {d : Bits} (hlen : d.length ≤ room) (hpair : NoPair prev d)
    (hlast : (prev :: d).getLast? = some true) :
    Reads s k (fibLoop s room i m prev) (d ++ [true]) (fibResult (m + weigh i d)) := by
  induction d generalizing k room i m prev with
  | nil =>
    obtain rfl : prev = true := by simpa using hlast
    cases room <;> exact .getBit_bind (Reads.fibValue s _ m)
  | cons b rest ih =>
    obtain ⟨hb, hrest⟩ := hpair
    obtain ⟨room, rfl⟩ : ∃ n, room = n + 1 := ⟨room - 1, by rw [List.length_cons] at hlen; omega⟩
    have hread := ih (k := k + 1) (i := i + 1) (m := if b then m + fib i else m) (Nat.le_of_succ_le_succ hlen) hrest
      (by rwa [List.getLast?_cons_cons] at hlast)
    rw [add_weigh] at hread
    exact .fibLoop_digit hb hread

/-- More digits than there is room for, no two 1s together. -/
theorem Reads.fibLoop_corrupt {s : State} {k room i m : Nat} {prev : Bool} {d : Bits} (hlen : d.length = room + 1)
    (hpair : NoPair prev d) : Reads s k (Machine.fibLoop s room i m prev) d none := by
  induction room generalizing k i m prev d with
  | zero =>
    obtain ⟨b, rfl⟩ := List.length_eq_one_iff.1 hlen
    refine .getBit_bind ?_
    rw [hpair.1, if_neg Bool.false_ne_true]
    exact .corrupt s _
  | succ room ih =>
    obtain ⟨b, rest, rfl⟩ : ∃ b rest, d = b :: rest := List.exists_cons_of_length_eq_add_one hlen
    exact .fibLoop_digit hpair.1 (ih (Nat.succ.inj hlen) hpair.2)

theorem Zeckendorf.reads {d : Bits} {m : Nat} (h : Zeckendorf d m) (hlen : d.length ≤ 92) (s : State) (k : Nat) :
    Reads s k (fibParse s) (d ++ [true]) (fibResult m) := by
  obtain ⟨hlast, hsparse, hsum⟩ := zeckendorf_iff.1 h
  have hread : Reads s k (fibParse s) (d ++ [true]) (fibResult (0 + weigh 1 d)) :=
    .fibLoop hlen hsparse.noPair (by rw [List.getLast?_cons, hlast]; rfl)
  rwa [Nat.zero_add, weigh_one, hsum] at hread

/-! ### Rice and Golomb (R261, R262, R264) -/

theorem div_le_top_div {u m : Nat} (hu : u < 2 ^ 64) : u / m ≤ (2 ^ 64 - 1) / m := Nat.div_le_div_right (by omega)

theorem Reads.riceParse (s : State) (k K : Nat) {u : Nat} (hu : u < 2 ^ 64) :
    Reads s k (riceParse K s) (ones (u / 2 ^ K) ++ [false] ++ msb (u % 2 ^ K) K) (some u) := by
  refine (Reads.unaryParse s k (u / 2 ^ K)).bind ?_
  rw [if_neg (Nat.not_lt.2 (div_le_top_div hu))]
  have hvalue : u / 2 ^ K * 2 ^ K + u % 2 ^ K % 2 ^ K = u := by rw [Nat.mod_mod, Nat.mul_comm, Nat.div_add_mod]
  exact (Reads.getBitsMSB s _ K (u % 2 ^ K)).bind_nil fun k => by
    rw [hvalue]
    exact .pure s k u

theorem Reads.riceParse_corrupt (s : State) (k : Nat) {K q : Nat} (hq : (2 ^ 64 - 1) / 2 ^ K < q) :
    Reads s k (Machine.riceParse K s) (ones q ++ [false]) none :=
  (Reads.unaryParse s k q).bind_nil fun k => by
    rw [if_pos hq]
    exact .corrupt s k

/-- The last of the `n + 1` bits of a number. -/
theorem msb_succ_last (v n : Nat) : msb v (n + 1) = msb (v / 2) n ++ [v.testBit 0] := by
  induction n with
  | zero => rfl
  | succ n ih =>
    have hbit : v.testBit (n + 1) = (v / 2).testBit n := Nat.testBit_succ v n
    rw [msb, ih, msb, hbit, List.cons_append]

/-- R262: TB_M reads back the remainder it wrote. -/
theorem Reads.tbParse (s : State) (k : Nat) {m r : Nat} (hr : r < m) : Reads s k (tbParse m s) (tbWord m r) (some r) := by
  have hm : m - 1 < 2 ^ tbWidth m := lt_two_pow_bitlen (m - 1)
  by_cases hw : tbWidth m = 0
  · have hone : m = 1 := by
      rw [hw] at hm
      omega
    subst hone
    have h0 : r = 0 := by omega
    have hcut : tbCut 1 = 0 := tbCut_two_pow 0
    rw [Machine.tbParse, if_pos hw, tbWord, hcut, hw, h0]
    exact .pure s k 0
  · have hm2 : 2 ≤ m := by
      by_contra hlt
      exact hw (by rw [show m = 1 by omega]; exact tbWidth_two_pow 0)
    have hcut : tbCut m = 2 ^ tbWidth m - m := rfl
    have hhalf := tbCut_le_pred hm2
    obtain ⟨b, hb⟩ : ∃ b, tbWidth m = b + 1 := ⟨tbWidth m - 1, by omega⟩
    have hpow : 2 ^ tbWidth m = 2 * 2 ^ b := by rw [hb, Nat.pow_succ']
    rw [Machine.tbParse, if_neg hw, tbWord]
    split
    next hshort =>
      have hlt : r % 2 ^ (tbWidth m - 1) = r := Nat.mod_eq_of_lt (by rw [hb, Nat.add_sub_cancel]; omega)
      refine (Reads.getBitsMSB s k (tbWidth m - 1) r).bind_nil fun k => ?_
      rw [hlt, if_pos hshort]
      exact .pure s k r
    next hlong =>
      have hlt : (r + tbCut m) / 2 % 2 ^ (tbWidth m - 1) = (r + tbCut m) / 2 :=
        Nat.mod_eq_of_lt (by rw [hb, Nat.add_sub_cancel]; omega)
      have hbit : ((r + tbCut m).testBit 0).toNat = (r + tbCut m) % 2 := by
        rw [Nat.testBit_zero]
        obtain h | h := Nat.mod_two_eq_zero_or_one (r + tbCut m) <;> simp [h]
      rw [show msb (r + tbCut m) (tbWidth m) = msb ((r + tbCut m) / 2) (tbWidth m - 1) ++ [(r + tbCut m).testBit 0] by
        rw [hb, msb_succ_last, Nat.add_sub_cancel]]
      refine (Reads.getBitsMSB s k (tbWidth m - 1) _).bind ?_
      rw [hlt, if_neg (by omega)]
      refine .getBit_bind ?_
      rw [hbit, show 2 * ((r + tbCut m) / 2) + (r + tbCut m) % 2 - tbCut m = r by omega]
      exact .pure s _ r

/-- A quotient and a remainder that make no 64-bit value are CORRUPT. -/
theorem Reads.golombParse_quotient (s : State) (k : Nat) {m q r : Nat} (hq : q ≤ (2 ^ 64 - 1) / m) (hr : r < m) :
    Reads s k (golombParse m s) (ones q ++ [false] ++ tbWord m r) (if 2 ^ 64 - 1 < q * m + r then none else some (q * m + r)) := by
  refine (Reads.unaryParse s k q).bind ?_
  rw [if_neg (Nat.not_lt.2 hq)]
  refine (Reads.tbParse s _ hr).bind_nil fun k => ?_
  split
  · exact .corrupt s k
  · exact .pure s k _

theorem Reads.golombParse (s : State) (k : Nat) {m u : Nat} (hm : m ≠ 0) (hu : u < 2 ^ 64) :
    Reads s k (golombParse m s) (ones (u / m) ++ [false] ++ tbWord m (u % m)) (some u) := by
  have hread := Reads.golombParse_quotient s k (div_le_top_div hu) (Nat.mod_lt u (Nat.pos_of_ne_zero hm))
  rwa [Nat.mul_comm, Nat.div_add_mod, if_neg (by omega)] at hread

theorem Reads.golombParse_corrupt (s : State) (k : Nat) {m q : Nat} (hq : (2 ^ 64 - 1) / m < q) :
    Reads s k (Machine.golombParse m s) (ones q ++ [false]) none :=
  (Reads.unaryParse s k q).bind_nil fun k => by
    rw [if_pos hq]
    exact .corrupt s k

/-! ### VByte (R266) -/

theorem vbyteByte_lt (u K j : Nat) : vbyteByte u K j < 2 ^ 8 := by
  unfold vbyteByte
  split <;> omega

/-- One more byte gives seven more bits. -/
theorem mod_add_vbyteByte (u K j : Nat) : u % 2 ^ (7 * j) + vbyteByte u K j % 128 * 2 ^ (7 * j) = u % 2 ^ (7 * (j + 1)) := by
  have hbyte : vbyteByte u K j % 128 = u / 2 ^ (7 * j) % 2 ^ 7 := by
    unfold vbyteByte
    split <;> omega
  rw [hbyte, Nat.mul_succ, Nat.pow_add, Nat.mod_mul, Nat.mul_comm (2 ^ (7 * j))]

/-- The bytes from byte `j` on. -/
def vbyteFrom (u K j n : Nat) : Bits := (List.range' j n).flatMap fun j => lsb (vbyteByte u K j) 8

theorem vbyteFrom_succ (u K j n : Nat) : vbyteFrom u K j (n + 1) = lsb (vbyteByte u K j) 8 ++ vbyteFrom u K (j + 1) n := by
  rw [vbyteFrom, List.range'_succ, List.flatMap_cons]
  rfl

theorem vbyteBits_eq_vbyteFrom (u K : Nat) : vbyteBits u K = vbyteFrom u K 0 K := by
  rw [vbyteBits_eq, vbyteFrom, List.range_eq_range']

theorem Reads.byte (s : State) (k u K j : Nat) :
    Reads s k (Machine.getBitsLSB s 8) (lsb (vbyteByte u K j) 8) (some (vbyteByte u K j)) := by
  have hread := Reads.getBitsLSB s k 8 (vbyteByte u K j)
  rwa [Nat.mod_eq_of_lt (vbyteByte_lt u K j)] at hread

/-- The value of `K` bytes, none for a value past 2^64−1. -/
def vbyteResult (u K : Nat) : Option Nat := if u % 2 ^ (7 * K) < 2 ^ 64 then some (u % 2 ^ (7 * K)) else none

/-- The bytes from byte `j` to the last of at most ten. -/
theorem Reads.vbyteLoop {s : State} {k u K j n left : Nat} (hK : j + n + 1 = K) (h10 : K ≤ 10) (hleft : j + left = 9) :
    Reads s k (vbyteLoop s left j (u % 2 ^ (7 * j))) (vbyteFrom u K j (n + 1)) (vbyteResult u K) := by
  induction left generalizing k j n with
  | zero =>
    obtain ⟨rfl, rfl, rfl⟩ : j = 9 ∧ n = 0 ∧ K = 10 := by omega
    have hvalue := mod_add_vbyteByte u 10 9
    have hsmall : vbyteByte u 10 9 = u / 2 ^ 63 % 128 := rfl
    refine (Reads.byte s k u 10 9).bind_nil fun k => ?_
    rw [hvalue, vbyteResult]
    split
    next hbig =>
      rw [if_neg (by omega)]
      exact .corrupt s k
    next hfits =>
      rw [if_pos (by omega)]
      exact .pure s k _
  | succ left ih =>
    have hvalue := mod_add_vbyteByte u K j
    rw [vbyteFrom_succ]
    cases n with
    | zero =>
      have hflag : vbyteByte u K j < 128 := by
        unfold vbyteByte
        rw [if_neg (by omega)]
        omega
      refine (Reads.byte s k u K j).bind_nil fun k => ?_
      rw [if_pos hflag, hvalue, vbyteResult, hK, if_pos]
      · exact .pure s k _
      · exact (Nat.mod_lt _ (Nat.two_pow_pos _)).trans (Nat.pow_lt_pow_right (by decide) (by omega))
    | succ n =>
      have hflag : ¬ vbyteByte u K j < 128 := by
        unfold vbyteByte
        rw [if_pos (by omega)]
        omega
      refine (Reads.byte s k u K j).bind ?_
      rw [if_neg hflag, hvalue]
      exact ih (by omega) (by omega)

/-- A tenth byte whose continuation flag is set. -/
theorem Reads.vbyteLoop_overlong {s : State} {k u K j v left : Nat} (h10 : 10 < K) (hleft : j + left = 9) :
    Reads s k (Machine.vbyteLoop s left j v) (vbyteFrom u K j (left + 1)) none := by
  have hflag : 128 ≤ vbyteByte u K j := by
    unfold vbyteByte
    rw [if_pos (by omega)]
    omega
  induction left generalizing k j v with
  | zero =>
    refine (Reads.byte s k u K j).bind_nil fun k => ?_
    rw [if_pos (.inl hflag)]
    exact .corrupt s k
  | succ left ih =>
    rw [vbyteFrom_succ]
    refine (Reads.byte s k u K j).bind ?_
    rw [if_neg (Nat.not_lt.2 hflag)]
    refine ih (by omega) ?_
    unfold vbyteByte
    rw [if_pos (by omega)]
    omega

theorem Reads.vbyteParse_result (s : State) (k u : Nat) {K : Nat} (h1 : 1 ≤ K) (h10 : K ≤ 10) :
    Reads s k (vbyteParse s) (vbyteBits u K) (vbyteResult u K) := by
  obtain ⟨n, rfl⟩ : ∃ n, K = n + 1 := ⟨K - 1, by omega⟩
  have hread := Reads.vbyteLoop (s := s) (k := k) (u := u) (K := n + 1) (j := 0) (n := n) (left := 9) (by omega) h10 rfl
  rwa [Nat.mul_zero, Nat.pow_zero, Nat.mod_one, ← vbyteBits_eq_vbyteFrom] at hread

theorem Reads.vbyteParse (s : State) (k : Nat) {u K : Nat} (h1 : 1 ≤ K) (h10 : K ≤ 10) (hu : u < 2 ^ 64) (hK : u < 2 ^ (7 * K)) :
    Reads s k (vbyteParse s) (vbyteBits u K) (some u) := by
  have hread := Reads.vbyteParse_result s k u h1 h10
  rwa [vbyteResult, Nat.mod_eq_of_lt hK, if_pos hu] at hread

theorem Reads.vbyteParse_overlong (s : State) (k u : Nat) {K : Nat} (h10 : 10 < K) :
    Reads s k (Machine.vbyteParse s) ((vbyteBits u K).take 80) none := by
  have htake : (vbyteBits u K).take 80 = vbyteFrom u K 0 10 := by
    have hsplit : List.range' 0 K = List.range' 0 10 ++ List.range' 10 (K - 10) := by
      rw [List.range'_append_1, Nat.add_sub_cancel' h10.le]
    rw [vbyteBits_eq_vbyteFrom, vbyteFrom, vbyteFrom, hsplit, List.flatMap_append]
    exact List.take_left' (by simp [List.length_flatMap])
  rw [htake]
  exact .vbyteLoop_overlong h10 rfl

/-! ### Exp-Golomb (R268) and FixedWidth (R270) -/

theorem Reads.expGolombParse (s : State) (k K : Nat) {u : Nat} (hu : u < 2 ^ 64) :
    Reads s k (expGolombParse K s) (gammaBits (u / 2 ^ K + 1) ++ msb (u % 2 ^ K) K) (some u) := by
  have hle : u / 2 ^ K ≤ u := Nat.div_le_self u _
  have hbits : bitlen (u / 2 ^ K + 1) ≤ 65 := bitlen_le_iff.2 (by omega)
  refine (Reads.gammaParse s k (Nat.le_add_left 1 _) (by omega)).bind ?_
  rw [Nat.add_sub_cancel, if_neg (Nat.not_lt.2 (div_le_top_div hu))]
  have hvalue : u / 2 ^ K * 2 ^ K + u % 2 ^ K % 2 ^ K = u := by rw [Nat.mod_mod, Nat.mul_comm, Nat.div_add_mod]
  exact (Reads.getBitsMSB s _ K (u % 2 ^ K)).bind_nil fun k => by
    rw [hvalue]
    exact .pure s k u

theorem Reads.expGolombParse_corrupt (s : State) (k : Nat) {K m : Nat} (hm : (2 ^ 64 - 1) / 2 ^ K < m - 1)
    (hbits : bitlen m - 1 ≤ 64) : Reads s k (Machine.expGolombParse K s) (gammaBits m) none := by
  have hpos := Nat.zero_lt_of_lt hm
  exact (Reads.gammaParse s k (by omega) hbits).bind_nil fun k => by
    rw [if_pos hm]
    exact .corrupt s k

theorem Reads.fixedParse (s : State) (k : Nat) {n u : Nat} (hu : u < 2 ^ n) : Reads s k (fixedParse n s) (lsb u n) (some u) := by
  have hread := Reads.getBitsLSB s k n u
  rwa [Nat.mod_eq_of_lt hu] at hread

end Sys2Proof.Machine
end

