-- ==== Sys2Proof/Proofs/Decodes.lean ====
section
/-! PROOFS. The decodes: on a codeword, on a source that ends or faults inside one, on corrupt bits, and on what the encode wrote
(42_codec_common.md R181 to R183, R187, R193). -/
namespace Sys2Proof.Machine

/-! ### One decode (R181, R182) -/

theorem State.decoded_eq (s : State) (sgn : Bool) (u n : Nat) :
    s.decoded sgn u n = returnValue (decodeResult sgn u) (s.advanceSource n) := by
  rw [State.advanceSource_eq]
  rfl

/-- A decode of a string its parser reads (R181). -/
theorem decodeWith_reads {parse : State → Parser Nat} {sgn : Bool} {s : State} {bits : Bits} {u : Nat}
    (hp : Reads s 0 (parse s) bits (some u)) (h : SourceHolds s bits) :
    decodeWith true parse sgn s = s.decoded sgn u bits.length := by
  have hparse : parse s 0 = .ok (u, bits.length) := (hp.whole h.holdsAt).trans (by rw [Nat.zero_add]; rfl)
  rw [decodeWith_ok hparse, State.decoded_eq]
  rfl

theorem decodeWith_error {parse : State → Parser Nat} {s : State} {e : ParseError} (sgn : Bool) (h : parse s 0 = .error e) :
    decodeWith true parse sgn s = raise e.errCode s := by
  simp [decodeWith, h]

theorem decodeWith_corrupt {parse : State → Parser Nat} {sgn : Bool} {s : State} {bits : Bits}
    (hp : HoldsAt s 0 bits → parse s 0 = .error .corrupt) (h : SourceHolds s bits) :
    decodeWith true parse sgn s = s.endedWith .invalidInput := by
  rw [decodeWith_error sgn (hp h.holdsAt), ParseError.errCode, raise_nonfatal _ _ rfl, State.complete]

/-- `GetBit` at the end of the source (R90). -/
theorem getBit_end {s : State} {n : Nat} (h : s.srcPos.toNat + n = s.srcSize.toNat) : getBit s (0 + n) = .error (.out n) := by
  rw [Nat.zero_add]
  obtain ⟨-, he⟩ | ⟨hlt, -⟩ | ⟨hlt, -⟩ := getBit_cases s n
  · exact he
  · omega
  · omega

/-- `GetBit` on a byte that is not admitted (R80, R90). -/
theorem getBit_rejects {s : State} {bits : Bits} (h : SourceRejects s bits) : getBit s (0 + bits.length) = .error .bus := by
  obtain ⟨-, hlt, hno⟩ := h
  rw [Nat.zero_add]
  obtain ⟨hend, -⟩ | ⟨-, -, he⟩ | ⟨-, hadm, -⟩ := getBit_cases s bits.length
  · omega
  · exact he
  · simp [hno] at hadm

theorem ParseError.errCode_out (n : Nat) : (ParseError.out n).errCode = if n = 0 then .bufferUnderflow else .incompleteData := by
  cases n <;> rfl

/-- The code a parser gives where the source ends inside its string (R182). -/
theorem Cuts.error_of_end {α : Type} {s : State} {p : Parser α} {bits : Bits} (hc : Cuts s 0 p bits) {n : Nat} (hn : n < bits.length)
    (h : SourceHolds s (bits.take n)) (hend : s.srcPos.toNat + n = s.srcSize.toNat) :
    ∃ e, p 0 = .error e ∧ e.errCode = if n = 0 then .bufferUnderflow else .incompleteData := by
  obtain ⟨e, he, hcode⟩ := hc n _ hn h.holdsAt (getBit_end hend)
  exact ⟨e, he, hcode.trans (ParseError.errCode_out n)⟩

/-- The code a parser gives where a byte inside its string is not admitted (R366). -/
theorem Cuts.error_of_rejects {α : Type} {s : State} {p : Parser α} {bits : Bits} (hc : Cuts s 0 p bits) {n : Nat} (hn : n < bits.length)
    (h : SourceRejects s (bits.take n)) : ∃ e, p 0 = .error e ∧ e.errCode = .busError := by
  have hstop := getBit_rejects h
  rw [List.length_take, Nat.min_eq_left hn.le] at hstop
  exact hc n _ hn h.1.holdsAt hstop

theorem raise_short (n : Nat) (s : State) : raise (if n = 0 then .bufferUnderflow else .incompleteData) s =
    s.endedWith (if n = 0 then .bufferUnderflow else .incompleteData) := raise_nonfatal _ _ (by split <;> rfl)

theorem decodeWith_short {parse : State → Parser Nat} {sgn : Bool} {s : State} {bits : Bits} {n : Nat} (hc : Cuts s 0 (parse s) bits)
    (hn : n < bits.length) (h : SourceHolds s (bits.take n)) (hend : s.srcPos.toNat + n = s.srcSize.toNat) :
    decodeWith true parse sgn s = s.endedWith (if n = 0 then .bufferUnderflow else .incompleteData) := by
  obtain ⟨e, he, hcode⟩ := hc.error_of_end hn h hend
  rw [decodeWith_error sgn he, hcode, raise_short]

theorem decodeWith_bus {parse : State → Parser Nat} {sgn : Bool} {s : State} {bits : Bits} {n : Nat} (hc : Cuts s 0 (parse s) bits)
    (hn : n < bits.length) (h : SourceRejects s (bits.take n)) : decodeWith true parse sgn s = s.faultedWith .busError := by
  obtain ⟨e, he, hcode⟩ := hc.error_of_rejects hn h
  rw [decodeWith_error sgn he, hcode, raise_fatal _ _ rfl]

/-! ### The codewords in the spec's form -/

theorem gammaCodec_word {u : Nat} (h : 1 ≤ u) : gammaCodec.word u = gammaBits u := (gammaBits_eq h).symm

theorem OmegaGroups.omegaCodec_word {n : Nat} {g : Bits} (h : OmegaGroups n g) : omegaCodec.word n = g ++ [false] := h.omegaWord_eq

theorem vbyteCodec_word (u : Nat) : vbyteCodec.word u = vbyteBits u (vbyteCount u) := vbyteWord_eq u

theorem riceCodec_word (k u : Nat) : (riceCodec k).word u = ones (u >>> k) ++ [false] ++ msb (u % 2 ^ k) k := by
  rw [Nat.shiftRight_eq_div_pow]
  rfl

theorem expGolombCodec_word (k u : Nat) : (expGolombCodec k).word u = gammaBits ((u >>> k) + 1) ++ msb (u % 2 ^ k) k := by
  rw [Nat.shiftRight_eq_div_pow, gammaBits_eq (Nat.le_add_left 1 _)]
  rfl

/-! ### The decode that belongs to an encode (R114, R193) -/

/-- A parser belongs to a codec when it reads every codeword of a 64-bit value. -/
def ParsesCodec (s : State) (parse : State → Parser Nat) (codec : Codec) : Prop :=
  ∀ u < 2 ^ 64, codec.dom u = true → Reads s 0 (parse s) (codec.word u) (some u)

/-- Every decode is the template, over the parameter check of its encode and a parser that belongs to its codec. -/
theorem exec_decoder {i j : Instr} {s : State} {ok sgn : Bool} {codec : Codec} (hj : decoderFor i = some j)
    (hrow : encoderOf i s = some (ok, codec, sgn)) :
    ∃ parse, exec j s = .next (decodeWith ok parse sgn s) ∧ (ok = true → ParsesCodec s parse codec) := by
  cases i with
  | encUnary =>
    cases hj; cases hrow
    exact ⟨unaryParse, rfl, fun _ u _ _ => .unaryParse s 0 u⟩
  | encGamma =>
    cases hj; cases hrow
    refine ⟨gammaParse 63, rfl, fun _ u hu hdom => ?_⟩
    have hpos : 1 ≤ u := of_decide_eq_true hdom
    rw [gammaCodec_word hpos]
    exact .gammaParse s 0 hpos (bitlen_sub_one_le_63 hu)
  | encDelta =>
    cases hj; cases hrow
    refine ⟨deltaParse, rfl, fun _ u hu hdom => ?_⟩
    have hpos : 1 ≤ u := of_decide_eq_true hdom
    rw [deltaCodec_word hpos rfl]
    exact .deltaParse s 0 hpos hu rfl
  | encOmega =>
    cases hj; cases hrow
    refine ⟨omegaParse, rfl, fun _ u hu hdom => ?_⟩
    obtain ⟨g, hg⟩ := exists_omegaGroups (of_decide_eq_true hdom : 1 ≤ u)
    rw [hg.omegaCodec_word]
    exact hg.reads_value hu s
  | encFib =>
    cases hj; cases hrow
    refine ⟨fibParse, rfl, fun _ u hu _ => ?_⟩
    obtain ⟨d, hd, hlen⟩ := exists_zeckendorf hu
    have hread := hd.reads hlen s 0
    rw [fibResult, if_neg (by omega), Nat.add_sub_cancel, ← hd.fibWord_eq hu] at hread
    exact hread
  | encRice k =>
    cases hj; cases hrow
    exact ⟨riceParse k, rfl, fun _ u hu _ => .riceParse s 0 k hu⟩
  | encGolomb =>
    cases hj; cases hrow
    refine ⟨golombParse s.arg1.toNat, ?_, fun hne u hu _ => .golombParse s 0 (fun h0 => ?_) hu⟩
    · have hne : modulusParam s.arg1.toNat = decide (s.arg1 ≠ 0) := by
        unfold modulusParam
        congr 1
        simp [← BitVec.toNat_inj]
      rw [exec, execDecGolomb, hne]
    · exact of_decide_eq_true hne (BitVec.eq_of_toNat_eq h0)
  | encVByte =>
    cases hj; cases hrow
    refine ⟨vbyteParse, rfl, fun _ u hu _ => ?_⟩
    have hbl := bitlen_le_64 hu
    have hcount := vbyteCount_eq u
    have hfits : bitlen u ≤ 7 * vbyteCount u := by omega
    have hread : Reads s 0 (vbyteParse s) (vbyteBits u (vbyteCount u)) (some u) :=
      .vbyteParse s 0 (by omega) (by omega) hu (bitlen_le_iff.1 hfits)
    rwa [← vbyteCodec_word] at hread
  | encExpG k =>
    cases hj; cases hrow
    refine ⟨expGolombParse k, rfl, fun _ u hu _ => ?_⟩
    have hread := Reads.expGolombParse s 0 k hu
    rw [gammaBits_eq (Nat.le_add_left 1 _)] at hread
    exact hread
  | encFixed n =>
    cases hj; cases hrow
    exact ⟨fixedParse n, rfl, fun _ u _ hdom => .fixedParse s 0 (of_decide_eq_true hdom)⟩
  | _ => cases hj

/-- A decode on a codeword, whatever follows it. -/
theorem exec_decoder_word {i j : Instr} {s : State} {sgn : Bool} {codec : Codec} {u : Nat} (hj : decoderFor i = some j)
    (hrow : encoderOf i s = some (true, codec, sgn)) (hu : u < 2 ^ 64) (hdom : codec.dom u = true) (h : SourceHolds s (codec.word u)) :
    exec j s = .next (s.decoded sgn u (codec.word u).length) := by
  obtain ⟨parse, hexec, hparse⟩ := exec_decoder hj hrow
  rw [hexec, decodeWith_reads (hparse rfl u hu hdom) h]

/-! ### Decodes on a codeword, whatever follows it -/

theorem encoderOf_rice {k : Nat} (sgn : Bool) (s : State) (hk : k ≤ 63) :
    encoderOf (.encRice k sgn) s = some (true, riceCodec k, sgn) := by rw [encoderOf, decide_eq_true hk]

theorem encoderOf_golomb {m : Nat} (sgn : Bool) {s : State} (hm : m = s.arg1.toNat) (h0 : m ≠ 0) :
    encoderOf (.encGolomb sgn) s = some (true, golombCodec m, sgn) := by
  have hne : s.arg1 ≠ 0 := fun h => h0 (by rw [hm, h]; rfl)
  rw [encoderOf, decide_eq_true hne, hm]

theorem encoderOf_expGolomb {k : Nat} (sgn : Bool) (s : State) (hk : k ≤ 63) :
    encoderOf (.encExpG k sgn) s = some (true, expGolombCodec k, sgn) := by rw [encoderOf, decide_eq_true hk]

theorem encoderOf_fixed {n : Nat} (sgn : Bool) (s : State) (h1 : 1 ≤ n) (h64 : n ≤ 64) :
    encoderOf (.encFixed n sgn) s = some (true, fixedCodec n, sgn) := by rw [encoderOf, decide_eq_true ⟨h1, h64⟩]

/-- Settles O41: a shift is a division by a power of 2, and the remainder's two forms are `tbWord`'s. -/
theorem unaryRiceGolombDecodesReturn : Obligations.UnaryRiceGolombDecodesReturn := by
  intro s sgn u hu
  refine ⟨fun h => ?_, fun k hk h => ?_, fun m b c r bits hm h0 hb hc hr hbits h => ?_⟩
  · have hlen : (unaryCodec.word u).length = u + 1 := unaryCodec_measured u
    rw [← hlen]
    exact exec_decoder_word (i := .encUnary sgn) rfl rfl hu rfl h
  · rw [← riceCodec_word] at h
    rw [Nat.shiftRight_eq_div_pow, ← length_riceCodec_word]
    exact exec_decoder_word rfl (encoderOf_rice sgn s hk) hu rfl h
  · subst hb hc hr hbits
    exact exec_decoder_word (codec := golombCodec m) rfl (encoderOf_golomb sgn hm h0) hu rfl h

/-- Settles O42: both strings are codewords, whose parser takes all of them. -/
theorem gammaExpGolombDecodesReturn : Obligations.GammaExpGolombDecodesReturn := by
  intro s sgn u hu
  refine ⟨fun hpos h => ?_, fun k hk bits hbits h => ?_⟩
  · rw [gammaBits_eq hpos] at h ⊢
    exact exec_decoder_word (i := .encGamma sgn) rfl rfl hu (decide_eq_true hpos) h
  · rw [← expGolombCodec_word] at hbits
    subst hbits
    exact exec_decoder_word rfl (encoderOf_expGolomb sgn s hk) hu rfl h

/-- Settles O43: likewise, with L = bitlen(u) − 1. -/
theorem deltaDecodeReturns : Obligations.DeltaDecodeReturns := by
  intro s sgn u L bits hpos hu hL hbits h
  rw [← deltaCodec_word hpos hL] at hbits
  subst hbits
  exact exec_decoder_word (i := .encDelta sgn) rfl rfl hu (decide_eq_true hpos) h

/-- Settles O44: by the groups themselves, which need not be those `omegaWord` finds. -/
theorem omegaDecodeReturns : Obligations.OmegaDecodeReturns := by
  intro s sgn u g hu hg h
  have hdec := decodeWith_reads (parse := omegaParse) (sgn := sgn) (hg.reads_value hu s) h
  rw [List.length_append, List.length_singleton] at hdec
  exact congrArg _ hdec

/-- Settles O45: the digit string is the codeword's, for it is the only one of its kind. -/
theorem fibonacciDecodeReturns : Obligations.FibonacciDecodeReturns := by
  intro s sgn u d hu hd h
  have hword := hd.fibWord_eq hu
  have hlen : (fibWord u).length = d.length + 1 := by rw [hword, List.length_append, List.length_singleton]
  rw [← hword] at h
  rw [← hlen]
  exact exec_decoder_word (i := .encFib sgn) rfl rfl hu rfl h

/-- Settles O46: a VByte form of any length up to ten bytes, and plain bits. -/
theorem vByteFixedDecodesReturn : Obligations.VByteFixedDecodesReturn := by
  intro s sgn u hu
  refine ⟨fun k h1 h10 hk h => ?_, fun n h1 h64 hn h => ?_⟩
  · have hdec := decodeWith_reads (parse := vbyteParse) (sgn := sgn) (.vbyteParse s 0 h1 h10 hu hk) h
    rw [length_vbyteBits] at hdec
    exact congrArg _ hdec
  · have hdec := exec_decoder_word rfl (encoderOf_fixed sgn s h1 h64) hu (decide_eq_true hn) h
    rwa [fixedCodec_measured] at hdec

/-- Settles O47: every parser that belongs to a codec stops where the source stops inside a codeword. -/
theorem shortDecodesReport : Obligations.ShortDecodesReport := by
  intro i j s sgn codec u n hj hrow hu hdom hn
  obtain ⟨parse, hexec, hparse⟩ := exec_decoder hj hrow
  have hcut := (hparse rfl u hu hdom).cut
  rw [hexec]
  exact ⟨fun h hend => congrArg _ (decodeWith_short hcut hn h hend), fun h => congrArg _ (decodeWith_bus hcut hn h)⟩

/-! ### Encode, then decode (R193) -/

theorem decodeResult_encodeOperand (sgn : Bool) (s : State) : decodeResult sgn (encodeOperand sgn s) = s.arg0 := by
  cases sgn
  · simp [decodeResult, encodeOperand]
  · simp [decodeResult, encodeOperand, unzz_zz]

/-- An encode that ends with OK appended the codeword of its operand, in admitted bytes. -/
theorem encodeWith_of_ok {ok sgn : Bool} {codec : Codec} {s : State} (hm : s.mem.wf) (hs : StreamInv s) (hc : codec.Measured)
    (h : (encodeWith ok codec sgn s).err = .ok) : ok = true ∧ codec.dom (encodeOperand sgn s) = true ∧
      SinkAdmits s (codec.word (encodeOperand sgn s)).length ∧
      Appended (codec.word (encodeOperand sgn s)) s (encodeWith ok codec sgn s) := by
  obtain ⟨-, heq⟩ | ⟨-, -, heq⟩ | ⟨-, -, -, heq⟩ | ⟨hok, hdom, hroom, heq⟩ := encodeWith_cases ok codec sgn s
  · simp [heq] at h
  · simp [heq] at h
  · simp [heq] at h
  · rw [heq] at h ⊢
    exact ⟨hok, hdom, putBits_of_ok hm hs (by rwa [hc]) h⟩

/-- The row of an encode looks at ARG1 alone. -/
theorem encoderOf_congr {i : Instr} {s v : State} (h : v.arg1 = s.arg1) : encoderOf i v = encoderOf i s := by
  unfold encoderOf
  rw [h]

theorem exists_encoderOf {i j : Instr} (s : State) (hj : decoderFor i = some j) : ∃ ok codec sgn, encoderOf i s = some (ok, codec, sgn) := by
  cases i with
  | encUnary | encGamma | encDelta | encOmega | encFib | encRice | encGolomb | encVByte | encExpG | encFixed => exact ⟨_, _, _, rfl⟩
  | _ => cases hj

/-- Settles O49: what the encode appended is what the source holds, and the decode undoes the zigzag too. -/
theorem codecRoundTrip : Obligations.CodecRoundTrip := by
  intro i j s t v hj hm hs hexec hok hmem hplat harg hbase hpos hsize
  obtain ⟨ok, codec, sgn, hrow⟩ := exists_encoderOf s hj
  obtain ⟨hexec', hc⟩ := exec_encoder hrow
  obtain rfl := Host.Outcome.next.inj (hexec'.symm.trans hexec)
  obtain ⟨rfl, hdom, ha, happ⟩ := encodeWith_of_ok hm hs hc hok
  have hlen : v.srcPos.toNat + (codec.word (encodeOperand sgn s)).length = (encodeWith true codec sgn s).sinkCursor.toNat := by
    rw [happ.cursor, hpos]
  have hholds := happ.sourceHolds ha hmem hplat hbase hpos (by omega)
  refine ⟨_, exec_decoder_word hj ((encoderOf_congr harg).trans hrow) (encodeOperand_lt sgn s) hdom hholds, rfl, ?_, ?_⟩
  · exact decodeResult_encodeOperand sgn s
  · rw [State.decoded, hlen, BitVec.ofNat_toNat, BitVec.setWidth_eq]

/-! ### Corrupt bits (R190, R215, R217, R220, R261, R264, R266, R268) -/

/-- γ(m) with m > 64 is CORRUPT to DEC_DELTA: by its zeros when m is past 2^64−1, by its value otherwise. -/
theorem deltaParse_corrupt {s : State} {m : Nat} (hm : 64 < m) (h : HoldsAt s 0 (gammaBits m)) : deltaParse s 0 = .error .corrupt := by
  obtain hlt | hge := Nat.lt_or_ge m (2 ^ 64)
  · exact (Reads.deltaParse_corrupt s 0 hm hlt).whole h
  · have hbits : 64 ≤ bitlen m - 1 := by
      by_contra hno
      have := bitlen_le_iff.1 (show bitlen m ≤ 64 by omega)
      omega
    exact bind_error ((Reads.gammaParse_corrupt s 0 63).whole (h.zeros_of_gammaBits hbits))

/-- The groups of a value past 63 and one more 1 are CORRUPT: at the value, or at a group before it that is past 63 already. -/
theorem OmegaGroups.omegaParse_corrupt {n : Nat} {g : Bits} (hg : OmegaGroups n g) (h63 : 63 < n) {s : State}
    (h : HoldsAt s 0 (g ++ [true])) : omegaParse s 0 = .error .corrupt := by
  induction hg with
  | one => exact absurd h63 (by decide)
  | group n g hn1 hg ih =>
    obtain hlt | hge := Nat.lt_or_ge n (2 ^ 64)
    · exact ((OmegaGroups.group n g hn1 hg).reads_corrupt hlt h63 s).whole h
    · have hbits : 63 < bitlen n - 1 := by
        by_contra hno
        have := bitlen_le_iff.1 (show bitlen n ≤ 64 by omega)
        omega
      refine ih hbits ?_
      rw [holdsAt_append, holdsAt_append] at h
      obtain ⟨⟨h₁, h₂⟩, -⟩ := h
      exact (holdsAt_append s 0 g [true]).2 ⟨h₁, holdsAt_true_of_msb hn1.le h₂⟩

theorem HoldsAt.take {s : State} {k : Nat} {bits : Bits} (h : HoldsAt s k bits) (n : Nat) : HoldsAt s k (bits.take n) := by
  rw [← List.take_append_drop n bits, holdsAt_append] at h
  exact h.1

/-- 93 digits, no two 1s together. -/
theorem fibParse_overlong (s : State) {d : Bits} (hlen : d.length = 93)
    (h : ∀ j < 92, d.getD j false = true → d.getD (j + 1) false = false) : Reads s 0 (fibParse s) d none :=
  .fibLoop_corrupt hlen (noPair_of_getD hlen.le (fun h => by cases h) h)

theorem getD_take (d : Bits) (n j : Nat) : (d.take n).getD j false = if j < n then d.getD j false else false := by
  rw [List.getD_eq_getElem?_getD, List.getElem?_take, List.getD_eq_getElem?_getD]
  split <;> rfl

/-- A digit string of a number past 2^64 is CORRUPT: by its sum, or by its 93rd digit. -/
theorem Zeckendorf.fibParse_corrupt {d : Bits} {m : Nat} (hd : Zeckendorf d m) (hm : 2 ^ 64 < m) {s : State}
    (h : HoldsAt s 0 (d ++ [true])) : fibParse s 0 = .error .corrupt := by
  obtain hgt | hle := Nat.lt_or_ge 92 d.length
  · obtain ⟨-, hsparse, -⟩ := zeckendorf_iff.1 hd
    refine (fibParse_overlong s (d := d.take 93) (by rw [List.length_take]; omega) fun j hj hbit => ?_).whole
      (((holdsAt_append s 0 d [true]).1 h).1.take 93)
    rw [getD_take, if_pos (by omega)] at hbit ⊢
    exact hsparse j (by omega) hbit
  · have hread := hd.reads hle s 0
    rw [fibResult, if_pos hm] at hread
    exact hread.whole h

theorem top_div_two_pow_lt {k q : Nat} (hk : k ≤ 63) (hq : 2 ^ (64 - k) ≤ q) : (2 ^ 64 - 1) / 2 ^ k < q := by
  have hpow : 2 ^ (64 - k) * 2 ^ k = 2 ^ 64 := by rw [← pow_add, Nat.sub_add_cancel (by omega)]
  refine (Nat.div_lt_of_lt_mul ?_).trans_le hq
  rw [Nat.mul_comm, hpow]
  decide

/-- A quotient and a remainder past 2^64−1 are CORRUPT to DEC_GOLOMB: by the quotient alone, or by their value. -/
theorem golombParse_corrupt {s : State} {m q r : Nat} (hr : r < m) (hbig : 2 ^ 64 ≤ q * m + r)
    (h : HoldsAt s 0 (ones q ++ [false] ++ tbWord m r)) : golombParse m s 0 = .error .corrupt := by
  obtain hq | hq := Nat.lt_or_ge ((2 ^ 64 - 1) / m) q
  · exact (Reads.golombParse_corrupt s 0 hq).whole ((holdsAt_append s 0 _ _).1 h).1
  · have hread := Reads.golombParse_quotient s 0 hq hr
    rw [if_pos (by omega)] at hread
    exact hread.whole h

/-- A VByte form that makes no 64-bit value (R266). -/
theorem vbyteParse_corrupt {s : State} {v k : Nat} (hk : 10 < k ∨ k = 10 ∧ 2 ^ 64 ≤ v ∧ v < 2 ^ 70)
    (h : HoldsAt s 0 (vbyteBits v k)) : vbyteParse s 0 = .error .corrupt := by
  obtain hk | ⟨rfl, hlo, hhi⟩ := hk
  · exact (Reads.vbyteParse_overlong s 0 v hk).whole (h.take 80)
  · have hread := Reads.vbyteParse_result s 0 v (K := 10) (by decide) le_rfl
    rw [vbyteResult, Nat.mod_eq_of_lt hhi, if_neg (by omega)] at hread
    exact hread.whole h

/-- γ(m) past the greatest quotient is CORRUPT to DEC_EXPG: by its zeros, or by its value. -/
theorem expGolombParse_corrupt {s : State} {k m : Nat} (hk : k ≤ 63) (hm : 2 ^ (64 - k) < m) (h : HoldsAt s 0 (gammaBits m)) :
    expGolombParse k s 0 = .error .corrupt := by
  obtain hgt | hle := Nat.lt_or_ge 64 (bitlen m - 1)
  · exact bind_error ((Reads.gammaParse_corrupt s 0 64).whole (h.zeros_of_gammaBits (by omega)))
  · exact (Reads.expGolombParse_corrupt s 0 (top_div_two_pow_lt hk (by omega)) hle).whole h

/-! ### A byte that is not admitted, before the end of corrupt bits (R366) -/

theorem take_zeros {n m : Nat} (h : n ≤ m) : (zeros m).take n = zeros n := by
  rw [zeros, List.take_replicate, Nat.min_eq_left h]
  rfl

theorem take_ones_append (q : Nat) (bits : Bits) : (ones q ++ bits).take q = ones q := List.take_left' (length_ones q)

/-- Digits with no two 1s together, and zeros up to the 93rd. -/
theorem fibParse_cuts (s : State) {d : Bits} (hlen : d.length < 93) (h : ∀ j, d.getD j false = true → d.getD (j + 1) false = false) :
    ∃ bits, Cuts s 0 (fibParse s) bits ∧ d.length < bits.length ∧ bits.take d.length = d := by
  have hgetD (j : Nat) : (d ++ zeros (93 - d.length)).getD j false = d.getD j false := by
    obtain hlt | hge := Nat.lt_or_ge j d.length
    · exact List.getD_append _ _ _ _ hlt
    · rw [List.getD_append_right _ _ _ _ hge, List.getD_eq_default d _ hge]
      rw [zeros, List.getD_eq_getElem?_getD, List.getElem?_replicate]
      split <;> rfl
  have hlen' : (d ++ zeros (93 - d.length)).length = 93 := by
    rw [List.length_append, length_zeros]
    omega
  refine ⟨d ++ zeros (93 - d.length), (fibParse_overlong s hlen' fun j _ hbit => ?_).cut, by omega, List.take_left' rfl⟩
  rw [hgetD] at hbit ⊢
  exact h j hbit

/-- A tenth byte is reached only past the first 80 bits. -/
theorem vbyteParse_cuts (s : State) (v : Nat) {k : Nat} (h : 10 ≤ k) : Cuts s 0 (vbyteParse s) ((vbyteBits v k).take 80) := by
  obtain rfl | hlt := Nat.eq_or_lt_of_le h
  · exact (Reads.vbyteParse_result s 0 v (by decide) le_rfl).cut.take 80
  · exact (Reads.vbyteParse_overlong s 0 v hlt).cut

/-- Settles O48: each corrupt form by the parser that meets it, and then each by where the source may stop before. -/
theorem corruptDecodesReport : Obligations.CorruptDecodesReport := by
  rintro s t sgn rfl
  refine ⟨fun h => ?_, fun m hm h => ?_, fun n g h63 hg h => ?_, fun d hlen hd h => ?_, fun d m hd hm h => ?_, fun k hk q hq h => ?_,
    fun m b c q r hm hb hc hr hbig h => ?_, fun v k hk h => ?_, fun k hk m hm h => ?_, fun i j codec hj hrow => ?_, ?_⟩
  · exact congrArg _ (decodeWith_corrupt (Reads.gammaParse_corrupt s 0 63).whole h)
  · exact congrArg _ (decodeWith_corrupt (deltaParse_corrupt hm) h)
  · exact congrArg _ (decodeWith_corrupt (hg.omegaParse_corrupt h63) h)
  · exact congrArg _ (decodeWith_corrupt (fibParse_overlong s hlen hd).whole h)
  · exact congrArg _ (decodeWith_corrupt (hd.fibParse_corrupt hm) h)
  · rw [exec, execDecRice, shiftParam_of_le hk]
    exact congrArg _ (decodeWith_corrupt (Reads.riceParse_corrupt s 0 (top_div_two_pow_lt hk hq)).whole h)
  · subst hm hb hc
    rw [exec, execDecGolomb, modulusParam_of_ne (by omega)]
    exact congrArg _ (decodeWith_corrupt (golombParse_corrupt hr hbig) h)
  · exact congrArg _ (decodeWith_corrupt (vbyteParse_corrupt hk) h)
  · rw [exec, execDecExpG, shiftParam_of_le hk]
    exact congrArg _ (decodeWith_corrupt (expGolombParse_corrupt hk hm) h)
  · obtain ⟨parse, hexec, -⟩ := exec_decoder hj hrow
    rw [hexec]
    rfl
  · rintro b rfl
    refine ⟨fun n hn h => ?_, fun m n hm hm' hn h => ?_, fun u g n h63 hu hg hn h => ?_, fun d hlen hd h => ?_, fun k hk q h => ?_,
      fun q hne h => ?_, fun v k n hk hn h => ?_, fun k hk n hn h => ?_⟩
    · rw [← take_zeros hn.le] at h
      exact congrArg _ (decodeWith_bus (Reads.gammaParse_corrupt s 0 63).cut (by rwa [length_zeros]) h)
    · exact congrArg _ (decodeWith_bus (Reads.deltaParse_corrupt s 0 hm hm').cut hn h)
    · rw [← List.take_append_of_le_length (l₂ := [true]) hn] at h
      exact congrArg _ (decodeWith_bus (hg.reads_corrupt hu h63 s).cut (by simp; omega) h)
    · obtain ⟨bits, hcut, hlt, htake⟩ := fibParse_cuts s hlen hd
      rw [← htake] at h
      exact congrArg _ (decodeWith_bus hcut hlt h)
    · rw [exec, execDecRice, shiftParam_of_le hk]
      rw [← take_ones_append q [false]] at h
      exact congrArg _ (decodeWith_bus ((Reads.unaryParse s 0 q).cut.bind_left _) (by simp [length_ones]) h)
    · have h0 : s.arg1.toNat ≠ 0 := fun h0 => hne (BitVec.eq_of_toNat_eq h0)
      rw [exec, execDecGolomb, modulusParam_of_ne h0]
      rw [← take_ones_append q [false]] at h
      exact congrArg _ (decodeWith_bus ((Reads.unaryParse s 0 q).cut.bind_left _) (by simp [length_ones]) h)
    · have htake : (vbyteBits v k).take n = ((vbyteBits v k).take 80).take n := by rw [List.take_take, Nat.min_eq_left hn.le]
      rw [htake] at h
      exact congrArg _ (decodeWith_bus (vbyteParse_cuts s v hk) (by rw [List.length_take, length_vbyteBits]; omega) h)
    · rw [exec, execDecExpG, shiftParam_of_le hk]
      rw [← take_zeros hn.le] at h
      exact congrArg _ (decodeWith_bus ((Reads.gammaParse_corrupt s 0 64).bind_corrupt _).cut (by rwa [length_zeros]) h)

end Sys2Proof.Machine
end

