-- ==== Sys2Proof/Proofs/VectorWire.lean ====
section
/-! PROOFS. SV_DECODE on a wire form, whole, cut short, faulting and corrupt, and what SV_ENCODE wrote read back (45_succinct.md R320 to R324,
R327). -/
namespace Sys2Proof.Machine

/-! ### The parts of a wire form (R320, R322) -/

theorem length_counts {w : Nat} (xs : List (BitVec w)) : (xs.flatMap fun x => lsb x.toNat w).length = w * xs.length := by
  simp [List.length_flatMap, Nat.mul_comm]

theorem Reads.getFields {w : Nat} (s : State) (k : Nat) (xs : List (BitVec w)) :
    Reads s k (getFields w s xs.length) (xs.flatMap fun x => lsb x.toNat w) (some xs) := by
  refine ⟨fun h => (getFields_holds h).trans (by rw [length_counts]; rfl), ?_⟩
  induction xs generalizing k with
  | nil => exact .nil s k _
  | cons x rest ih => exact (Reads.getBitsLSB s k w x.toNat).cut_bind fun _ => (ih _).bind_left _

/-- The pad after bits that are there is skipped unread: it lies in the byte of the last of them, which is admitted. -/
theorem Reads.skipPad {s : State} {k : Nat} {bits pad : Bits} (h : HoldsAt s 0 bits) (hk : k = bits.length) (hpos : 0 < k)
    (hpad : pad.length = padTo8 (s.srcPos.toNat + k)) : Reads s k (skipPad s) pad (some ()) := by
  obtain ⟨hlast, hadm, -⟩ := h (k - 1) (by omega)
  rw [Nat.zero_add] at hlast hadm
  refine ⟨fun hh => ?_, fun n e hn _ hstop => ?_⟩
  · obtain ⟨hshort, -⟩ | ⟨-, hok⟩ := skipPad_cases s k
    · obtain ⟨hend, -⟩ := hh (pad.length - 1) (by omega)
      omega
    · rw [hok, hpad]
      rfl
  · rw [hpad] at hn
    obtain ⟨hend, hout⟩ | ⟨-, hno, -⟩ | ⟨-, -, hok⟩ := getBit_cases s (k + n)
    · obtain ⟨-, hshort⟩ | ⟨hroom, -⟩ := skipPad_cases s k
      · obtain rfl := Except.error.inj (hstop.symm.trans hout)
        refine ⟨_, hshort, ?_⟩
        rw [ParseError.errCode_out, ParseError.errCode_out, if_neg (by omega), if_neg (by omega)]
      · omega
    · have hbyte : (s.srcPos.toNat + (k - 1)) / 8 = (s.srcPos.toNat + (k + n)) / 8 := by
        unfold padTo8 at hn
        omega
      rw [hbyte, hno] at hadm
      cases hadm
    · cases hstop.symm.trans hok

/-- SV_DECODE's parser on a wire form: its count in any of its forms, its pad of any bits. -/
theorem Reads.wireParse {s : State} {n k : Nat} {bits pad : Bits} {sb : List (BitVec 32)} {bk : List (BitVec 16)} (hp : s.plat.Valid)
    (hn : n ≤ s.plat.vmax) (h1 : 1 ≤ k) (h10 : k ≤ 10) (hk : n < 2 ^ (7 * k)) (hbits : bits.length = n)
    (hpad : pad.length = padTo8 (s.srcPos.toNat + 8 * k + n)) (hsb : sb.length = superCount n) (hbk : bk.length = blockCount n) :
    Reads s 0 (wireParse s) (vbyteBits n k ++ (bits ++ (pad ++
      ((sb.flatMap fun x => lsb x.toNat 32) ++ (bk.flatMap fun x => lsb x.toNat 16))))) (some ⟨n, bits, sb, bk⟩) := by
  obtain ⟨-, hmax⟩ := hp
  refine (Reads.vbyteParse s 0 h1 h10 (by omega) hk).bind_of_holds fun hcount => ?_
  rw [if_neg (Nat.not_lt.2 hn), ← hbits]
  refine (Reads.getBools s _ bits).bind_of_holds fun hcells => ?_
  have hthere : HoldsAt s 0 (vbyteBits n k ++ bits) := (holdsAt_append s 0 _ _).2 ⟨hcount, hbits ▸ hcells⟩
  have hlen : (vbyteBits n k ++ bits).length = 8 * k + n := by rw [List.length_append, length_vbyteBits, hbits]
  have hat : 0 + (vbyteBits bits.length k).length + bits.length = 8 * k + n := by rw [length_vbyteBits, hbits, Nat.zero_add]
  rw [hat]
  refine (Reads.skipPad hthere hlen.symm (by omega) (by rw [hpad, Nat.add_assoc])).bind ?_
  rw [hbits, ← hsb, ← hbk]
  exact (Reads.getFields s _ sb).bind ((Reads.getFields s _ bk).bind_nil fun k => .pure s k _)

/-- A count past VMAX, or one that makes no 64-bit value. -/
theorem wireParse_corrupt {s : State} {n k : Nat} (h : 1 ≤ k ∧ k ≤ 10 ∧ s.plat.vmax < n ∧ n < 2 ^ (7 * k) ∨ 10 < k)
    (hh : HoldsAt s 0 (vbyteBits n k)) : wireParse s 0 = .error .corrupt := by
  obtain ⟨h1, h10, hn, hk⟩ | hk := h
  · have hread := Reads.vbyteParse_result s 0 n h1 h10
    rw [vbyteResult, Nat.mod_eq_of_lt hk] at hread
    split at hread
    next => exact (bind_ok (hread.whole hh)).trans (by rw [if_pos hn]; rfl)
    next => exact bind_error (hread.whole hh)
  · exact bind_error ((Reads.vbyteParse_overlong s 0 n hk).whole (hh.take 80))

/-! ### SV_DECODE (R322, R323, R324) -/

theorem execSvDecode_reads {s : State} {bits : Bits} {v : WireVector} (hr : Reads s 0 (wireParse s) bits (some v))
    (h : SourceHolds s bits) : execSvDecode s = .next (succeed ((s.commitVector v).advanceSource bits.length)) := by
  have hparse : wireParse s 0 = .ok (v, bits.length) := (hr.whole h.holdsAt).trans (by rw [Nat.zero_add]; rfl)
  rw [execSvDecode, hparse]

theorem execSvDecode_error {s : State} {e : ParseError} (h : wireParse s 0 = .error e) : execSvDecode s = .next (raise e.errCode s) := by
  rw [execSvDecode, h]

theorem ofNat_totalIdx (n : Nat) (sb : List (BitVec 32)) (bk : List (BitVec 16)) (bits : Bits) :
    BitVec.ofNat 64 (totalIdx n sb bk bits) = if n = 0 then 0 else BitVec.ofNat 64 (indexedCount sb bk bits (n - 1) n) := by
  unfold totalIdx
  split <;> rfl

/-- Settles O58: the parser reads the wire form part by part, and stops where the source does. -/
theorem vectorDecodeReadsWire : Obligations.VectorDecodeReadsWire := by
  refine fun s => ⟨fun n k bits pad all sb bk hp hn h1 h10 hk hbits hpad hsb hbk hall => ?_, fun n k h hh => ?_⟩
  · rw [← List.flatMap_def, ← List.flatMap_def, List.append_assoc, List.append_assoc, List.append_assoc] at hall
    have hread : Reads s 0 (wireParse s) all (some ⟨n, bits, sb, bk⟩) := hall ▸ .wireParse hp hn h1 h10 hk hbits hpad hsb hbk
    refine ⟨fun hh => ?_, fun m hm hh hend => ?_, fun m hm hh => ?_⟩
    · refine (execSvDecode_reads hread hh).trans ?_
      rw [State.advanceSource_eq, State.commitVector, ofNat_totalIdx]
      rfl
    · obtain ⟨e, he, hcode⟩ := hread.cut.error_of_end hm hh hend
      refine (execSvDecode_error he).trans ?_
      rw [hcode, raise_short]
    · obtain ⟨e, he, hcode⟩ := hread.cut.error_of_rejects hm hh
      refine (execSvDecode_error he).trans ?_
      rw [hcode, raise_fatal _ _ rfl]
  · refine (execSvDecode_error (wireParse_corrupt h hh.holdsAt)).trans ?_
    rw [ParseError.errCode, raise_nonfatal _ _ rfl, State.complete]

/-! ### Encode, then decode (R327) -/

/-- Two states hold the same vector and index: all SV_RANK and a consistent SV_SELECT look at. -/
structure SameVector (s r : State) : Prop where
  index : r.index = s.index
  len : r.svLen = s.svLen
  bits : r.svBits = s.svBits
  sb : r.sb = s.sb
  bk : r.bk = s.bk
  total : r.svTotal = s.svTotal

theorem SameVector.rankOf_eq {s r : State} (h : SameVector s r) (pos : Nat) : rankOf r pos = rankOf s pos := by
  rw [rankOf, rankOf, h.len, h.bits, h.sb, h.bk, h.total]

theorem SameVector.consistent_eq {s r : State} (h : SameVector s r) : consistent r = consistent s := by
  rw [consistent, consistent, h.len, h.bits, h.sb, h.bk, h.total]

theorem SameVector.setArg0 {s r : State} (h : SameVector s r) (q : Word) : SameVector { s with arg0 := q } { r with arg0 := q } :=
  ⟨h.index, h.len, h.bits, h.sb, h.bk, h.total⟩

theorem SameVector.svRank {s r x y : State} (h : SameVector s r) (harg : r.arg0 = s.arg0) (hidx : s.index = .indexed)
    (hx : execSvRank s = .next x) (hy : execSvRank r = .next y) : x.result = y.result ∧ x.err = y.err := by
  rw [execSvRank_of_indexed hidx] at hx
  rw [execSvRank_of_indexed (h.index.trans hidx), harg, h.rankOf_eq] at hy
  cases hx
  cases hy
  exact ⟨rfl, rfl⟩

theorem SameVector.svSelect {s r x y : State} (h : SameVector s r) (harg : r.arg0 = s.arg0) (hidx : s.index = .indexed)
    (hc : consistent s = true) (hx : execSvSelect s = .next x) (hy : execSvSelect r = .next y) :
    x.result = y.result ∧ x.err = y.err ∧ x.nf = y.nf := by
  have hidx' := h.index.trans hidx
  obtain hlt | hge := Nat.lt_or_ge s.arg0.toNat s.svTotal.toNat
  · rw [execSvSelect_of_consistent hidx hlt hc] at hx
    rw [execSvSelect_of_consistent hidx' (by rwa [h.total, harg]) (h.consistent_eq.trans hc), h.bits, harg] at hy
    cases hx
    cases hy
    exact ⟨rfl, rfl, rfl⟩
  · rw [execSvSelect_not_found hidx hge] at hx
    rw [execSvSelect_not_found hidx' (by rwa [h.total, harg])] at hy
    cases hx
    cases hy
    exact ⟨rfl, rfl, rfl⟩

/-- R323: a vector whose stored counts give SV_TOTAL is decoded as it was. -/
theorem sameVector_decoded {s : State} (u : State) (hidx : s.index = .indexed)
    (htotal : s.svTotal.toNat = totalIdx s.svLen.toNat s.sb s.bk s.svBits) (n : Nat) :
    SameVector s (succeed ((u.commitVector ⟨s.svLen.toNat, s.svBits, s.sb, s.bk⟩).advanceSource n)) where
  index := hidx.symm
  len := by simp
  bits := rfl
  sb := rfl
  bk := rfl
  total := by simp [← htotal]

/-- R323, R325: on a consistent index the stored counts give SV_TOTAL. -/
theorem totalIdx_of_consistent {s : State} (hn : s.svLen.toNat ≤ 2 ^ 32) (hc : consistent s = true) :
    s.svTotal.toNat = totalIdx s.svLen.toNat s.sb s.bk s.svBits := by
  obtain ⟨hsb, hbk, htotal⟩ := (consistent_iff s).1 hc
  rw [htotal, totalIdx, hsb, hbk]
  split
  next h0 => rw [h0]; simp [pc, popcount]
  next hne => rw [indexedCount_build _ hn (by omega) (by omega)]

/-- An SV_ENCODE that ends with OK appended the wire form of an Indexed vector, in admitted bytes. -/
theorem execSvEncode_of_ok {s t : State} (hm : s.mem.wf) (hs : StreamInv s) (h : execSvEncode s = .next t) (hok : t.err = .ok) :
    s.index = .indexed ∧ SinkAdmits s (wire s.sinkCursor.toNat s).length ∧ Appended (wire s.sinkCursor.toNat s) s t := by
  rw [execSvEncode] at h
  obtain rfl := Host.Outcome.next.inj h
  split at hok
  next => cases hok
  next hidx =>
    rw [if_neg hidx]
    split at hok
    next => cases hok
    next hroom =>
      rw [if_neg hroom]
      have hindexed : s.index = .indexed := by
        cases hi : s.index
        · exact absurd hi hidx
        · rfl
      exact ⟨hindexed, putBits_of_ok hm hs (Nat.not_lt.1 hroom) hok⟩

/-- The parser takes SV_ENCODE's own wire form at the position it was written for. -/
theorem Reads.wireParse_wire {s u : State} (hv : VectorInv s) (hplat : u.plat = s.plat) (hpos : u.srcPos = s.sinkCursor) :
    Reads u 0 (Machine.wireParse u) (wire s.sinkCursor.toNat s) (some ⟨s.svLen.toNat, s.svBits, s.sb, s.bk⟩) := by
  obtain ⟨hp, hmax, hbits, hsb, hbk⟩ := id hv
  have hle := hv.svLen_le
  have hbitlen : bitlen s.svLen.toNat ≤ 33 := bitlen_le_iff.2 (by omega)
  have hfits : s.svLen.toNat < 2 ^ (7 * vbyteCount s.svLen.toNat) :=
    (lt_two_pow_bitlen _).trans_le (Nat.pow_le_pow_right (by decide) (by rw [vbyteCount_eq]; omega))
  rw [wire, vbyteWord_eq, length_vbyteBits, List.append_assoc, List.append_assoc, List.append_assoc]
  exact .wireParse (hplat ▸ hp) (hplat ▸ hmax) (by rw [vbyteCount_eq]; omega) (by rw [vbyteCount_eq]; omega) hfits hbits
    (by rw [length_zeros, hpos]) hsb hbk

/-- Settles O59: the wire form SV_ENCODE appended is what the source holds, and SV_DECODE takes the same vector from it. -/
theorem vectorZeroCopyRoundTrip : Obligations.VectorZeroCopyRoundTrip := by
  intro s t u hm hs hv hexec hok hmem hplat hbase hpos hsize
  obtain ⟨hidx, ha, happ⟩ := execSvEncode_of_ok hm hs hexec hok
  have hlen : u.srcPos.toNat + (wire s.sinkCursor.toNat s).length = t.sinkCursor.toNat := by rw [happ.cursor, hpos]
  have hdecode := execSvDecode_reads (Reads.wireParse_wire hv hplat hpos) (happ.sourceHolds ha hmem hplat hbase hpos (by omega))
  have hsame (htotal : s.svTotal.toNat = totalIdx s.svLen.toNat s.sb s.bk s.svBits) := sameVector_decoded u hidx htotal
    (wire s.sinkCursor.toNat s).length
  refine ⟨_, hdecode, rfl, rfl, by simp, rfl, rfl, rfl, ?_, fun htotal => ?_, fun hc q x y hx hy => ?_⟩
  · rw [State.advanceSource_eq]
    exact (congrArg (BitVec.ofNat 64) hlen).trans (by simp)
  · have h := hsame (htotal.elim id (totalIdx_of_consistent hv.svLen_le))
    exact ⟨h.total, fun q x y hx hy => (h.setArg0 q).svRank rfl hidx hx hy⟩
  · have h := hsame (totalIdx_of_consistent hv.svLen_le hc)
    exact (h.setArg0 q).svSelect rfl hidx hc hx hy

end Sys2Proof.Machine
end
